-- ==== Sys2Proof/Word.lean ====
section
/-! DEFINITION. The word types of the block (00_scope.md R13, R16; 30_encoding.md R90, R94, R97).

The block has no general registers and no memory (R47, R70), so no type here is an address. `Quantity` carries the
spec's type Num: the rational numbers (R16). Which rationals a numeric model admits is `holdsNum` in
`Machine/Num.lean`. -/

namespace Sys2Proof

/-- One byte of the byte-wide host link (20_memory.md R73). -/
abbrev Byte := BitVec 8

/-- The command word `cmd`, 40 bits (30_encoding.md R90). -/
abbrev CommandWord := BitVec 40

/-- The operand field `arg`, a measurement port, or the response port: 32 bits (R90, R100, R101). -/
abbrev Word32 := BitVec 32

/-- A Hall sector reading, 3 bits: 1..6 valid, 0 and 7 invalid readings (R13, R96). -/
abbrev HallSector := BitVec 3

/-- A phase pattern, one bit per power switch; from bit 0: AH, AL, BH, BL, CH, CL (R97). -/
abbrev PhasePattern := BitVec 6

/-- The spec's type Num: every non-integer quantity (R16). -/
abbrev Quantity := Rat

end Sys2Proof
end

