-- ==== Sys2Proof/Syntax.lean ====
section
/-! DEFINITION. The enumerated values of the block (30_encoding.md R96) and its eleven commands, BMC-CMD version 1
(30_encoding.md R92, one constructor per row of opcode_table.json). -/

namespace Sys2Proof

/-- MotorState (10_state.md R32). -/
inductive MotorState where
  | stop
  | starting
  | running
  | fault
deriving DecidableEq, Repr

/-- ControlMode (10_state.md R33). -/
inductive ControlMode where
  | openLoop
  | speed
  | torque
deriving DecidableEq, Repr

/-- Direction (10_state.md R34): `cw` is Clockwise, `ccw` CounterClockwise. -/
inductive Direction where
  | cw
  | ccw
deriving DecidableEq, Repr

/-- FaultCode (10_state.md R38); `none` means that no fault is latched. -/
inductive FaultCode where
  | none
  | overcurrent
  | overvoltage
  | undervoltage
  | overtemp
  | hallError
  | stall
deriving DecidableEq, Repr

/-- The commands (R92). An operand is kept as its decoded field: SET_SPEED's as the binary32 datum itself, so that
the two zeros stay two words (R94); SET_TORQUE's percent in its 7 bits (R95). The input-port samples that LOOP and
CLEAR_FAULT see are no part of the command (R103); they stand in the machine's state. -/
inductive Instr where
  | init
  | start
  | stop
  | setSpeed (rpm : Word32)
  | setTorque (percent : BitVec 7)
  | faultHandler (code : FaultCode)
  | getFault
  | clearFault
  | loop
  | setMode (mode : ControlMode)
  | setDirection (dir : Direction)
deriving DecidableEq, Repr

end Sys2Proof
end

