-- ==== Sys2Proof/WellFormed.lean ====
section
/-! DEFINITION. Which commands have an encoding: the operand checks of 30_encoding.md R94, R95 and R99. Operands of
enumerated types hold only listed values, so their reserved codes are not terms at all (90_conflicts.md C4). -/

namespace Sys2Proof

/-- A binary32 datum is finite when its exponent field, bits 30:23, is not 0xFF (R94). -/
def finite32 (w : Word32) : Bool := w.extractLsb' 23 8 != 0xFF#8

/-- The operand checks of R99: SET_SPEED's datum is finite, SET_TORQUE's percent is at most 100. -/
def Instr.wellFormed : Instr → Bool
  | .init => true
  | .start => true
  | .stop => true
  | .setSpeed rpm => finite32 rpm
  | .setTorque percent => decide (percent.toNat ≤ 100)
  | .faultHandler _ => true
  | .getFault => true
  | .clearFault => true
  | .loop => true
  | .setMode _ => true
  | .setDirection _ => true

end Sys2Proof
end

