-- ==== Sys2Proof/Decode.lean ====
section
/-! DEFINITION. The command encoding (30_encoding.md): value encodings (R96), the decoder, total on every 40-bit word
and rejecting by name (R102), the encoder, and the byte-wide host link (20_memory.md R73). -/

namespace Sys2Proof

/-! ### Value encodings (R96) -/

/-- MotorState: never carried by a command; the encoding of a model that exposes `state` as bits. -/
def MotorState.code : MotorState → BitVec 2
  | .stop => 0
  | .starting => 1
  | .running => 2
  | .fault => 3

def ControlMode.code : ControlMode → BitVec 2
  | .openLoop => 0
  | .speed => 1
  | .torque => 2

def Direction.code : Direction → BitVec 1
  | .cw => 0
  | .ccw => 1

def FaultCode.code : FaultCode → BitVec 3
  | .none => 0
  | .overcurrent => 1
  | .overvoltage => 2
  | .undervoltage => 3
  | .overtemp => 4
  | .hallError => 5
  | .stall => 6

/-- The ControlMode of a code; 3 is reserved. -/
def ControlMode.ofCode (n : Nat) : Option ControlMode :=
  match n with
  | 0 => some .openLoop
  | 1 => some .speed
  | 2 => some .torque
  | _ => Option.none

/-- The Direction of a code: its one bit. -/
def Direction.ofCode (n : Nat) : Option Direction :=
  match n with
  | 0 => some .cw
  | 1 => some .ccw
  | _ => Option.none

/-- The FaultCode of a code; 7 is reserved. -/
def FaultCode.ofCode (n : Nat) : Option FaultCode :=
  match n with
  | 0 => some .none
  | 1 => some .overcurrent
  | 2 => some .overvoltage
  | 3 => some .undervoltage
  | 4 => some .overtemp
  | 5 => some .hallError
  | 6 => some .stall
  | _ => Option.none

/-! ### Decoding (R90 to R95, R98, R99, R102) -/

/-- Why a word spells no command: the two refusal reasons of R102. -/
inductive DecodeError where
  | reservedOpcode
  | reservedOperand
deriving DecidableEq, Repr

/-- `cmd[39:32]` (R90). -/
def opField (cmd : CommandWord) : BitVec 8 := cmd.extractLsb' 32 8

/-- `cmd[31:0]` (R90). -/
def argField (cmd : CommandWord) : Word32 := cmd.extractLsb' 0 32

/-- Form Z (R93): the operand must be zero. -/
def decodeZ (i : Instr) (arg : Word32) : Except DecodeError Instr :=
  if arg = 0 then .ok i else .error .reservedOperand

/-- Form F32 (R94): a finite binary32 datum. -/
def decodeF32 (arg : Word32) : Except DecodeError Instr :=
  if finite32 arg then .ok (.setSpeed arg) else .error .reservedOperand

/-- Form P7 (R95): `arg[31:7]` zero and `arg[6:0]` at most 100. -/
def decodeP7 (arg : Word32) : Except DecodeError Instr :=
  if arg.extractLsb' 7 25 = 0 ∧ (arg.extractLsb' 0 7).toNat ≤ 100 then .ok (.setTorque (arg.extractLsb' 0 7))
  else .error .reservedOperand

/-- Form C3 (R95): `arg[31:3]` zero and `arg[2:0]` a FaultCode. -/
def decodeC3 (arg : Word32) : Except DecodeError Instr :=
  if arg.extractLsb' 3 29 = 0 then
    match FaultCode.ofCode (arg.extractLsb' 0 3).toNat with
    | some c => .ok (.faultHandler c)
    | none => .error .reservedOperand
  else .error .reservedOperand

/-- Form M2 (R95): `arg[31:2]` zero and `arg[1:0]` a ControlMode. -/
def decodeM2 (arg : Word32) : Except DecodeError Instr :=
  if arg.extractLsb' 2 30 = 0 then
    match ControlMode.ofCode (arg.extractLsb' 0 2).toNat with
    | some m => .ok (.setMode m)
    | none => .error .reservedOperand
  else .error .reservedOperand

/-- Form D1 (R95): `arg[31:1]` zero and `arg[0]` a Direction. -/
def decodeD1 (arg : Word32) : Except DecodeError Instr :=
  if arg.extractLsb' 1 31 = 0 then
    match Direction.ofCode (arg.extractLsb' 0 1).toNat with
    | some d => .ok (.setDirection d)
    | none => .error .reservedOperand
  else .error .reservedOperand

/-- The decoder (R102). -/
def decode (cmd : CommandWord) : Except DecodeError Instr :=
  match (opField cmd).toNat with
  | 0x01 => decodeZ .init (argField cmd)
  | 0x02 => decodeZ .start (argField cmd)
  | 0x03 => decodeZ .stop (argField cmd)
  | 0x04 => decodeF32 (argField cmd)
  | 0x05 => decodeP7 (argField cmd)
  | 0x06 => decodeC3 (argField cmd)
  | 0x07 => decodeZ .getFault (argField cmd)
  | 0x08 => decodeZ .clearFault (argField cmd)
  | 0x09 => decodeZ .loop (argField cmd)
  | 0x0A => decodeM2 (argField cmd)
  | 0x0B => decodeD1 (argField cmd)
  | _ => .error .reservedOpcode

/-- The instruction the decoder reads from the `nbits` low bits of `w`, numbered as opcode_table.json numbers them
(every row has 40 bits; a bit above `nbits` is 0). -/
def decodeTableWord (nbits w : Nat) : Option Instr :=
  match decode (BitVec.ofNat 40 (w % 2 ^ nbits)) with
  | .ok i => some i
  | .error _ => none

/-! ### Encoding (R92 to R95) -/

/-- The opcode of a command (R92). -/
def Instr.opcode : Instr → BitVec 8
  | .init => 0x01
  | .start => 0x02
  | .stop => 0x03
  | .setSpeed _ => 0x04
  | .setTorque _ => 0x05
  | .faultHandler _ => 0x06
  | .getFault => 0x07
  | .clearFault => 0x08
  | .loop => 0x09
  | .setMode _ => 0x0A
  | .setDirection _ => 0x0B

/-- The operand field of a command (R93 to R95): a small operand is extended with zeros (`zext_32`, R17). -/
def Instr.operand : Instr → Word32
  | .init => 0
  | .start => 0
  | .stop => 0
  | .setSpeed rpm => rpm
  | .setTorque percent => percent.zeroExtend 32
  | .faultHandler code => code.code.zeroExtend 32
  | .getFault => 0
  | .clearFault => 0
  | .loop => 0
  | .setMode mode => mode.code.zeroExtend 32
  | .setDirection dir => dir.code.zeroExtend 32

/-- The command word: the opcode above the operand (R90). -/
def encode (i : Instr) : CommandWord := i.opcode ++ i.operand

/-! ### The byte-wide host link (20_memory.md R73): byte k is `cmd[8k+7:8k]` -/

/-- The five bytes that carry a command word, least significant first. -/
def linkBytes (cmd : CommandWord) : List Byte :=
  [cmd.extractLsb' 0 8, cmd.extractLsb' 8 8, cmd.extractLsb' 16 8, cmd.extractLsb' 24 8, cmd.extractLsb' 32 8]

/-- The first command word on a byte link and the bytes after it; none where fewer than five bytes are there. -/
def linkWord (bytes : List Byte) : Option (CommandWord × List Byte) :=
  match bytes with
  | b0 :: b1 :: b2 :: b3 :: b4 :: rest => some (b4 ++ (b3 ++ (b2 ++ (b1 ++ b0))), rest)
  | _ => none

/-- What a byte link delivers: a command with the bytes after it, a word that spells no command, or an unfinished
word. -/
inductive LinkResult where
  | command (i : Instr) (rest : List Byte)
  | reserved (e : DecodeError) (rest : List Byte)
  | incomplete
deriving DecidableEq, Repr

/-- Decoding, total on any bytes. -/
def decodeBytes (bytes : List Byte) : LinkResult :=
  match linkWord bytes with
  | none => .incomplete
  | some (cmd, rest) =>
    match decode cmd with
    | .ok i => .command i rest
    | .error e => .reserved e rest

end Sys2Proof
end

