-- ==== Sys2Proof/Config.lean ====
section
/-! DEFINITION. The configuration record `cfg` (00_scope.md section 3, R7 to R12), constant for a run (10_state.md
R52), as plain data, and the free values: what no rule of the spec fixes.

Two parameters are functions in the spec and are held here as data that covers them; see the types `RampProfile`
and `Quantizer` (assumption log 3 and 4). The default values and the configurations of 95_test_vectors.md stand in
`Machine/Params.lean`; which configurations meet the constraints is `Config.valid` in `Machine/ConfigCheck.lean`. -/

namespace Sys2Proof

/-- NUM_MODEL (R12, R16): the arithmetic of type Num. -/
inductive NumModel where
  | exact
  | binary32
  | binary64
deriving DecidableEq, Repr

/-- Where, between an integer and the next, a quantizer changes over: every value above `point`, and `point` itself
if `closed`, goes to the upper integer. -/
structure Cut where
  point : Quantity
  closed : Bool
deriving DecidableEq, Repr

/-- QUANTIZE (R12). A map from [0, 1000] to the integers 0..1000 that is monotone and the identity on integers is
given by where it changes over inside each gap between an integer `n` and `n + 1`: entry `n` of `cuts` (a missing
entry: nowhere, as for floor). -/
inductive Quantizer where
  | floor
  | cuts (cs : List Cut)
deriving DecidableEq, Repr

/-- RAMP_DUTY (R10): the duty of the n-th Starting tick, n ≥ 1, is the n-th entry of `steps`, and `hold` after the
last. A Starting phase that began at START lasts at most RAMP_TIMEOUT_TICKS ticks (45_state_machine.md R202), so
finitely many entries give every profile. -/
structure RampProfile where
  steps : List Nat
  hold : Nat
deriving DecidableEq, Repr

/-- COMM_TABLE (R11; 20_memory.md R71): per direction, the patterns of sectors 1 to 6 in that order. -/
structure CommTable where
  cw : Vector PhasePattern 6
  ccw : Vector PhasePattern 6
deriving DecidableEq, Repr

/-- The configuration record. Field by field: R7 (time and rate), R8 (PID), R9 (current and protection), R10 (duty
profile), R11 (table and reset), R12 (numeric model). -/
structure Config where
  /-- DT, the fixed tick interval in seconds. -/
  dt : Quantity
  /-- K_RPM, in rpm·ticks. -/
  kRpm : Quantity
  stallTimeoutTicks : Nat
  rampTimeoutTicks : Nat
  minRunRpm : Quantity
  kp : Quantity
  ki : Quantity
  kd : Quantity
  outMin : Quantity
  outMax : Quantity
  softLimit : Quantity
  hardLimit : Quantity
  ovLimit : Quantity
  uvLimit : Quantity
  otLimit : Quantity
  rampDuty : RampProfile
  openLoopDuty : Nat
  torqueFullScale : Quantity
  commTable : CommTable
  initMode : ControlMode
  initDir : Direction
  numModel : NumModel
  quantize : Quantizer
  /-- TICK_W; `none` is the default, unbounded. -/
  tickWidth : Option Nat
deriving DecidableEq, Repr

/-- The arithmetic operations of the pseudocode whose result can be a value the spec does not state (an IEEE result
outside the finite values, a division by a zero period, a quantisation outside [0, 1000]): one name each, so that
two such operations of one LOOP have independent free values. -/
inductive OpSite where
  /-- K_RPM / (now − last_ts), 42_speed_estimator.md R142. -/
  | rate
  /-- target − current, 43_speed_controller.md R161. -/
  | error
  /-- e · DT, R162. -/
  | errorStep
  /-- pid_integral + e · DT, R162. -/
  | rawIntegral
  /-- The stored integral where no Num meets the bounds of R162. -/
  | boundedIntegral
  /-- e − pid_prev_error, R163. -/
  | errorChange
  /-- (e − pid_prev_error) / DT, R163. -/
  | derivative
  /-- KP · e, R164. -/
  | proportionalTerm
  /-- KI · i, R164. -/
  | integralTerm
  /-- KD · d, R164. -/
  | derivativeTerm
  /-- KP · e + KI · i, R164. -/
  | partialSum
  /-- u, R164. -/
  | output
  /-- QUANTIZE of the PID output, R165. -/
  | pidQuantize
  /-- target_torque / 100, 44_current_limiter.md R184. -/
  | torqueFraction
  /-- (target_torque / 100) · TORQUE_FULL_SCALE, R184. -/
  | torqueReference
  /-- hard − I, R182. -/
  | headroom
  /-- d_in · (hard − I), R182. -/
  | scaledDuty
  /-- hard − soft, R182. -/
  | span
  /-- the foldback quotient, R182. -/
  | foldback
  /-- QUANTIZE of the foldback quotient, R182. -/
  | foldbackQuantize
deriving DecidableEq, Repr

/-- A free value of type Num: no rule says what it is, and no proof can see it. The first argument is the draw
counter of the state (assumption log 5). -/
opaque Config.freeNum : Nat → OpSite → Quantity

/-- A free duty, for a quantisation whose argument lies outside the domain that R12 gives QUANTIZE (log 5). -/
opaque Config.freeDuty : Nat → OpSite → Nat

end Sys2Proof
end

