-- ==== Sys2Proof/Machine/Num.lean ====
section
/-! DEFINITION. The arithmetic of type Num (00_scope.md R16): exact rationals, or IEEE-754 binary32 or binary64 with
round-to-nearest-even; and the value of a binary32 datum (30_encoding.md R94). Numbers are held as the rational they
stand for; the two zeros are one value (log 7). -/

namespace Sys2Proof.Machine

/-- 2 to an integer power. -/
def pow2 (k : Int) : Quantity :=
  match k with
  | .ofNat n => ((2 ^ n : Nat) : Quantity)
  | .negSucc n => 1 / ((2 ^ (n + 1) : Nat) : Quantity)

/-- The absolute value. -/
def magnitude (x : Quantity) : Quantity := if x < 0 then -x else x

/-- The greatest `k` with 2^k ≤ x, for x > 0. -/
def floorLog2 (x : Quantity) : Int :=
  let k : Int := (Nat.log2 x.num.natAbs : Int) - (Nat.log2 x.den : Int)
  if pow2 k ≤ x then k else k - 1

/-- The nearest integer; halfway cases go to the even one. -/
def roundHalfEven (x : Quantity) : Int :=
  let low := x.floor
  let rest := x - (low : Quantity)
  if rest < 1 / 2 then low
  else if 1 / 2 < rest then low + 1
  else if low % 2 = 0 then low else low + 1

/-- An IEEE-754 binary format: its precision in bits and its exponent range. -/
structure FloatFormat where
  precision : Nat
  emin : Int
  emax : Int
deriving DecidableEq, Repr

/-- IEEE-754 binary32. PRESUMED, as the spec's own [from general knowledge] (R16, log 7). -/
def FloatFormat.single : FloatFormat := { precision := 24, emin := -126, emax := 127 }

/-- IEEE-754 binary64. PRESUMED, as the spec's own [from general knowledge] (R16, log 7). -/
def FloatFormat.double : FloatFormat := { precision := 53, emin := -1022, emax := 1023 }

/-- The distance between neighbouring values of the format around `x` ≠ 0 (subnormals included). -/
def FloatFormat.spacing (f : FloatFormat) (x : Quantity) : Quantity :=
  pow2 (max (floorLog2 (magnitude x)) f.emin - ((f.precision : Int) - 1))

/-- The greatest finite value of the format. -/
def FloatFormat.maxFinite (f : FloatFormat) : Quantity :=
  ((2 ^ f.precision - 1 : Nat) : Quantity) * pow2 (f.emax - ((f.precision : Int) - 1))

/-- Round to nearest even; none where IEEE-754 answers an infinity. -/
def FloatFormat.round (f : FloatFormat) (x : Quantity) : Option Quantity :=
  if x = 0 then some 0
  else
    let y := (roundHalfEven (x / f.spacing x) : Quantity) * f.spacing x
    if magnitude y ≤ f.maxFinite then some y else none

/-- The result of one operation whose exact result is `x`; none where the format has no finite value for it. -/
def roundIn (m : NumModel) (x : Quantity) : Option Quantity :=
  match m with
  | .exact => some x
  | .binary32 => FloatFormat.single.round x
  | .binary64 => FloatFormat.double.round x

/-- `x` is a value of type Num under the model (R16): any rational, or a finite value of the format. -/
def holdsNum (m : NumModel) (x : Quantity) : Bool := roundIn m x == some x

/-- What an operation needs: the numeric model, and the draw its free values come from. -/
structure Arith where
  model : NumModel
  draw : Nat
deriving DecidableEq, Repr

/-- A free value of type Num under the model. An arbitrary value of the format is an arbitrary rational rounded into
the format, where it fits. -/
def Arith.free (a : Arith) (site : OpSite) : Quantity := (roundIn a.model (Config.freeNum a.draw site)).getD 0

/-- The result of an operation whose exact result is `x`: `x` rounded; a free value where no finite value of the
format is the IEEE result (R16 states none; log 5). -/
def Arith.result (a : Arith) (site : OpSite) (x : Quantity) : Quantity := (roundIn a.model x).getD (a.free site)

def Arith.add (a : Arith) (site : OpSite) (x y : Quantity) : Quantity := a.result site (x + y)

def Arith.sub (a : Arith) (site : OpSite) (x y : Quantity) : Quantity := a.result site (x - y)

def Arith.mul (a : Arith) (site : OpSite) (x y : Quantity) : Quantity := a.result site (x * y)

/-- Division; by zero no rule states a result, and it is a free value (log 5). -/
def Arith.div (a : Arith) (site : OpSite) (x y : Quantity) : Quantity := if y = 0 then a.free site else a.result site (x / y)

/-- `clamp` of R17. -/
def clamp (x lo hi : Quantity) : Quantity := if x < lo then lo else if hi < x then hi else x

/-- The rational value of a finite binary32 datum (R94): sign bit 31, biased exponent bits 30:23, fraction bits
22:0. -/
def value32 (w : Word32) : Quantity :=
  let e := (w.extractLsb' 23 8).toNat
  let f := (w.extractLsb' 0 23).toNat
  let m : Nat := if e = 0 then f else 2 ^ 23 + f
  let v := (m : Quantity) * pow2 ((max e 1 : Nat) - 150)
  if w.getLsbD 31 then -v else v

/-! ### QUANTIZE (R12) -/

/-- QUANTIZE by cuts, on [0, 1000]. -/
def cutQuantize (cs : List Cut) (x : Quantity) : Int :=
  let n := x.floor
  if (n : Quantity) = x then n
  else
    match cs[n.toNat]? with
    | none => n
    | some c => if c.point < x ∨ (c.closed = true ∧ x = c.point) then n + 1 else n

/-- QUANTIZE(x). R12 gives a quantizer other than floor a domain, [0, 1000]; outside it the duty is a free value in
{0..1000} (log 5). -/
def quantize (a : Arith) (site : OpSite) (q : Quantizer) (x : Quantity) : Int :=
  match q with
  | .floor => x.floor
  | .cuts cs => if 0 ≤ x ∧ x ≤ 1000 then cutQuantize cs x else ((Config.freeDuty a.draw site % 1001 : Nat) : Int)

end Sys2Proof.Machine
end

