-- ==== Sys2Proof/Machine/Params.lean ====
section
/-! DEFINITION. The parameter values the spec gives: the default commutation table (41_commutation.md R122) and the
three configurations of 95_test_vectors.md. -/

namespace Sys2Proof

/-- The default COMM_TABLE (R122), sectors 1 to 6. -/
def CommTable.default : CommTable where
  cw := #v[0x09#6, 0x24#6, 0x21#6, 0x12#6, 0x18#6, 0x06#6]
  ccw := #v[0x06#6, 0x18#6, 0x12#6, 0x21#6, 0x24#6, 0x09#6]

/-- TC1 of 95_test_vectors.md: "Values are chosen for the vectors. They are not defaults of the source". The
parameters to which the spec gives a default have it here. -/
def Config.tc1 : Config where
  dt := mkRat 1 1000
  kRpm := 10000
  stallTimeoutTicks := 20
  rampTimeoutTicks := 50
  minRunRpm := 1000
  kp := mkRat 1 2
  ki := mkRat 1 100
  kd := 0
  outMin := 0
  outMax := 1000
  softLimit := 8000
  hardLimit := 10000
  ovLimit := 60
  uvLimit := 10
  otLimit := 100
  rampDuty := { steps := [], hold := 200 }
  openLoopDuty := 300
  torqueFullScale := 8000
  commTable := CommTable.default
  initMode := .speed
  initDir := .cw
  numModel := .exact
  quantize := .floor
  tickWidth := none

/-- TC2: TC1 with RAMP_TIMEOUT_TICKS = 3. -/
def Config.tc2 : Config := { Config.tc1 with rampTimeoutTicks := 3 }

/-- TC3: TC1 with KD = 0.0001. -/
def Config.tc3 : Config := { Config.tc1 with kd := mkRat 1 10000 }

end Sys2Proof
end

