-- ==== Sys2Proof/Machine/ConfigCheck.lean ====
section
/-! DEFINITION. The constraints on a configuration (00_scope.md R7 to R12, 41_commutation.md R121). A configuration that
violates one is refused as a whole (R290). -/

namespace Sys2Proof.Machine

/-- The six patterns with exactly one high switch and one low switch on, on different phases (30_encoding.md R97):
A+B-, A+C-, B+C-, B+A-, C+A-, C+B-. -/
def sixStepPatterns : List PhasePattern := [0x09, 0x21, 0x24, 0x06, 0x12, 0x18]

/-- R121 for one direction: six-step patterns only, pairwise distinct. -/
def rowOk (row : Vector PhasePattern 6) : Bool :=
  row.toList.all (fun p => sixStepPatterns.contains p) && decide row.toList.Nodup

/-- R7: DT > 0, K_RPM > 0, RAMP_TIMEOUT_TICKS ≥ 1, MIN_RUN_RPM ≥ 0. -/
def timingOk (c : Config) : Bool :=
  decide (0 < c.dt) && decide (0 < c.kRpm) && decide (1 ≤ c.rampTimeoutTicks) && decide (0 ≤ c.minRunRpm)

/-- R8: 0 ≤ OUT_MIN ≤ OUT_MAX ≤ 1000. -/
def boundsOk (c : Config) : Bool :=
  decide (0 ≤ c.outMin) && decide (c.outMin ≤ c.outMax) && decide (c.outMax ≤ 1000)

/-- R9: SOFT_LIMIT < HARD_LIMIT and UV_LIMIT < OV_LIMIT. -/
def limitsOk (c : Config) : Bool :=
  decide (c.softLimit < c.hardLimit) && decide (c.uvLimit < c.ovLimit)

/-- R10: every duty of the profiles is in {0..1000}, and TORQUE_FULL_SCALE > 0. -/
def dutiesOk (c : Config) : Bool :=
  c.rampDuty.steps.all (fun d => decide (d ≤ 1000)) && decide (c.rampDuty.hold ≤ 1000)
    && decide (c.openLoopDuty ≤ 1000) && decide (0 < c.torqueFullScale)

/-- R11, R121. -/
def tableOk (c : Config) : Bool := rowOk c.commTable.cw && rowOk c.commTable.ccw

/-- R12: QUANTIZE maps 500.01 to 500. DESIGN CHOICE (log 19): 500.01 is the rational 50001/100 under every NUM_MODEL,
also under a Binary one, which has no such value. That it is monotone and the identity on integers holds of every
`Quantizer`. -/
def quantizerOk (q : Quantizer) : Bool :=
  match q with
  | .floor => true
  | .cuts cs => cutQuantize cs (50001 / 100) == 500

/-- The parameters of type Num. -/
def configNums (c : Config) : List Quantity :=
  [c.dt, c.kRpm, c.minRunRpm, c.kp, c.ki, c.kd, c.outMin, c.outMax, c.softLimit, c.hardLimit, c.ovLimit, c.uvLimit,
    c.otLimit, c.torqueFullScale]

/-- R16: a parameter of type Num is a value of that type under NUM_MODEL. -/
def numsOk (c : Config) : Bool := (configNums c).all (fun x => holdsNum c.numModel x)

/-- Every constraint of 00_scope.md section 3. -/
def configOk (c : Config) : Bool :=
  timingOk c && boundsOk c && limitsOk c && dutiesOk c && tableOk c && quantizerOk c.quantize && numsOk c

end Sys2Proof.Machine
end

