-- ==== Sys2Proof/Machine/State.lean ====
section
/-! DEFINITION. The state of the block (10_state.md R30), beside it what the step needs of the block's environment
(input ports, presented commands, configuration: assumption log 1), the reasons a step can stop, and the state at
power-on (R57, 70_reset_and_hazards.md R300). -/

namespace Sys2Proof.Machine

/-- The words on the four input ports (10_state.md R50; 30_encoding.md R100): a Hall sector and three binary32
measurements. -/
structure Samples where
  hall : HallSector
  iMeas : Word32
  vMeas : Word32
  tMeas : Word32
deriving DecidableEq, Repr

/-- What the host presents for one command: the command word together with the input-port samples (R90). -/
structure Presented where
  cmd : CommandWord
  samples : Samples
deriving DecidableEq, Repr

/-- The machine's state. The first eighteen fields are the state record of R30, in its order and under its names. -/
structure State where
  /-- `init_done` (R31). -/
  initDone : Bool
  /-- `state`, the MotorState (R32). -/
  state : MotorState
  /-- `mode` (R33). -/
  mode : ControlMode
  /-- `dir` (R34). -/
  dir : Direction
  /-- `target_speed`, rpm (R35). -/
  targetSpeed : Quantity
  /-- `target_torque`, percent 0..100 in 7 bits (R36). -/
  targetTorque : BitVec 7
  /-- `duty`, 0..1000 in 10 bits (R37); also the pwm duty port (R46). -/
  duty : BitVec 10
  /-- `fault`, the latched FaultCode (R38). -/
  fault : FaultCode
  /-- `last_sector`, 1..6, or 0 for none (R39). -/
  lastSector : HallSector
  /-- `last_ts`, the tick of the last Hall transition (R40). -/
  lastTs : Nat
  /-- `has_prior` (R41). -/
  hasPrior : Bool
  /-- `rpm`, the speed estimate (R42). -/
  rpm : Quantity
  /-- `pid_integral` (R43). -/
  pidIntegral : Quantity
  /-- `pid_prev_error` (R43). -/
  pidPrevError : Quantity
  /-- `tick`, LOOP commands since INIT (R44). -/
  tick : Nat
  /-- `ramp_ticks`, LOOP ticks in Starting since the last START (R45). -/
  rampTicks : Nat
  /-- `out_phase`, the phase pattern port (R46, R97). -/
  outPhase : PhasePattern
  /-- `out_en`, the enable port (R46). -/
  outEn : Bool
  /-- The response port: the word GET_FAULT last drove on it (R51, R101). -/
  resp : Word32
  /-- The input ports as the current command sees them (R50). -/
  ports : Samples
  /-- The commands the host has presented and the block has not yet executed, the next one first (R72). -/
  pending : List Presented
  /-- The configuration record (R52). -/
  cfg : Config
  /-- The model's own: how many LOOPs have drawn free values (log 5). -/
  draws : Nat
deriving DecidableEq, Repr

/-- Why the machine stops with a fault: never. A fault of the block is a transition to the Fault state
(60_exceptions.md R276), and "its only non-next-state outcome is refusal" (70_reset_and_hazards.md R309), so this
type has no constructor. -/
inductive Fault where
deriving DecidableEq, Repr

/-- Why a command is refused (60_exceptions.md R290). Every refusal is safe: the spec gives the command no meaning
there, and no claim about a run holds of a run with a refusal in it. -/
inductive Refusal where
  /-- Raised by an arm of `exec` whose instruction has no meaning yet; no arm raises it. Safe. -/
  | notModelled (mnemonic : String)
  /-- Raised by `step` on a word whose opcode is reserved (30_encoding.md R98). Safe. -/
  | reservedOpcode
  /-- Raised by `step` on a word whose operand is reserved (30_encoding.md R99). Safe. -/
  | reservedOperand
  /-- Raised by every command but INIT before INIT (47_commands.md R250). Safe. -/
  | notInitialised
  /-- Raised by INIT after INIT (47_commands.md R240). Safe. -/
  | alreadyInitialised
  /-- Raised by LOOP and CLEAR_FAULT on an infinite or NaN measurement (10_state.md R50). Safe. -/
  | nonFiniteSample
  /-- Raised by `step` and by every command under a configuration that violates a constraint of 00_scope.md
  section 3 (R290). Safe. -/
  | invalidConfig
deriving DecidableEq, Repr

/-- What one step or one command answers. -/
abbrev Result := Host.Outcome State Fault Refusal

/-- Input ports at rest. DESIGN CHOICE (log 2): the spec gives input ports no power-on value. -/
def Samples.rest : Samples := { hall := 0, iMeas := 0, vMeas := 0, tMeas := 0 }

/-- Power-on under a configuration: `init_done` false and the outputs off (R57). Every other field is unspecified
there, and is zero, or the first value of its type, by DESIGN CHOICE (log 2). -/
def State.powerOn (cfg : Config) : State where
  initDone := false
  state := .stop
  mode := .openLoop
  dir := .cw
  targetSpeed := 0
  targetTorque := 0
  duty := 0
  fault := .none
  lastSector := 0
  lastTs := 0
  hasPrior := false
  rpm := 0
  pidIntegral := 0
  pidPrevError := 0
  tick := 0
  rampTicks := 0
  outPhase := 0
  outEn := false
  resp := 0
  ports := Samples.rest
  pending := []
  cfg := cfg
  draws := 0

/-- The machine right after reset: power-on under TC1. DESIGN CHOICE (log 6): the spec gives most parameters no
default, so that a runnable machine needs a configuration from somewhere. -/
def State.reset : State := State.powerOn Config.tc1

end Sys2Proof.Machine
end

