-- ==== Sys2Proof/Machine/Operands.lean ====
section
/-! DEFINITION. The operand forms and the input samples as the values the machine computes with (30_encoding.md R93 to
R95, R100; 10_state.md R50). Form Z has no operand; the forms C3, M2 and D1 carry enumerated values, which the decoder
has already turned into terms. -/

namespace Sys2Proof.Machine

/-- Form F32: the exact rational value of the datum (R94). Every finite binary32 value is a value of Num under each
numeric model, so the conversion is exact. -/
def speedOperand (rpm : Word32) : Quantity := value32 rpm

/-- Form P7: an unsigned integer held in 7 bits (R95), stored as it stands. -/
def percentOperand (percent : BitVec 7) : BitVec 7 := percent

/-- One sample of the input ports, as values: what LOOP and CLEAR_FAULT compute with (R50). -/
structure Meas where
  hall : HallSector
  i : Quantity
  v : Quantity
  t : Quantity
deriving DecidableEq, Repr

/-- No measurement is infinite or NaN (R50, R100). -/
def samplesFinite (p : Samples) : Bool := finite32 p.iMeas && finite32 p.vMeas && finite32 p.tMeas

/-- The values on the ports (R100). -/
def samplesValue (p : Samples) : Meas :=
  { hall := p.hall, i := value32 p.iMeas, v := value32 p.vMeas, t := value32 p.tMeas }

/-- The duty of the n-th Starting tick, RAMP_DUTY(n) with n ≥ 1 (00_scope.md R10). -/
def rampDutyAt (r : RampProfile) (n : Nat) : Nat := r.steps.getD (n - 1) r.hold

end Sys2Proof.Machine
end

