-- ==== Sys2Proof/Machine/Flags.lean ====
section
/-! DEFINITION. The block has no condition-code register. These are its four per-tick signals, computed and consumed inside
one LOOP and not held between commands (10_state.md R49), and the tick arithmetic they rest on (R44). -/

namespace Sys2Proof.Machine

/-- `valid`: the sampled sector is in 1..6 (R49; 42_speed_estimator.md R141). -/
def validFlag (hall : HallSector) : Bool := decide (1 ≤ hall.toNat ∧ hall.toNat ≤ 6)

/-- `trans`: a valid sector that differs from the last valid one (R141). -/
def transFlag (hall lastSector : HallSector) : Bool := validFlag hall && hall != lastSector

/-- The tick after `t`: modulo 2^TICK_W where TICK_W is finite (R44). -/
def nextTick (c : Config) (t : Nat) : Nat :=
  match c.tickWidth with
  | none => t + 1
  | some w => (t + 1) % 2 ^ w

/-- `now − since` in ticks: modulo 2^TICK_W where TICK_W is finite (R44). -/
def elapsed (c : Config) (now since : Nat) : Int :=
  match c.tickWidth with
  | none => (now : Int) - (since : Int)
  | some w => ((now : Int) - (since : Int)) % ((2 ^ w : Nat) : Int)

/-- `stall`: in Running, more than STALL_TIMEOUT_TICKS since the last transition (42_speed_estimator.md R144). -/
def stallFlag (c : Config) (st : MotorState) (now lastTs : Nat) : Bool :=
  decide (st = .running ∧ (c.stallTimeoutTicks : Int) < elapsed c now lastTs)

/-- `oc`: the CurrentLimiter's overcurrent signal (44_current_limiter.md R181). -/
def overcurrentFlag (i hard : Quantity) : Bool := decide (hard ≤ i)

end Sys2Proof.Machine
end

