-- ==== Sys2Proof/Machine/Ops.lean ====
section
/-! DEFINITION. The operations the commands share: OUTPUTS_OFF, PID_RESET and the estimator reset; taking a fault
(FAULT_ENTRY) and the return from it; the transitions of the state machine; and the checks that refuse a command. The
block has no memory and no register file (R47, R70): every register is a field of State and is written whole (R75). -/

namespace Sys2Proof.Machine

/-! ### Writing registers -/

/-- OUTPUTS_OFF: duty 0, no phase energised, enable 0 (00_scope.md R17; 10_state.md R46). -/
def outputsOff (s : State) : State := { s with duty := 0, outPhase := 0, outEn := false }

/-- PID_RESET (43_speed_controller.md R166). -/
def pidReset (s : State) : State := { s with pidIntegral := 0, pidPrevError := 0 }

/-- PID_RESET on the way out of Running (R166). -/
def pidResetOutOfRunning (s : State) : State :=
  match s.state with
  | .running => pidReset s
  | .stop | .starting | .fault => s

/-- The estimator reset of START; `last_ts` is kept (42_speed_estimator.md R146). -/
def estimatorReset (s : State) : State := { s with hasPrior := false, rpm := 0, lastSector := 0 }

/-- `respond(v)`: drive the response port (00_scope.md R17). -/
def respond (v : Word32) (s : State) : State := { s with resp := v }

/-! ### Taking a fault, and the return from it -/

/-- Latch the first code only (60_exceptions.md R275). -/
def latchFault (c : FaultCode) (s : State) : State :=
  match s.fault with
  | .none => { s with fault := c }
  | .overcurrent | .overvoltage | .undervoltage | .overtemp | .hallError | .stall => s

/-- FAULT_ENTRY(c), c ≠ None (60_exceptions.md R276): the one way into Fault, for detected and injected faults. -/
def faultEntry (c : FaultCode) (s : State) : State :=
  outputsOff { pidResetOutOfRunning (latchFault c s) with state := .fault }

/-- SAFE(code, …): the latched condition no longer holds in this sample (60_exceptions.md R280). -/
def safe (cfg : Config) (code : FaultCode) (m : Meas) : Bool :=
  match code with
  | .overcurrent => decide (m.i < cfg.hardLimit)
  | .overvoltage => decide (m.v < cfg.ovLimit)
  | .undervoltage => decide (cfg.uvLimit < m.v)
  | .overtemp => decide (m.t < cfg.otLimit)
  | .hallError => validFlag m.hall
  | .stall => true
  | .none => false

/-- The return from Fault: to Stop, never to the state before the fault, restoring nothing (R281; 47_commands.md
R247). -/
def faultReturn (s : State) : State := outputsOff { s with state := .stop, fault := .none }

/-! ### The transitions of the state machine (45_state_machine.md) -/

/-- ENTER_STARTING (R201). `out_en` and `out_phase` are not written. -/
def enterStarting (s : State) : State :=
  estimatorReset { pidReset s with state := .starting, duty := 0, rampTicks := 0 }

/-- LEAVE_TO_STOP (R203). -/
def leaveToStop (s : State) : State := outputsOff { pidResetOutOfRunning s with state := .stop }

/-- The values INIT writes (10_state.md R58), to every field of the state record. -/
def initialise (s : State) : State :=
  { s with
    initDone := true
    state := .stop
    mode := s.cfg.initMode
    dir := s.cfg.initDir
    targetSpeed := 0
    targetTorque := 0
    duty := 0
    fault := .none
    lastSector := 0
    lastTs := 0
    hasPrior := false
    rpm := 0
    pidIntegral := 0
    pidPrevError := 0
    tick := 0
    rampTicks := 0
    outPhase := 0
    outEn := false }

/-! ### Refusing a command (60_exceptions.md R290) -/

/-- The check of every command but INIT: a configuration that meets its constraints, and INIT done (R250). -/
def whenReady (s : State) (run : Result) : Result :=
  if configOk s.cfg = false then .refused .invalidConfig
  else if s.initDone = false then .refused .notInitialised
  else run

/-- INIT's own check: it is "one-time setup" (47_commands.md R240). -/
def whenUninitialised (s : State) (run : Result) : Result :=
  if configOk s.cfg = false then .refused .invalidConfig
  else if s.initDone = true then .refused .alreadyInitialised
  else run

/-- Sample the input ports, refusing an infinite or NaN measurement (10_state.md R50). -/
def withSample (s : State) (run : Meas → Result) : Result :=
  if samplesFinite s.ports = true then run (samplesValue s.ports) else .refused .nonFiniteSample

end Sys2Proof.Machine
end

