-- ==== Sys2Proof/Machine/Commands.lean ====
section
/-! DEFINITION. The command API: every command but LOOP (47_commands.md). -/

namespace Sys2Proof.Machine

/-- INIT (R240). -/
def execInit (s : State) : Result := whenUninitialised s (.next (initialise s))

/-- START (R241): from Stop only; elsewhere nothing changes. -/
def startCommand (s : State) : State :=
  match s.state with
  | .stop => enterStarting s
  | .starting | .running | .fault => s

def execStart (s : State) : Result := whenReady s (.next (startCommand s))

/-- STOP (R242): from Fault it only re-zeroes the outputs. -/
def stopCommand (s : State) : State :=
  match s.state with
  | .starting | .running => leaveToStop s
  | .stop | .fault => outputsOff s

def execStop (s : State) : Result := whenReady s (.next (stopCommand s))

/-- SET_SPEED v (R243): stored in every state. -/
def execSetSpeed (rpm : Word32) (s : State) : Result :=
  whenReady s (.next { s with targetSpeed := speedOperand rpm })

/-- SET_TORQUE p (R244): stored in every state. -/
def execSetTorque (percent : BitVec 7) (s : State) : Result :=
  whenReady s (.next { s with targetTorque := percentOperand percent })

/-- FAULT_HANDLER c (R245): effective in every state; None changes nothing. -/
def faultCommand (code : FaultCode) (s : State) : State :=
  match code with
  | .none => s
  | .overcurrent | .overvoltage | .undervoltage | .overtemp | .hallError | .stall => faultEntry code s

def execFaultHandler (code : FaultCode) (s : State) : Result := whenReady s (.next (faultCommand code s))

/-- The response word of GET_FAULT: the code in bits 2:0, zeros above (30_encoding.md R101). -/
def faultResponse (code : FaultCode) : Word32 := code.code.zeroExtend 32

/-- GET_FAULT (R246). -/
def execGetFault (s : State) : Result := whenReady s (.next (respond (faultResponse s.fault) s))

/-- CLEAR_FAULT (R247): from Fault with the latched condition safe in this command's own sample; otherwise it "fails
silently". -/
def clearCommand (m : Meas) (s : State) : State :=
  if s.state = .fault ∧ safe s.cfg s.fault m = true then faultReturn s else s

def execClearFault (s : State) : Result := whenReady s (withSample s fun m => .next (clearCommand m s))

/-- SET_MODE m (R248): only in Stop, and the mode already set is no change. -/
def modeCommand (mode : ControlMode) (s : State) : State :=
  if s.state = .stop ∧ mode ≠ s.mode then pidReset { s with mode := mode } else s

def execSetMode (mode : ControlMode) (s : State) : Result := whenReady s (.next (modeCommand mode s))

/-- SET_DIRECTION d (R249): only in Stop. -/
def directionCommand (dir : Direction) (s : State) : State :=
  if s.state = .stop then { s with dir := dir } else s

def execSetDirection (dir : Direction) (s : State) : Result := whenReady s (.next (directionCommand dir s))

end Sys2Proof.Machine
end

