-- ==== Sys2Proof/Machine/Commutation.lean ====
section
/-! DEFINITION. The CommutationEngine (41_commutation.md) and APPLY, the last step of LOOP (46_tick_pipeline.md R223). -/

namespace Sys2Proof.Machine

/-- What COMMUTATE answers (R120): a pattern, or HallError and no pattern. -/
inductive Commutation where
  | pattern (p : PhasePattern)
  | hallError
deriving DecidableEq, Repr

/-- The half of COMM_TABLE a direction selects (10_state.md R34). -/
def commRow (t : CommTable) (d : Direction) : Vector PhasePattern 6 :=
  match d with
  | .cw => t.cw
  | .ccw => t.ccw

/-- COMMUTATE(h, d) (R120): a read of the table, defined for sectors 1 to 6 only. -/
def commutate (t : CommTable) (h : HallSector) (d : Direction) : Commutation :=
  if hv : 1 ≤ h.toNat ∧ h.toNat ≤ 6 then
    .pattern ((commRow t d)[h.toNat - 1]'(Nat.sub_one_lt_of_le hv.1 hv.2))
  else .hallError

/-- `clamp(d, 0, 1000)` in the 10 bits of the duty register (R223; 00_scope.md R13). -/
def dutyWord (d : Int) : BitVec 10 := BitVec.ofNat 10 (max 0 (min d 1000)).toNat

/-- APPLY(d, p) (46_tick_pipeline.md R223): the clamped duty and the pattern go to the ports. For HallError the caller
"must not energize any phase" (R120), so the outputs go off; LOOP never comes here with one (R226; log 8). -/
def applyOutputs (d : Int) (p : Commutation) (s : State) : State :=
  match p with
  | .pattern x => { s with duty := dutyWord d, outPhase := x, outEn := true }
  | .hallError => outputsOff s

end Sys2Proof.Machine
end

