-- ==== Sys2Proof/Machine/SpeedEstimator.lean ====
section
/-! DEFINITION. The SpeedEstimator: step 2 of every LOOP, in every MotorState (42_speed_estimator.md). -/

namespace Sys2Proof.Machine

/-- The arithmetic of this LOOP. -/
def arithOf (s : State) : Arith := { model := s.cfg.numModel, draw := s.draws }

/-- K_RPM / period (R142). The period counts ticks and enters the division as the exact integer it is (R16). A period
of zero, which a finite TICK_W allows (70_reset_and_hazards.md R310), has no stated rate: a free value, held to the
sign that R42 gives `rpm` (log 5). -/
def rate (a : Arith) (kRpm : Quantity) (period : Int) : Quantity :=
  (if period = 0 then none else roundIn a.model (kRpm / (period : Quantity))).getD (magnitude (a.free .rate))

/-- What a Hall transition writes (R140, R142, R143). -/
def recordTransition (hall : HallSector) (s : State) : State :=
  { s with
    rpm := if s.hasPrior then rate (arithOf s) s.cfg.kRpm (elapsed s.cfg s.tick s.lastTs) else 0
    lastTs := s.tick
    lastSector := hall
    hasPrior := true }

/-- The transition update of EST; without a transition everything is held (R141, R145). -/
def estTransition (hall : HallSector) (s : State) : State :=
  if transFlag hall s.lastSector then recordTransition hall s else s

/-- EST (R140): the transition update, then the stall test on the timestamp after it (R144). -/
def estimate (hall : HallSector) (s : State) : State × Bool :=
  let s' := estTransition hall s
  if stallFlag s'.cfg s'.state s'.tick s'.lastTs then ({ s' with rpm := 0 }, true) else (s', false)

end Sys2Proof.Machine
end

