-- ==== Sys2Proof/Machine/CurrentLimiter.lean ====
section
/-! DEFINITION. The CurrentLimiter: step 6 of LOOP, and the torque current reference (44_current_limiter.md). -/

namespace Sys2Proof.Machine

/-- What LIMIT answers: its overcurrent signal and the duty. -/
structure LimitResult where
  oc : Bool
  duty : Int
deriving DecidableEq, Repr

/-- (d_in · (hard − I)) / (hard − soft), each operation rounded, in this order (R180, R182). -/
def foldback (a : Arith) (dIn : Int) (i soft hard : Quantity) : Quantity :=
  a.div .foldback (a.mul .scaledDuty (dIn : Quantity) (a.sub .headroom hard i)) (a.sub .span hard soft)

/-- The duty of the foldback zone (R182), held to the corner cases that R180 takes from R185 under every NUM_MODEL: d_in
at I = soft, and otherwise QUANTIZE of the foldback held to 0..d_in. Under Exact neither changes anything. DESIGN CHOICE
(log 20): under a Binary NUM_MODEL the rounded evaluation of R180 alone can miss R185 (or overflow), and R185 is followed
there. -/
def foldbackDuty (a : Arith) (q : Quantizer) (dIn : Int) (i soft hard : Quantity) : Int :=
  if i = soft then dIn else max 0 (min (quantize a .foldbackQuantize q (foldback a dIn i soft hard)) dIn)

/-- LIMIT(d_in, I, soft, hard) (R180 to R183, R185). -/
def limit (a : Arith) (q : Quantizer) (dIn : Int) (i soft hard : Quantity) : LimitResult :=
  if overcurrentFlag i hard then { oc := true, duty := 0 }
  else if soft ≤ i then { oc := false, duty := foldbackDuty a q dIn i soft hard }
  else { oc := false, duty := dIn }

/-- The soft threshold of Torque mode: the torque percent as a current reference, at most SOFT_LIMIT (R184). -/
def torqueSoft (a : Arith) (c : Config) (percent : BitVec 7) : Quantity :=
  min c.softLimit (a.mul .torqueReference (a.div .torqueFraction (percent.toNat : Quantity) 100) c.torqueFullScale)

end Sys2Proof.Machine
end

