-- ==== Sys2Proof/Machine/FaultMonitor.lean ====
section
/-! DEFINITION. The FaultMonitor (60_exceptions.md section 1): detection, in the priority order of R274. -/

namespace Sys2Proof.Machine

/-- DETECT (R271). -/
def detect (c : Config) (m : Meas) (stall : Bool) : FaultCode :=
  if c.hardLimit ≤ m.i then .overcurrent
  else if c.ovLimit ≤ m.v then .overvoltage
  else if m.v ≤ c.uvLimit then .undervoltage
  else if c.otLimit ≤ m.t then .overtemp
  else if validFlag m.hall = false then .hallError
  else if stall then .stall
  else .none

/-- Enter Fault with a detected code; None enters nothing (46_tick_pipeline.md R220, step 2). -/
def enterIfDetected (c : FaultCode) (s : State) : State :=
  match c with
  | .none => s
  | .overcurrent | .overvoltage | .undervoltage | .overtemp | .hallError | .stall => faultEntry c s

/-- Step 2b of LOOP: evaluated in Starting and Running only (R272). -/
def monitor (m : Meas) (stall : Bool) (s : State) : State :=
  match s.state with
  | .starting | .running => enterIfDetected (detect s.cfg m stall) s
  | .stop | .fault => s

end Sys2Proof.Machine
end

