-- ==== Sys2Proof/Machine/SpeedController.lean ====
section
/-! DEFINITION. The SpeedController: one PID step in the order the pseudocode writes it (43_speed_controller.md). -/

namespace Sys2Proof.Machine

/-- AW: the integral nearest to `x` whose term KI · i lies within the output bounds (R162). Under a Binary NUM_MODEL
the bounds are the rounded quotients of the pseudocode. DESIGN CHOICE (log 21) where a quotient has no finite value: a
bound that lies beyond every Num limits nothing, and where the bound nearer to zero does, no Num meets R162 and the
integral is a free value of KI's sign. -/
def antiWindup (a : Arith) (c : Config) (x : Quantity) : Quantity :=
  if 0 < c.ki then
    match roundIn a.model (c.outMin / c.ki), roundIn a.model (c.outMax / c.ki) with
    | some lo, some hi => clamp x lo hi
    | some lo, none => max x lo
    | none, _ => magnitude (a.free .boundedIntegral)
  else if c.ki < 0 then
    match roundIn a.model (c.outMax / c.ki), roundIn a.model (c.outMin / c.ki) with
    | some lo, some hi => clamp x lo hi
    | none, some hi => min x hi
    | _, none => -magnitude (a.free .boundedIntegral)
  else x

/-- The new integral (R162). -/
def pidIntegralStep (a : Arith) (c : Config) (integral e : Quantity) : Quantity :=
  antiWindup a c (a.add .rawIntegral integral (a.mul .errorStep e c.dt))

/-- The derivative (R163). -/
def pidDerivative (a : Arith) (c : Config) (prevError e : Quantity) : Quantity :=
  a.div .derivative (a.sub .errorChange e prevError) c.dt

/-- The weighted sum `u` (R164). -/
def pidOutput (a : Arith) (c : Config) (e i d : Quantity) : Quantity :=
  a.add .output (a.add .partialSum (a.mul .proportionalTerm c.kp e) (a.mul .integralTerm c.ki i))
    (a.mul .derivativeTerm c.kd d)

/-- PID(target, current) (R160): the registers after it, and the integer duty target (R165). -/
def pidStep (target current : Quantity) (s : State) : State × Int :=
  let a := arithOf s
  let e := a.sub .error target current
  let i := pidIntegralStep a s.cfg s.pidIntegral e
  let d := pidDerivative a s.cfg s.pidPrevError e
  let y := clamp (pidOutput a s.cfg e i d) s.cfg.outMin s.cfg.outMax
  ({ s with pidIntegral := i, pidPrevError := e }, quantize a .pidQuantize s.cfg.quantize y)

end Sys2Proof.Machine
end

