-- ==== Sys2Proof/Machine/Loop.lean ====
section
/-! DEFINITION. LOOP, the control tick: the seven steps over one sample (46_tick_pipeline.md R220). -/

namespace Sys2Proof.Machine

/-- Step 1: the tick counter advances before the estimator runs (R221). The model's own draw counter advances with
it. -/
def advanceTick (s : State) : State := { s with tick := nextTick s.cfg s.tick, draws := s.draws + 1 }

/-- Steps 1 and 2: tick, estimator, FaultMonitor. -/
def senseAndMonitor (m : Meas) (s : State) : State :=
  let e := estimate m.hall (advanceTick s)
  monitor m e.2 e.1

/-- Steps 6 and 7: limit the duty target, commutate, apply (R220, R223). -/
def drive (m : Meas) (target : Int) (soft : Quantity) (s : State) : State :=
  applyOutputs (limit (arithOf s) s.cfg.quantize target m.i soft s.cfg.hardLimit).duty
    (commutate s.cfg.commTable m.hall s.dir) s

/-- STARTING_STEP (45_state_machine.md R202), and steps 6 and 7 after it unless the ramp timed out: promotion is
tested before the timeout, and the promoting LOOP still applies the ramp duty. -/
def startingTick (m : Meas) (s : State) : State :=
  let s' := { s with rampTicks := s.rampTicks + 1 }
  let target : Int := rampDutyAt s.cfg.rampDuty s'.rampTicks
  if s.cfg.minRunRpm < s.rpm then drive m target s.cfg.softLimit { s' with state := .running }
  else if s.cfg.rampTimeoutTicks ≤ s'.rampTicks then faultEntry .stall s'
  else drive m target s.cfg.softLimit s'

/-- RUN_TARGET (R222), and steps 6 and 7 after it. -/
def runningTick (m : Meas) (s : State) : State :=
  match s.mode with
  | .openLoop => drive m s.cfg.openLoopDuty s.cfg.softLimit s
  | .speed =>
    let p := pidStep s.targetSpeed s.rpm s
    drive m p.2 s.cfg.softLimit p.1
  | .torque => drive m (10 * s.targetTorque.toNat : Nat) (torqueSoft (arithOf s) s.cfg s.targetTorque) s

/-- Steps 3 to 7, on the state after step 2: exactly one branch runs (R224, R225). -/
def control (m : Meas) (s : State) : State :=
  match s.state with
  | .stop | .fault => outputsOff s
  | .starting => startingTick m s
  | .running => runningTick m s

/-- One whole tick over one sample. -/
def tickPipeline (m : Meas) (s : State) : State := control m (senseAndMonitor m s)

/-- LOOP (R220). -/
def execLoop (s : State) : Result := whenReady s (withSample s fun m => .next (tickPipeline m s))

end Sys2Proof.Machine
end

