-- ==== Sys2Proof/Machine/Dispatch.lean ====
section
/-! DEFINITION. One arm per command, each one call of its meaning. -/

namespace Sys2Proof.Machine

def exec (i : Instr) (s : State) : Host.Outcome State Fault Refusal :=
  match i with
  | .init => Sys2Proof.Machine.execInit s
  | .start => Sys2Proof.Machine.execStart s
  | .stop => Sys2Proof.Machine.execStop s
  | .setSpeed rpm => Sys2Proof.Machine.execSetSpeed rpm s
  | .setTorque percent => Sys2Proof.Machine.execSetTorque percent s
  | .faultHandler code => Sys2Proof.Machine.execFaultHandler code s
  | .getFault => Sys2Proof.Machine.execGetFault s
  | .clearFault => Sys2Proof.Machine.execClearFault s
  | .loop => Sys2Proof.Machine.execLoop s
  | .setMode mode => Sys2Proof.Machine.execSetMode mode s
  | .setDirection dir => Sys2Proof.Machine.execSetDirection dir s

end Sys2Proof.Machine
end

