-- ==== Sys2Proof/Machine/Fetch.lean ====
section
/-! DEFINITION. How a command reaches the block: the command port and the input ports (30_encoding.md R90). -/

namespace Sys2Proof.Machine

/-- The block takes the presented command: it leaves the queue, and the input ports stand as presented with it. -/
def accept (p : Presented) (rest : List Presented) (s : State) : State := { s with pending := rest, ports := p.samples }

/-- The refusal of a word that spells no command (R102, R290). -/
def refusalOf (e : DecodeError) : Refusal :=
  match e with
  | .reservedOpcode => .reservedOpcode
  | .reservedOperand => .reservedOperand

/-- A queue whose first presented word is `cmd`: it takes the place of the word that stood there; in an empty queue it
is presented with the samples `ports`. -/
def placeWord (cmd : CommandWord) (ports : Samples) (queue : List Presented) : List Presented :=
  match queue with
  | [] => [{ cmd := cmd, samples := ports }]
  | p :: rest => { cmd := cmd, samples := p.samples } :: rest

end Sys2Proof.Machine
end

