-- ==== Sys2Proof/Machine/Step.lean ====
section
/-! DEFINITION. One step of the machine: the next presented command, decoded and executed (20_memory.md R72). -/

namespace Sys2Proof.Machine

/-- A configuration that violates its constraints is refused before the first command (60_exceptions.md R290). With no
command presented nothing happens: the block "acts only when a command arrives" (R289; log 9). A word that spells no
command is refused (R251). -/
def step (s : State) : Host.Outcome State Fault Refusal :=
  if configOk s.cfg = false then .refused .invalidConfig
  else
    match s.pending with
    | [] => .next s
    | p :: rest =>
      match decode p.cmd with
      | .error e => .refused (refusalOf e)
      | .ok i => exec i (accept p rest s)

/-- `s` with the command word `w` as the next one presented, under the samples that stand there already. -/
def State.withFetchWord (s : State) (nbits w : Nat) : State :=
  { s with pending := placeWord (BitVec.ofNat 40 (w % 2 ^ nbits)) s.ports s.pending }

end Sys2Proof.Machine
end

