-- ==== Sys2Proof/Machine/Assembler.lean ====
section
/-! DEFINITION. The assembler syntax (30_encoding.md R103) and its one pseudo-instruction (R104): one line of text to what
the host presents. The samples in braces are no part of the command word; they stand beside it (R90, R103). -/

namespace Sys2Proof.Machine

/-! ### Words of a line -/

/-- The characters before a comment: "`;` starts a comment". -/
def stripComment (cs : List Char) : List Char := cs.takeWhile (fun c => c != ';')

/-- The two braces and the comma of a sample list; each is a word by itself. -/
def punctuation : List Char := [Char.ofNat 0x7B, Char.ofNat 0x7D, ',']

/-- Add a finished word to the words found so far. -/
def pushWord (word : List Char) (words : List (List Char)) : List (List Char) :=
  match word with
  | [] => words
  | _ :: _ => word :: words

/-- The words of a line, from its last character to its first. -/
def wordsFrom (cs : List Char) : List Char × List (List Char) :=
  match cs with
  | [] => ([], [])
  | c :: rest =>
    let (word, words) := wordsFrom rest
    if c == ' ' then ([], pushWord word words)
    else if punctuation.contains c then ([], [c] :: pushWord word words)
    else (c :: word, words)

/-- The words of a line, its comment left out. -/
def lineWords (line : String) : List String :=
  let (word, words) := wordsFrom (stripComment line.toList)
  (pushWord word words).map String.ofList

/-! ### Numbers -/

/-- An unsigned decimal integer, on top of the value `acc` of the digits read so far. -/
def readDigits (acc : Nat) (cs : List Char) : Option Nat :=
  match cs with
  | [] => some acc
  | c :: rest => if c.isDigit then readDigits (10 * acc + (c.toNat - 48)) rest else none

def readNat (cs : List Char) : Option Nat :=
  match cs with
  | [] => none
  | _ :: _ => readDigits 0 cs

/-- An unsigned decimal number, with or without a fraction part. -/
def readMagnitude (cs : List Char) : Option Quantity :=
  let whole := cs.takeWhile (fun c => c != '.')
  match cs.drop whole.length with
  | [] => (readNat whole).map (fun n : Nat => (n : Quantity))
  | _ :: fraction =>
    match readNat whole, readNat fraction with
    | some n, some f => some ((n : Quantity) + (f : Quantity) / ((10 ^ fraction.length : Nat) : Quantity))
    | _, _ => none

/-- The binary32 datum of a sign and a magnitude; none unless the magnitude "is exactly representable in binary32". -/
def word32Of (negative : Bool) (x : Quantity) : Option Word32 :=
  let sign : Nat := if negative then 2 ^ 31 else 0
  if x = 0 then some (BitVec.ofNat 32 sign)
  else
    let e := max (floorLog2 x) (-126)
    let m := x / pow2 (e - 23)
    if m.den = 1 ∧ e ≤ 127 then
      let biased : Nat := if m.num < 2 ^ 23 then 0 else (e + 127).toNat
      some (BitVec.ofNat 32 (sign + biased * 2 ^ 23 + m.num.toNat % 2 ^ 23))
    else none

/-- A decimal number, a minus sign allowed, as a binary32 datum. -/
def readWord32 (cs : List Char) : Option Word32 :=
  match cs with
  | '-' :: rest => (readMagnitude rest).bind (word32Of true)
  | _ => (readMagnitude cs).bind (word32Of false)

/-! ### Operands and samples -/

def faultCodeName (w : String) : Option FaultCode :=
  if w = "None" then some .none
  else if w = "Overcurrent" then some .overcurrent
  else if w = "Overvoltage" then some .overvoltage
  else if w = "Undervoltage" then some .undervoltage
  else if w = "Overtemp" then some .overtemp
  else if w = "HallError" then some .hallError
  else if w = "Stall" then some .stall
  else none

def controlModeName (w : String) : Option ControlMode :=
  if w = "OpenLoop" then some .openLoop
  else if w = "Speed" then some .speed
  else if w = "Torque" then some .torque
  else none

def directionName (w : String) : Option Direction :=
  if w = "CW" then some .cw
  else if w = "CCW" then some .ccw
  else none

/-- The text after `key` in a word that begins with it. -/
def valueAfter (key : String) (w : String) : Option (List Char) :=
  let k := key.toList
  let cs := w.toList
  if cs.take k.length = k then some (cs.drop k.length) else none

/-- `hall=<0..7>`. -/
def readHall (w : String) : Option HallSector :=
  match (valueAfter "hall=" w).bind readNat with
  | some n => if n ≤ 7 then some (BitVec.ofNat 3 n) else none
  | none => none

/-- The sample list of LOOP and CLEAR_FAULT, with its braces and commas. A measurement that binary32 does not hold is
rejected, as no port carries it (R100). -/
def readSamples (ws : List String) : Option Samples :=
  match ws with
  | [o, hall, c1, i, c2, v, c3, t, c] =>
    if [o, c1, c2, c3, c] = ([Char.ofNat 0x7B, ',', ',', ',', Char.ofNat 0x7D].map Char.toString) then
      match readHall hall, (valueAfter "i=" i).bind readWord32, (valueAfter "v=" v).bind readWord32,
        (valueAfter "t=" t).bind readWord32 with
      | some h, some i, some v, some t => some { hall := h, iMeas := i, vMeas := v, tMeas := t }
      | _, _, _, _ => none
    else none
  | _ => none

/-! ### Lines -/

/-- A command presented with samples. -/
def present (i : Instr) (p : Samples) : Presented := { cmd := encode i, samples := p }

/-- A command that samples no port; what stands on the ports is then read by nothing. -/
def presentPlain (i : Instr) : Option (List Presented) := some [present i Samples.rest]

/-- `LOOP*n` (R104): n consecutive LOOP commands with the same samples. -/
def loopTimes (n : Nat) (p : Samples) : List Presented := List.replicate n (present .loop p)

/-- A line whose first word is none of the plain mnemonics: `LOOP*n`, n ≥ 1, with its samples. -/
def assembleRepeat (w : String) (rest : List String) : Option (List Presented) :=
  match (valueAfter "LOOP*" w).bind readNat, readSamples rest with
  | some n, some p => if 1 ≤ n then some (loopTimes n p) else none
  | _, _ => none

/-- One command by its words. -/
def assembleWords (w : String) (rest : List String) : Option (List Presented) :=
  match rest with
  | [] =>
    if w = "INIT" then presentPlain .init
    else if w = "START" then presentPlain .start
    else if w = "STOP" then presentPlain .stop
    else if w = "GET_FAULT" then presentPlain .getFault
    else none
  | [x] =>
    if w = "SET_SPEED" then (readWord32 x.toList).bind (fun r => presentPlain (.setSpeed r))
    else if w = "SET_TORQUE" then
      (readNat x.toList).bind (fun n => if n ≤ 100 then presentPlain (.setTorque (BitVec.ofNat 7 n)) else none)
    else if w = "FAULT_HANDLER" then (faultCodeName x).bind (fun c => presentPlain (.faultHandler c))
    else if w = "SET_MODE" then (controlModeName x).bind (fun m => presentPlain (.setMode m))
    else if w = "SET_DIRECTION" then (directionName x).bind (fun d => presentPlain (.setDirection d))
    else none
  | _ :: _ :: _ =>
    if w = "LOOP" then (readSamples rest).map (fun p => loopTimes 1 p)
    else if w = "CLEAR_FAULT" then (readSamples rest).map (fun p => [present .clearFault p])
    else assembleRepeat w rest

/-- One line: what it presents, or none where the assembler rejects it. A line without a command presents nothing. -/
def assembleLine (line : String) : Option (List Presented) :=
  match lineWords line with
  | [] => some []
  | w :: rest => assembleWords w rest

/-- A program, one command per line. -/
def assemble (lines : List String) : Option (List Presented) :=
  match lines with
  | [] => some []
  | line :: rest =>
    match assembleLine line, assemble rest with
    | some ps, some qs => some (ps ++ qs)
    | _, _ => none

end Sys2Proof.Machine
end

