-- ==== Sys2Proof/Safety.lean ====
section
/-! DEFINITION. What claims say of a run in one word: the output ports, what an observer sees (00_scope.md R20), safe
outputs, and the invariants of the state (10_state.md section 6). -/

namespace Sys2Proof.Safety

open Sys2Proof.Machine

/-! ### The observation of a run -/

/-- The three output ports, each continuously equal to a state field (10_state.md R46). -/
structure OutputPorts where
  duty : BitVec 10
  phase : PhasePattern
  enable : Bool
deriving DecidableEq, Repr

def outputPorts (s : State) : OutputPorts := { duty := s.duty, phase := s.outPhase, enable := s.outEn }

/-- The response of the command that `s` is about to execute: GET_FAULT's word; no other command returns a value
(R51). -/
def nextResponse (s : State) : Option Word32 :=
  match s.pending with
  | [] => none
  | p :: _ =>
    match decode p.cmd with
    | .ok .getFault => some (faultResponse s.fault)
    | .ok _ => none
    | .error _ => none

/-- The state record of R30 as an observer sees it: the state with everything beside the record at rest, the model's own
draw counter included. The configuration is constant (R52). -/
def stateRecord (s : State) : State := { s with resp := 0, ports := Samples.rest, pending := [], draws := 0 }

/-- What is seen of one command: its response, and the state and the output ports after it (R20; 92_eei_decisions.md
D41). -/
structure Observation where
  response : Option Word32
  state : State
  ports : OutputPorts
deriving DecidableEq, Repr

/-- What is seen of a run: each of its commands, the first one first, and the state at its end. -/
structure RunObservation where
  commands : List Observation
  final : State
deriving DecidableEq, Repr

/-- What is seen of `k` steps from `s` (R20). A step with no command presented is no command and adds nothing (log 9). A run
with a refusal in it has no observation: it is marked refused for good (R290). -/
def observe : Nat → State → Option RunObservation
  | 0, s => some { commands := [], final := stateRecord s }
  | k + 1, s =>
    match step s with
    | .next t =>
      (observe k t).map fun o =>
        match s.pending with
        | [] => o
        | _ :: _ =>
          { o with commands :=
              { response := nextResponse s, state := stateRecord t, ports := outputPorts t } :: o.commands }
    | .fault _ => none
    | .refused _ => none

/-! ### When a command runs, and what one LOOP sees -/

/-- The configuration meets its constraints and INIT is done: every command but INIT has its effect (R250, R290). -/
def Ready (s : State) : Prop := configOk s.cfg = true ∧ s.initDone = true

/-- No measurement on the ports is infinite or NaN (10_state.md R50). -/
def FiniteSample (s : State) : Prop := samplesFinite s.ports = true

/-- `now` of the next LOOP: `tick` after its increment (46_tick_pipeline.md R221), modulo 2^TICK_W where TICK_W is finite
(10_state.md R44). -/
def now (s : State) : Nat :=
  match s.cfg.tickWidth with
  | none => s.tick + 1
  | some w => (s.tick + 1) % 2 ^ w

/-- `now − last_ts` in the next LOOP, before a transition is recorded: modulo 2^TICK_W where TICK_W is finite (10_state.md
R44). -/
def sinceTransition (s : State) : Int :=
  match s.cfg.tickWidth with
  | none => (now s : Int) - (s.lastTs : Int)
  | some w => ((now s : Int) - (s.lastTs : Int)) % (2 : Int) ^ w

/-- The sector on the port is valid (42_speed_estimator.md R141). -/
def ValidSector (s : State) : Prop := 1 ≤ s.ports.hall.toNat ∧ s.ports.hall.toNat ≤ 6

/-- The next LOOP makes a Hall transition (R141). -/
def Transition (s : State) : Prop := ValidSector s ∧ s.ports.hall ≠ s.lastSector

/-- The next LOOP raises the stall signal (R144): it starts in Running, makes no transition, and the last one is more
than STALL_TIMEOUT_TICKS ago. -/
def Stalled (s : State) : Prop :=
  s.state = .running ∧ ¬ Transition s ∧ (s.cfg.stallTimeoutTicks : Int) < sinceTransition s

/-- The sampled current, voltage and temperature (30_encoding.md R100). -/
def current (s : State) : Quantity := value32 s.ports.iMeas
def voltage (s : State) : Quantity := value32 s.ports.vMeas
def temperature (s : State) : Quantity := value32 s.ports.tMeas

/-- No fault condition holds in the next LOOP's sample (60_exceptions.md R271). -/
structure Healthy (s : State) : Prop where
  current : current s < s.cfg.hardLimit
  overvoltage : voltage s < s.cfg.ovLimit
  undervoltage : s.cfg.uvLimit < voltage s
  temperature : temperature s < s.cfg.otLimit
  sector : ValidSector s
  stall : ¬ Stalled s

/-- `t` has the outputs that the duty target `target` and the soft threshold `soft` give under the sample of `s`: the
limited duty (44_current_limiter.md R182, R183, R185), the table's pattern (41_commutation.md R120) and enable
(46_tick_pipeline.md R223). Within the foldback zone each of the four operations is rounded under NUM_MODEL (00_scope.md
R16) and the result is held to 0..target (R185, log 20); under the exact model `h`, `p`, `w` and `q` are the exact results.
The foldback formula is the spec's own D10, enabling on every such LOOP its own D23. -/
structure Drives (s t : State) (target : Int) (soft : Quantity) : Prop where
  enabled : t.outEn = true
  pattern : commutate s.cfg.commTable s.ports.hall s.dir = .pattern t.outPhase
  neverRaised : (t.duty.toNat : Int) ≤ target
  passThrough : current s ≤ soft → (t.duty.toNat : Int) = target
  foldback : soft < current s → ∀ h p w q : Quantity, roundIn s.cfg.numModel (s.cfg.hardLimit - current s) = some h →
    roundIn s.cfg.numModel ((target : Quantity) * h) = some p →
    roundIn s.cfg.numModel (s.cfg.hardLimit - soft) = some w → w ≠ 0 → roundIn s.cfg.numModel (p / w) = some q →
    (t.duty.toNat : Int) = max 0 (min (quantize { model := s.cfg.numModel, draw := s.draws + 1 } .foldbackQuantize
      s.cfg.quantize q) target)

/-! ### The values of type Num -/

/-- `x` is a finite value of the IEEE-754 binary format of `p` bits and exponents `emin` to `emax`: an integer of at most
`p` bits times a power of two within the range (00_scope.md R16; the formats are PRESUMED, log 7). -/
def InFormat (p : Nat) (emin emax : Int) (x : Quantity) : Prop :=
  ∃ m j : Int, |m| < 2 ^ p ∧ emin - ((p : Int) - 1) ≤ j ∧ j ≤ emax - ((p : Int) - 1) ∧ x = (m : Quantity) * (2 : Quantity) ^ j

/-- `x` is such a value and the last bit of its significand is 0: written with all `p` bits, or with the least exponent,
its integer is even. -/
def EvenInFormat (p : Nat) (emin emax : Int) (x : Quantity) : Prop :=
  ∃ m j : Int, |m| < 2 ^ p ∧ emin - ((p : Int) - 1) ≤ j ∧ j ≤ emax - ((p : Int) - 1) ∧ x = (m : Quantity) * (2 : Quantity) ^ j ∧
    m % 2 = 0 ∧ (2 ^ (p - 1) ≤ |m| ∨ j = emin - ((p : Int) - 1))

/-- The two binary formats, each with its NUM_MODEL: precision, least and greatest exponent. -/
def binaryFormats : List (NumModel × Nat × Int × Int) := [(.binary32, 24, -126, 127), (.binary64, 53, -1022, 1023)]

/-! ### Safe outputs -/

/-- The power stage is not driven: duty 0, no phase energised, enable 0. -/
def OutputsOff (s : State) : Prop := s.duty = 0 ∧ s.outPhase = 0 ∧ s.outEn = false

/-- No phase has its high and its low switch on at once (30_encoding.md R97: bits 0 and 1, 2 and 3, 4 and 5). -/
def NoShootThrough (p : PhasePattern) : Prop :=
  ¬ (p.getLsbD 0 = true ∧ p.getLsbD 1 = true) ∧ ¬ (p.getLsbD 2 = true ∧ p.getLsbD 3 = true)
    ∧ ¬ (p.getLsbD 4 = true ∧ p.getLsbD 5 = true)

/-- While enabled the stage drives one of the six six-step patterns; while disabled it drives nothing. -/
def OutputsLegal (s : State) : Prop :=
  (s.outEn = true → s.outPhase ∈ sixStepPatterns) ∧ (s.outEn = false → OutputsOff s)

/-! ### Invariants -/

/-- What holds of the state after INIT in every state that a run reaches. -/
structure Operational (s : State) : Prop where
  /-- R54. -/
  faultIffLatched : s.state = .fault ↔ s.fault ≠ .none
  /-- R55. -/
  pidClear : s.state ≠ .running → s.pidIntegral = 0 ∧ s.pidPrevError = 0
  /-- 46_tick_pipeline.md R224, 45_state_machine.md R203: off in Stop and Fault. -/
  idleOff : s.state = .stop ∨ s.state = .fault → OutputsOff s
  /-- 42_speed_estimator.md R147: in Running a rate has been computed. -/
  runningHasPrior : s.state = .running → s.hasPrior = true
  /-- Without a prior transition there is no rate (42_speed_estimator.md R143, R146). -/
  rpmNeedsPrior : s.hasPrior = false → s.rpm = 0
  /-- R42. -/
  rpmNonneg : 0 ≤ s.rpm
  /-- `last_ts` is an earlier tick (42_speed_estimator.md R142), while no tick wraps. -/
  clockOrder : s.cfg.tickWidth = none → s.lastTs ≤ s.tick
  /-- TICK_W bounds both tick counts (R44). -/
  clockRange : ∀ w, s.cfg.tickWidth = some w → s.tick < 2 ^ w ∧ s.lastTs < 2 ^ w

/-- The invariant of the machine: the ranges of R36, R37, R39 and R53, legal outputs, outputs off before INIT (R57),
and `Operational` after it. -/
structure Inv (s : State) : Prop where
  dutyRange : s.duty.toNat ≤ 1000
  torqueRange : s.targetTorque.toNat ≤ 100
  sectorRange : s.lastSector.toNat ≤ 6
  outputsLegal : OutputsLegal s
  offBeforeInit : s.initDone = false → OutputsOff s
  operational : s.initDone = true → Operational s

/-- Every register of type Num holds a value of that type under NUM_MODEL (00_scope.md R16). -/
def NumsHeld (s : State) : Prop :=
  holdsNum s.cfg.numModel s.targetSpeed = true ∧ holdsNum s.cfg.numModel s.rpm = true
    ∧ holdsNum s.cfg.numModel s.pidIntegral = true ∧ holdsNum s.cfg.numModel s.pidPrevError = true

end Sys2Proof.Safety
end

