-- ==== Sys2Proof/Certificates/Slice0/Obligations.lean ====
section
/-! DEFINITION. What the provers are asked to prove of the model, each cited from the numbered rules of spec/. -/

open Sys2Proof Sys2Proof.Machine Sys2Proof.Safety

/-! ### Encoding (30_encoding.md, 20_memory.md R73) -/

/-- Decoding the word of a well-formed command gives the command back, with every operand at every value. The spec's
own: decisions D2, D24, D25, D26, D30; general knowledge in R94. -/
def Obligations.DecodeOfEncodeIsTheCommand : Prop :=
  ∀ i : Instr, i.wellFormed = true → decode (encode i) = .ok i

/-- A word that decodes is the one word of its command, and the command is well formed. The spec's own: decisions D2,
D24, D25, D26, D30; general knowledge in R94. -/
def Obligations.EncodeOfDecodeIsTheWord : Prop :=
  ∀ (w : CommandWord) (i : Instr), decode w = .ok i → encode i = w ∧ i.wellFormed = true

/-- R98: the reserved opcodes are 0x00 and 0x0C to 0xFF, and a presented word with one of them is refused. The spec's
own: decisions D25, D28, D30, D40; derivation in R251. -/
def Obligations.ReservedOpcodeIsRefused : Prop :=
  ∀ w : CommandWord,
    (decode w = .error .reservedOpcode ↔ (opField w).toNat = 0 ∨ 0x0C ≤ (opField w).toNat) ∧
    ∀ (s : State) (p : Samples) (rest : List Presented),
      configOk s.cfg = true → s.pending = { cmd := w, samples := p } :: rest →
      ((opField w).toNat = 0 ∨ 0x0C ≤ (opField w).toNat) → step s = .refused .reservedOpcode

/-- R99: with a listed opcode, exactly the operands the rule lists are reserved, and a presented word with one of them
is refused. The spec's own: decisions D2, D25, D28, D30, D40; derivation in R251; general knowledge in R94. -/
def Obligations.ReservedOperandIsRefused : Prop :=
  ∀ w : CommandWord,
    (decode w = .error .reservedOperand ↔
      ((opField w).toNat ∈ [0x01, 0x02, 0x03, 0x07, 0x08, 0x09] ∧ argField w ≠ 0) ∨
      ((opField w).toNat = 0x04 ∧ (argField w).extractLsb' 23 8 = 0xFF#8) ∨
      ((opField w).toNat = 0x05 ∧ ((argField w).extractLsb' 7 25 ≠ 0 ∨ 100 < ((argField w).extractLsb' 0 7).toNat)) ∨
      ((opField w).toNat = 0x06 ∧ ((argField w).extractLsb' 3 29 ≠ 0 ∨ (argField w).extractLsb' 0 3 = 7)) ∨
      ((opField w).toNat = 0x0A ∧ ((argField w).extractLsb' 2 30 ≠ 0 ∨ (argField w).extractLsb' 0 2 = 3)) ∨
      ((opField w).toNat = 0x0B ∧ (argField w).extractLsb' 1 31 ≠ 0)) ∧
    ∀ (s : State) (p : Samples) (rest : List Presented),
      configOk s.cfg = true → s.pending = { cmd := w, samples := p } :: rest →
      decode w = .error .reservedOperand → step s = .refused .reservedOperand

/-- Words of the vectors X1, X6, X8, X12, X15, X17, X19 and X21 of 95_test_vectors.md, and of the examples of R240 to
R247, decode to the commands they stand for. -/
def Obligations.ListedWordsDecode : Prop :=
  decode 0x0100000000#40 = .ok .init ∧ decode 0x0200000000#40 = .ok .start ∧ decode 0x0300000000#40 = .ok .stop ∧
  decode 0x04453B8000#40 = .ok (.setSpeed 0x453B8000#32) ∧ decode 0x04C3FA0000#40 = .ok (.setSpeed 0xC3FA0000#32) ∧
  decode 0x0500000064#40 = .ok (.setTorque 100#7) ∧ decode 0x0600000006#40 = .ok (.faultHandler .stall) ∧
  decode 0x0700000000#40 = .ok .getFault ∧ decode 0x0800000000#40 = .ok .clearFault ∧
  decode 0x0900000000#40 = .ok .loop ∧ decode 0x0A00000002#40 = .ok (.setMode .torque) ∧
  decode 0x0B00000001#40 = .ok (.setDirection .ccw)

/-- R73: byte k of the link is `cmd[8k+7:8k]`, and the five bytes give the word back, whatever follows them. The
spec's own: decisions D34. -/
def Obligations.LinkCarriesTheWordLowByteFirst : Prop :=
  ∀ (w : CommandWord) (rest : List Byte),
    (linkBytes w).length = 5 ∧
    (∀ k, k < 5 → (linkBytes w)[k]? = some (w.extractLsb' (8 * k) 8)) ∧
    linkWord (linkBytes w ++ rest) = some (w, rest)

/-- R94's examples and corner cases: 3000, 1500, −500, both zeros, the least and the greatest finite datum. The spec's
own: decisions D2, D30; general knowledge in R94. -/
def Obligations.BinaryDatumValues : Prop :=
  value32 0x453B8000#32 = 3000 ∧ value32 0x44BB8000#32 = 1500 ∧ value32 0xC3FA0000#32 = -500 ∧
  value32 0x00000000#32 = 0 ∧ value32 0x80000000#32 = 0 ∧ value32 0x00000001#32 * 2 ^ 149 = 1 ∧
  value32 0x7F7FFFFF#32 = (2 ^ 24 - 1) * 2 ^ 104 ∧ finite32 0x7F7FFFFF#32 = true ∧ finite32 0x7F800000#32 = false ∧
  finite32 0x7FC00000#32 = false

/-- R94, R16: the value of every finite datum is a value of type Num under each numeric model, so the operand and the
samples convert exactly. The spec's own: decisions D2, D30; general knowledge in R16, R94. -/
def Obligations.BinaryDatumIsANumInEveryModel : Prop :=
  ∀ (m : NumModel) (w : Word32), finite32 w = true → holdsNum m (value32 w) = true

/-- R103, R104: a line the assembler accepts presents words of commands only, and a line whose first word is `LOOP*n`,
n in decimal digits, with a sample list that reads as `p`, presents exactly n copies of LOOP's word with `p` for n ≥
1, and is rejected for n = 0. How a line splits into words is the model's own (log 14). The spec's own: decisions D25.
-/
def Obligations.AssemblerPresentsCommandWords : Prop :=
  (∀ (line : String) (ps : List Presented), assembleLine line = some ps →
    ∀ p ∈ ps, ∃ i : Instr, decode p.cmd = .ok i ∧ p.cmd = encode i) ∧
  (∀ (line : String) (digits : List Char) (n : Nat) (samples : List String) (p : Samples),
    digits ≠ [] → (∀ c ∈ digits, c.isDigit = true) →
    n = digits.foldl (fun value c => 10 * value + (c.toNat - '0'.toNat)) 0 →
    lineWords line = String.ofList ("LOOP*".toList ++ digits) :: samples → readSamples samples = some p →
    (1 ≤ n → assembleLine line = some (List.replicate n { cmd := 0x0900000000#40, samples := p })) ∧
    (n = 0 → assembleLine line = none))

/-- R103: a decimal number the assembler accepts is exactly the value of the datum it writes. The spec's own:
decisions D25. -/
def Obligations.AssemblerWritesExactlyTheNumber : Prop :=
  ∀ (negative : Bool) (x : Quantity) (w : Word32), 0 ≤ x → word32Of negative x = some w →
    finite32 w = true ∧ value32 w = if negative then -x else x

/-! ### The step (20_memory.md R72, 60_exceptions.md R290) -/

/-- A presented word that decodes is executed: the step is `exec` of its command, on the state in which the word has
left the queue and the input ports stand as presented with it. The spec's own: decisions D1, D25. -/
def Obligations.StepRunsThePresentedCommand : Prop :=
  ∀ (s : State) (p : Presented) (rest : List Presented) (i : Instr),
    configOk s.cfg = true → s.pending = p :: rest → decode p.cmd = .ok i →
    step s = exec i { s with pending := rest, ports := p.samples }

/-- With no command presented a step changes nothing. The model's choice (assumption log 9): the spec's block "acts
only when a command arrives" (R289). The spec's own: decisions D33. -/
def Obligations.StepWithoutCommandChangesNothing : Prop :=
  ∀ s : State, configOk s.cfg = true → s.pending = [] → step s = .next s

/-- R290: under a configuration that violates a constraint nothing runs. The spec's own: decisions D28, D30, D40. -/
def Obligations.InvalidConfigIsRefused : Prop :=
  ∀ (s : State) (i : Instr), configOk s.cfg = false →
    step s = .refused .invalidConfig ∧ exec i s = .refused .invalidConfig

/-- R250: before INIT every other command is refused; R240: after INIT, INIT is refused. The spec's own: decisions
D28, D30, D40. -/
def Obligations.CommandsBeforeInitAreRefused : Prop :=
  ∀ (s : State) (i : Instr), configOk s.cfg = true →
    (s.initDone = false → i ≠ .init → exec i s = .refused .notInitialised) ∧
    (s.initDone = true → exec .init s = .refused .alreadyInitialised)

/-- R50, R290: LOOP and CLEAR_FAULT are refused on an infinite or NaN measurement. R50 speaks of a Binary NUM_MODEL;
under Exact the statement rests on 30_encoding.md R100, by which each port carries a binary32 word (log 12, DEDUCED).
The spec's own: decisions D2, D18, D28, D30, D40. -/
def Obligations.NonFiniteSampleIsRefused : Prop :=
  ∀ s : State, Ready s → ¬ FiniteSample s →
    exec .loop s = .refused .nonFiniteSample ∧ exec .clearFault s = .refused .nonFiniteSample

/-- R309: after INIT every command but INIT finishes in one step, with a finite sample where it samples. -/
def Obligations.EveryReadyCommandCompletes : Prop :=
  ∀ (i : Instr) (s : State), Ready s → i ≠ .init → ((i = .loop ∨ i = .clearFault) → FiniteSample s) →
    ∃ t, exec i s = .next t

/-! ### Configuration (00_scope.md section 3) -/

/-- The check of a configuration says exactly the constraints of R7 to R12 and R121, over the model's forms of
RAMP_DUTY (log 3) and of QUANTIZE (log 4, and log 19 for 500.01 under a Binary NUM_MODEL); that every parameter of
type Num is a value of NUM_MODEL is the model's reading of R16 (log 17, DEDUCED). The spec's own: decisions D2, D3,
D5, D9, D12, D13, D17, D18; derivation in R121; general knowledge in R16. -/
def Obligations.ConfigCheckSaysTheConstraints : Prop :=
  ∀ c : Config, configOk c = true ↔
    (0 < c.dt ∧ 0 < c.kRpm ∧ 1 ≤ c.rampTimeoutTicks ∧ 0 ≤ c.minRunRpm) ∧
    (0 ≤ c.outMin ∧ c.outMin ≤ c.outMax ∧ c.outMax ≤ 1000) ∧
    (c.softLimit < c.hardLimit ∧ c.uvLimit < c.ovLimit) ∧
    ((∀ n, 1 ≤ n → rampDutyAt c.rampDuty n ≤ 1000) ∧ c.openLoopDuty ≤ 1000 ∧ 0 < c.torqueFullScale) ∧
    (∀ d : Direction,
      (∀ h : HallSector, 1 ≤ h.toNat → h.toNat ≤ 6 →
        ∃ p ∈ sixStepPatterns, commutate c.commTable h d = .pattern p) ∧
      (∀ h h' : HallSector, 1 ≤ h.toNat → h.toNat ≤ 6 →
        commutate c.commTable h d = commutate c.commTable h' d → h = h')) ∧
    (∀ a site, quantize a site c.quantize (50001 / 100) = 500) ∧
    (∀ x ∈ [c.dt, c.kRpm, c.minRunRpm, c.kp, c.ki, c.kd, c.outMin, c.outMax, c.softLimit, c.hardLimit, c.ovLimit,
      c.uvLimit, c.otLimit, c.torqueFullScale], holdsNum c.numModel x = true)

/-- R12: on [0, 1000] every quantizer is monotone, maps each integer to itself, and answers a duty; the default,
floor, is the greatest integer not above its argument. A quantizer other than floor has the form of log 4. The spec's
own: decisions D2, D3, D9. -/
def Obligations.QuantizerIsMonotoneAndFixesIntegers : Prop :=
  ∀ (a : Arith) (site : OpSite) (q : Quantizer),
    (∀ x y : Quantity, 0 ≤ x → x ≤ y → y ≤ 1000 → quantize a site q x ≤ quantize a site q y) ∧
    (∀ n : Nat, n ≤ 1000 → quantize a site q (n : Quantity) = n) ∧
    (∀ x : Quantity, 0 ≤ x → x ≤ 1000 → 0 ≤ quantize a site q x ∧ quantize a site q x ≤ 1000) ∧
    (∀ x : Quantity, (quantize a site .floor x : Quantity) ≤ x ∧
      ∀ n : Int, (n : Quantity) ≤ x → n ≤ quantize a site .floor x)

/-- R52: no step changes the configuration. The spec's own: decisions D40. -/
def Obligations.ConfigurationIsConstant : Prop :=
  ∀ s t : State, step s = .next t → t.cfg = s.cfg

/-! ### Arithmetic (00_scope.md R16) -/

/-- R16: whatever the operands, an operation answers a value of type Num under the numeric model. The spec's own:
decisions D2; general knowledge in R16. -/
def Obligations.OperationsAnswerNums : Prop :=
  ∀ (a : Arith) (site : OpSite) (x y : Quantity),
    holdsNum a.model (a.add site x y) = true ∧ holdsNum a.model (a.sub site x y) = true ∧
    holdsNum a.model (a.mul site x y) = true ∧ holdsNum a.model (a.div site x y) = true

/-- R16: under the exact model an operation is exact, division by a nonzero number included. The spec's own: decisions
D2; general knowledge in R16. -/
def Obligations.ExactOperationsAreExact : Prop :=
  ∀ (n : Nat) (site : OpSite) (x y : Quantity),
    Arith.add { model := .exact, draw := n } site x y = x + y ∧ Arith.sub { model := .exact, draw := n } site x y = x - y ∧
    Arith.mul { model := .exact, draw := n } site x y = x * y ∧
    (y ≠ 0 → Arith.div { model := .exact, draw := n } site x y = x / y)

/-- R16: under Binary32 and Binary64 the values of type Num are exactly the finite values of the format; an
operation's result is a value of the format to which none is nearer, and of two nearest ones the even one; there is
none exactly at and beyond the halfway point above the greatest finite value, where IEEE-754 overflows. That the
formats are IEEE-754's is PRESUMED (log 7). The spec's own: decisions D2; general knowledge in R16. -/
def Obligations.RoundingIsToNearest : Prop :=
  ∀ (m : NumModel) (p : Nat) (emin emax : Int), (m, p, emin, emax) ∈ binaryFormats →
    (∀ z : Quantity, holdsNum m z = true ↔ InFormat p emin emax z) ∧
    (∀ x y : Quantity, roundIn m x = some y → InFormat p emin emax y ∧
      (∀ z : Quantity, InFormat p emin emax z → |x - y| ≤ |x - z|) ∧
      (∀ z : Quantity, InFormat p emin emax z → z ≠ y → |x - y| = |x - z| → EvenInFormat p emin emax y)) ∧
    (∀ x : Quantity, roundIn m x = none ↔ (2 - 1 / (2 : Quantity) ^ p) * (2 : Quantity) ^ emax ≤ |x|)

/-! ### Power-on and INIT -/

/-- R57: at power-on, under any configuration, `init_done` is false and the power stage is not driven. The spec's own:
decisions D27. -/
def Obligations.PowerOnIsUninitialisedAndOff : Prop :=
  ∀ cfg : Config, (State.powerOn cfg).initDone = false ∧ (State.powerOn cfg).outEn = false ∧
    (State.powerOn cfg).duty = 0 ∧ (State.powerOn cfg).outPhase = 0 ∧ (State.powerOn cfg).cfg = cfg

/-- R58, R240: INIT writes every field of the state record, whatever it held, and nothing else. The spec's own:
decisions D27, D28. -/
def Obligations.InitWritesTheResetValues : Prop :=
  ∀ s : State, configOk s.cfg = true → s.initDone = false →
    exec .init s = .next
      { initDone := true, state := .stop, mode := s.cfg.initMode, dir := s.cfg.initDir, targetSpeed := 0,
        targetTorque := 0, duty := 0, fault := .none, lastSector := 0, lastTs := 0, hasPrior := false, rpm := 0,
        pidIntegral := 0, pidPrevError := 0, tick := 0, rampTicks := 0, outPhase := 0, outEn := false,
        resp := s.resp, ports := s.ports, pending := s.pending, cfg := s.cfg, draws := s.draws }

/-! ### Commands (47_commands.md) -/

/-- R241, R201: START enters Starting from Stop and changes nothing elsewhere. The spec's own: decisions D6, D14, D23,
D29. -/
def Obligations.StartEntersStartingFromStopOnly : Prop :=
  ∀ s : State, Ready s →
    (s.state = .stop → exec .start s = .next
      { s with state := .starting, pidIntegral := 0, pidPrevError := 0, duty := 0, rampTicks := 0, hasPrior := false,
               rpm := 0, lastSector := 0 }) ∧
    (s.state ≠ .stop → exec .start s = .next s)

/-- R242, R203: STOP leaves Starting and Running for Stop, resetting the PID out of Running; in Stop and in Fault it
only turns the outputs off. -/
def Obligations.StopLeavesToStopExceptFromFault : Prop :=
  ∀ s : State, Ready s →
    decode 0x0300000000#40 = .ok .stop ∧
    (s.state = .running → exec .stop s = .next
      { s with state := .stop, pidIntegral := 0, pidPrevError := 0, duty := 0, outPhase := 0, outEn := false }) ∧
    (s.state = .starting → exec .stop s = .next { s with state := .stop, duty := 0, outPhase := 0, outEn := false }) ∧
    (s.state = .stop ∨ s.state = .fault → exec .stop s = .next { s with duty := 0, outPhase := 0, outEn := false })

/-- R243: SET_SPEED stores its operand's value in every state, and a word with an infinite or NaN operand is
refused. -/
def Obligations.SetSpeedStoresTheTarget : Prop :=
  ∀ (s : State) (v : Word32), Ready s →
    (finite32 v = true → decode (0x04#8 ++ v) = .ok (.setSpeed v) ∧
      exec (.setSpeed v) s = .next { s with targetSpeed := value32 v }) ∧
    (finite32 v = false → decode (0x04#8 ++ v) = .error .reservedOperand)

/-- R244: SET_TORQUE stores its percent in every state, and a percent above 100 or a nonzero upper bit is refused. -/
def Obligations.SetTorqueStoresThePercent : Prop :=
  ∀ (s : State) (p : Word32), Ready s →
    (p.toNat ≤ 100 → decode (0x05#8 ++ p) = .ok (.setTorque (p.extractLsb' 0 7)) ∧
      exec (.setTorque (p.extractLsb' 0 7)) s = .next { s with targetTorque := p.extractLsb' 0 7 }) ∧
    (100 < p.toNat → decode (0x05#8 ++ p) = .error .reservedOperand)

/-- R245, R275, R276: FAULT_HANDLER c enters Fault from every state: it latches c only where no code is latched,
resets the PID out of Running, and turns the outputs off; None changes nothing. The spec's own: decisions D20. -/
def Obligations.FaultHandlerEntersFault : Prop :=
  ∀ (s : State) (c : FaultCode), Ready s →
    (c = .none → exec (.faultHandler c) s = .next s) ∧
    (c ≠ .none → s.state = .running → exec (.faultHandler c) s = .next
      { s with state := .fault, fault := if s.fault = .none then c else s.fault, pidIntegral := 0, pidPrevError := 0,
               duty := 0, outPhase := 0, outEn := false }) ∧
    (c ≠ .none → s.state ≠ .running → exec (.faultHandler c) s = .next
      { s with state := .fault, fault := if s.fault = .none then c else s.fault, duty := 0, outPhase := 0,
               outEn := false })

/-- R246, R101: GET_FAULT drives the latched code on bits 2:0 of the response port, zeros above, and nothing else. -/
def Obligations.GetFaultRespondsWithTheLatchedCode : Prop :=
  ∀ s : State, Ready s →
    decode 0x0700000000#40 = .ok .getFault ∧
    ∃ r : Word32, exec .getFault s = .next { s with resp := r } ∧ r.extractLsb' 3 29 = 0 ∧
      r.extractLsb' 0 3 = s.fault.code

/-- R247, R280: CLEAR_FAULT leaves Fault for Stop exactly when the latched condition no longer holds in its own
sample; otherwise it changes nothing. The spec's own: decisions D21. -/
def Obligations.ClearFaultReverifiesTheLatchedCondition : Prop :=
  ∀ s : State, Ready s → FiniteSample s →
    ((s.state = .fault ∧
        ((s.fault = .overcurrent ∧ current s < s.cfg.hardLimit) ∨ (s.fault = .overvoltage ∧ voltage s < s.cfg.ovLimit) ∨
         (s.fault = .undervoltage ∧ s.cfg.uvLimit < voltage s) ∨ (s.fault = .overtemp ∧ temperature s < s.cfg.otLimit) ∨
         (s.fault = .hallError ∧ ValidSector s) ∨ s.fault = .stall)) →
      exec .clearFault s = .next
        { s with state := .stop, fault := .none, duty := 0, outPhase := 0, outEn := false }) ∧
    (¬ (s.state = .fault ∧
        ((s.fault = .overcurrent ∧ current s < s.cfg.hardLimit) ∨ (s.fault = .overvoltage ∧ voltage s < s.cfg.ovLimit) ∨
         (s.fault = .undervoltage ∧ s.cfg.uvLimit < voltage s) ∨ (s.fault = .overtemp ∧ temperature s < s.cfg.otLimit) ∨
         (s.fault = .hallError ∧ ValidSector s) ∨ s.fault = .stall)) →
      exec .clearFault s = .next s)

/-- R248: SET_MODE writes a new mode and resets the PID in Stop only; elsewhere, and for the mode already set, nothing
changes. The spec's own: decisions D24, D39. -/
def Obligations.SetModeOnlyInStop : Prop :=
  ∀ (s : State) (m : ControlMode), Ready s →
    (s.state = .stop → m ≠ s.mode →
      exec (.setMode m) s = .next { s with mode := m, pidIntegral := 0, pidPrevError := 0 }) ∧
    (s.state ≠ .stop ∨ m = s.mode → exec (.setMode m) s = .next s)

/-- R249: SET_DIRECTION writes the direction in Stop only. The spec's own: decisions D24. -/
def Obligations.SetDirectionOnlyInStop : Prop :=
  ∀ (s : State) (d : Direction), Ready s →
    (s.state = .stop → exec (.setDirection d) s = .next { s with dir := d }) ∧
    (s.state ≠ .stop → exec (.setDirection d) s = .next s)

/-! ### LOOP (46_tick_pipeline.md) -/

/-- R220: LOOP completes on every finite sample, advances the tick, and writes no field but those R30 lists for it;
the model's own draw counter counts it. The spec's own: decisions D3. -/
def Obligations.LoopCompletesWithinItsFrame : Prop :=
  ∀ s : State, Ready s → FiniteSample s →
    ∃ t, exec .loop s = .next t ∧ t.tick = now s ∧ t.draws = s.draws + 1 ∧ t.initDone = s.initDone ∧ t.mode = s.mode ∧
      t.dir = s.dir ∧ t.targetSpeed = s.targetSpeed ∧ t.targetTorque = s.targetTorque ∧ t.resp = s.resp ∧
      t.ports = s.ports ∧ t.pending = s.pending ∧ t.cfg = s.cfg ∧
      (s.state = .stop ∨ s.state = .running ∨ s.state = .fault → t.rampTicks = s.rampTicks)

/-- R140 to R145, R44: the estimator registers after a LOOP, in every MotorState and under every numeric model; `d` is
now − last_ts, modulo 2^TICK_W where TICK_W is finite. The spec's own: decisions D3, D4, D7, D43; derivation in R145;
general knowledge in R142. -/
def Obligations.LoopUpdatesTheEstimator : Prop :=
  ∀ (s : State) (d : Int), Ready s → FiniteSample s →
    (s.cfg.tickWidth = none → d = ((s.tick : Int) + 1) - (s.lastTs : Int)) →
    (∀ w, s.cfg.tickWidth = some w → d = (((s.tick : Int) + 1) % 2 ^ w - (s.lastTs : Int)) % 2 ^ w) →
    ∃ t, exec .loop s = .next t ∧
      (Transition s → t.lastTs = now s ∧ t.lastSector = s.ports.hall ∧ t.hasPrior = true) ∧
      (¬ Transition s → t.lastTs = s.lastTs ∧ t.lastSector = s.lastSector ∧ t.hasPrior = s.hasPrior) ∧
      (Transition s → s.hasPrior = false → t.rpm = 0) ∧
      (∀ r, Transition s → s.hasPrior = true → d ≠ 0 →
        roundIn s.cfg.numModel (s.cfg.kRpm / (d : Quantity)) = some r → t.rpm = r) ∧
      (s.state = .running → ¬ Transition s → (s.cfg.stallTimeoutTicks : Int) < d → t.rpm = 0) ∧
      (¬ Transition s → s.state ≠ .running ∨ d ≤ (s.cfg.stallTimeoutTicks : Int) → t.rpm = s.rpm)

/-- R224: a LOOP in Stop or Fault holds the outputs off and computes no control: no detection, no PID, no ramp. The
spec's own: decisions D16, D17, D22. -/
def Obligations.LoopInStopAndFaultHoldsOutputsOff : Prop :=
  ∀ s : State, Ready s → FiniteSample s → s.state = .stop ∨ s.state = .fault →
    ∃ t, exec .loop s = .next t ∧ OutputsOff t ∧ t.state = s.state ∧ t.fault = s.fault ∧
      t.pidIntegral = s.pidIntegral ∧ t.pidPrevError = s.pidPrevError ∧ t.rampTicks = s.rampTicks

/-- R271, R272, R274, R276: in Starting and Running, with no code latched, the first condition of the priority order
enters Fault with its code, in this same LOOP, with the PID zero out of Running and kept from Starting. The spec's
own: decisions D16, D17, D19. -/
def Obligations.LoopDetectsInPriorityOrder : Prop :=
  ∀ s : State, Ready s → FiniteSample s → s.state = .starting ∨ s.state = .running → s.fault = .none → ¬ Healthy s →
    ∃ t, exec .loop s = .next t ∧ t.state = .fault ∧ OutputsOff t ∧
      (s.cfg.hardLimit ≤ current s → t.fault = .overcurrent) ∧
      (current s < s.cfg.hardLimit → s.cfg.ovLimit ≤ voltage s → t.fault = .overvoltage) ∧
      (current s < s.cfg.hardLimit → voltage s < s.cfg.ovLimit → voltage s ≤ s.cfg.uvLimit → t.fault = .undervoltage) ∧
      (current s < s.cfg.hardLimit → voltage s < s.cfg.ovLimit → s.cfg.uvLimit < voltage s →
        s.cfg.otLimit ≤ temperature s → t.fault = .overtemp) ∧
      (current s < s.cfg.hardLimit → voltage s < s.cfg.ovLimit → s.cfg.uvLimit < voltage s →
        temperature s < s.cfg.otLimit → ¬ ValidSector s → t.fault = .hallError) ∧
      (current s < s.cfg.hardLimit → voltage s < s.cfg.ovLimit → s.cfg.uvLimit < voltage s →
        temperature s < s.cfg.otLimit → ValidSector s → t.fault = .stall) ∧
      (s.state = .running → t.pidIntegral = 0 ∧ t.pidPrevError = 0) ∧
      (s.state = .starting → t.pidIntegral = s.pidIntegral ∧ t.pidPrevError = s.pidPrevError) ∧
      t.rampTicks = s.rampTicks

/-- R202, R225: the Starting tick on a healthy sample: promotion is tested before the ramp timeout; both the promoting
LOOP and a LOOP that stays in Starting apply the ramp duty; a timed-out LOOP enters Fault(Stall). The outputs are
`Drives`: R182, R183, R185 (log 20), R120, R220, R223. The spec's own: decisions D10, D14, D15, D23; derivation in
R120, R185. -/
def Obligations.StartingTickPromotesTimesOutOrRamps : Prop :=
  ∀ s : State, Ready s → FiniteSample s → s.state = .starting → Healthy s →
    ∃ t, exec .loop s = .next t ∧ t.rampTicks = s.rampTicks + 1 ∧ t.pidIntegral = s.pidIntegral ∧
      t.pidPrevError = s.pidPrevError ∧
      (s.cfg.minRunRpm < t.rpm → t.state = .running ∧ t.fault = s.fault ∧
        Drives s t (rampDutyAt s.cfg.rampDuty (s.rampTicks + 1)) s.cfg.softLimit) ∧
      (t.rpm ≤ s.cfg.minRunRpm → s.cfg.rampTimeoutTicks ≤ s.rampTicks + 1 →
        t.state = .fault ∧ t.fault = (if s.fault = .none then .stall else s.fault) ∧ OutputsOff t) ∧
      (t.rpm ≤ s.cfg.minRunRpm → s.rampTicks + 1 < s.cfg.rampTimeoutTicks → t.state = .starting ∧ t.fault = s.fault ∧
        Drives s t (rampDutyAt s.cfg.rampDuty (s.rampTicks + 1)) s.cfg.softLimit)

/-- R160 to R165: the Running tick in Speed mode under exact arithmetic: error, clamped integral, derivative, weighted
sum, saturation and quantisation, on the speed estimate of this same LOOP. The outputs are `Drives`: R182, R183, R185
(log 20), R120, R220, R223. The spec's own: decisions D8, D9, D10, D23, D37; derivation in R162, R120, R185. -/
def Obligations.SpeedTickRunsThePid : Prop :=
  ∀ s : State, Ready s → FiniteSample s → s.state = .running → s.mode = .speed → Healthy s → s.cfg.numModel = .exact →
    ∃ t, exec .loop s = .next t ∧ t.state = .running ∧ t.fault = s.fault ∧
      t.pidPrevError = s.targetSpeed - t.rpm ∧
      (0 < s.cfg.ki → t.pidIntegral = clamp (s.pidIntegral + t.pidPrevError * s.cfg.dt)
        (s.cfg.outMin / s.cfg.ki) (s.cfg.outMax / s.cfg.ki)) ∧
      (s.cfg.ki < 0 → t.pidIntegral = clamp (s.pidIntegral + t.pidPrevError * s.cfg.dt)
        (s.cfg.outMax / s.cfg.ki) (s.cfg.outMin / s.cfg.ki)) ∧
      (s.cfg.ki = 0 → t.pidIntegral = s.pidIntegral + t.pidPrevError * s.cfg.dt) ∧
      Drives s t
        (quantize { model := .exact, draw := s.draws + 1 } .pidQuantize s.cfg.quantize
          (clamp (s.cfg.kp * t.pidPrevError + s.cfg.ki * t.pidIntegral
            + s.cfg.kd * ((t.pidPrevError - s.pidPrevError) / s.cfg.dt)) s.cfg.outMin s.cfg.outMax))
        s.cfg.softLimit

/-- R160 to R165, R16: the Running tick in Speed mode under every numeric model: each operation of the pseudocode
rounded in its order, wherever the rounded results are finite. Where OUT_MAX / KI has no finite value no Num lies
beyond it and it limits nothing (log 21, the model's choice). The outputs are `Drives`: R182, R183, R185 (log 20),
R120, R220, R223. The spec's own: decisions D2, D8, D9, D10, D23, D37; derivation in R162, R120, R185; general
knowledge in R16. -/
def Obligations.SpeedTickRoundsEachOperation : Prop :=
  ∀ s : State, Ready s → FiniteSample s → s.state = .running → s.mode = .speed → Healthy s →
    ∃ t, exec .loop s = .next t ∧ t.state = .running ∧ t.fault = s.fault ∧
      ∀ e step raw : Quantity,
        roundIn s.cfg.numModel (s.targetSpeed - t.rpm) = some e → roundIn s.cfg.numModel (e * s.cfg.dt) = some step →
        roundIn s.cfg.numModel (s.pidIntegral + step) = some raw →
        t.pidPrevError = e ∧ (s.cfg.ki = 0 → t.pidIntegral = raw) ∧
        (∀ lo hi : Quantity, roundIn s.cfg.numModel (s.cfg.outMin / s.cfg.ki) = some lo →
          roundIn s.cfg.numModel (s.cfg.outMax / s.cfg.ki) = some hi →
          (0 < s.cfg.ki → t.pidIntegral = clamp raw lo hi) ∧ (s.cfg.ki < 0 → t.pidIntegral = clamp raw hi lo)) ∧
        (∀ b : Quantity, roundIn s.cfg.numModel (s.cfg.outMin / s.cfg.ki) = some b →
          roundIn s.cfg.numModel (s.cfg.outMax / s.cfg.ki) = none →
          (0 < s.cfg.ki → t.pidIntegral = max raw b) ∧ (s.cfg.ki < 0 → t.pidIntegral = min raw b)) ∧
        ∀ change d p i k pi u : Quantity,
          roundIn s.cfg.numModel (e - s.pidPrevError) = some change →
          roundIn s.cfg.numModel (change / s.cfg.dt) = some d → roundIn s.cfg.numModel (s.cfg.kp * e) = some p →
          roundIn s.cfg.numModel (s.cfg.ki * t.pidIntegral) = some i →
          roundIn s.cfg.numModel (s.cfg.kd * d) = some k → roundIn s.cfg.numModel (p + i) = some pi →
          roundIn s.cfg.numModel (pi + k) = some u →
          Drives s t (quantize { model := s.cfg.numModel, draw := s.draws + 1 } .pidQuantize s.cfg.quantize
            (clamp u s.cfg.outMin s.cfg.outMax)) s.cfg.softLimit

/-- R162: after a Speed tick with KI ≠ 0 the integral term alone lies within the output bounds, and the stored
integral is the value nearest to the unclamped one for which it does. The spec's own: decisions D8; derivation in
R162. -/
def Obligations.AntiWindupBoundsTheIntegralTerm : Prop :=
  ∀ s : State, Ready s → FiniteSample s → s.state = .running → s.mode = .speed → Healthy s → s.cfg.numModel = .exact →
    s.cfg.ki ≠ 0 →
    ∃ t, exec .loop s = .next t ∧ s.cfg.outMin ≤ s.cfg.ki * t.pidIntegral ∧ s.cfg.ki * t.pidIntegral ≤ s.cfg.outMax ∧
      ∀ j : Quantity, s.cfg.outMin ≤ s.cfg.ki * j → s.cfg.ki * j ≤ s.cfg.outMax →
        |s.pidIntegral + t.pidPrevError * s.cfg.dt - t.pidIntegral| ≤ |s.pidIntegral + t.pidPrevError * s.cfg.dt - j|

/-- R222: the Running tick in OpenLoop mode drives the configured duty; the PID registers are not written (R167). The
outputs are `Drives`: R182, R183, R185 (log 20), R120, R220, R223. The spec's own: decisions D10, D23, D38; derivation
in R120, R185. -/
def Obligations.OpenLoopTickDrivesTheConfiguredDuty : Prop :=
  ∀ s : State, Ready s → FiniteSample s → s.state = .running → s.mode = .openLoop → Healthy s →
    ∃ t, exec .loop s = .next t ∧ t.state = .running ∧ t.fault = s.fault ∧ t.pidIntegral = s.pidIntegral ∧
      t.pidPrevError = s.pidPrevError ∧ Drives s t s.cfg.openLoopDuty s.cfg.softLimit

/-- R184: the Running tick in Torque mode: duty target 10 · percent, soft threshold the smaller of SOFT_LIMIT and
percent / 100 · TORQUE_FULL_SCALE, each operation rounded under NUM_MODEL. The percent is at most 100, as in every
state that meets the invariant. The outputs are `Drives`: R182, R183, R185 (log 20), R120, R220, R223. The spec's own:
decisions D10, D12, D23, D38; derivation in R184, R120, R185. -/
def Obligations.TorqueTickDrivesThePercent : Prop :=
  ∀ s : State, Ready s → FiniteSample s → s.state = .running → s.mode = .torque → Healthy s →
    s.targetTorque.toNat ≤ 100 →
    ∃ t, exec .loop s = .next t ∧ t.state = .running ∧ t.fault = s.fault ∧ t.pidIntegral = s.pidIntegral ∧
      t.pidPrevError = s.pidPrevError ∧
      ∀ f r : Quantity, roundIn s.cfg.numModel ((s.targetTorque.toNat : Quantity) / 100) = some f →
        roundIn s.cfg.numModel (f * s.cfg.torqueFullScale) = some r →
        Drives s t ((10 * s.targetTorque.toNat : Nat) : Int) (min s.cfg.softLimit r)

/-- R182, R183, R185: limiting never raises the duty, under every numeric model: at and below the soft threshold the
duty is unchanged; at and above the hard one it is zero and overcurrent is signalled; between them, under exact
arithmetic, it is QUANTIZE of the foldback formula. Under a Binary NUM_MODEL the range and the duty at I = soft hold
because the model follows R185 where R180's rounded evaluation alone would miss it (log 20, the model's choice). The
spec's own: decisions D10, D11; derivation in R185. -/
def Obligations.LimitNeverRaisesTheDuty : Prop :=
  ∀ (a : Arith) (q : Quantizer) (d : Nat) (i soft hard : Quantity), d ≤ 1000 → soft < hard →
    0 ≤ (limit a q d i soft hard).duty ∧ (limit a q d i soft hard).duty ≤ d ∧
    (i ≤ soft → (limit a q d i soft hard).duty = d) ∧ (hard ≤ i → (limit a q d i soft hard).duty = 0) ∧
    ((limit a q d i soft hard).oc = true ↔ hard ≤ i) ∧
    (a.model = .exact → soft ≤ i → i < hard → (limit a q d i soft hard).duty =
      quantize a .foldbackQuantize q ((d : Quantity) * (hard - i) / (hard - soft)))

/-- R120, R226: whenever a LOOP leaves the stage enabled, the sampled sector is valid and the pattern is the table's
entry for it and the direction. The spec's own: decisions D23; derivation in R120, R226. -/
def Obligations.EnabledStageFollowsTheTable : Prop :=
  ∀ s : State, Ready s → FiniteSample s →
    ∃ t, exec .loop s = .next t ∧
      (t.outEn = true → ValidSector s ∧ commutate s.cfg.commTable s.ports.hall s.dir = .pattern t.outPhase)

/-- R120, R122: the twelve entries of the default table, and HallError for the two invalid sectors. The spec's own:
decisions D31; derivation in R120, R121; general knowledge in R122. -/
def Obligations.DefaultTableEntries : Prop :=
  (∀ d, commutate CommTable.default 0#3 d = .hallError ∧ commutate CommTable.default 7#3 d = .hallError) ∧
  ([1, 2, 3, 4, 5, 6].map (fun h => commutate CommTable.default (BitVec.ofNat 3 h) .cw)
    = [0x09#6, 0x24#6, 0x21#6, 0x12#6, 0x18#6, 0x06#6].map Commutation.pattern) ∧
  ([1, 2, 3, 4, 5, 6].map (fun h => commutate CommTable.default (BitVec.ofNat 3 h) .ccw)
    = [0x06#6, 0x18#6, 0x12#6, 0x21#6, 0x24#6, 0x09#6].map Commutation.pattern) ∧
  rowOk CommTable.default.cw = true ∧ rowOk CommTable.default.ccw = true

/-! ### The whole machine -/

/-- The invariant of the machine is kept by every step, from every state that meets it (R53 to R55, R57, R39, R42,
R44, R147, R224). The spec's own: decisions D3, D4, D22, D27; derivation in R37, R42, R53, R54, R55, R147. -/
def Obligations.StepKeepsTheInvariant : Prop :=
  ∀ s t : State, Inv s → step s = .next t → Inv t

/-- Every register of type Num stays a value of that type (R16), under every numeric model. The spec's own: decisions
D2; derivation in R42; general knowledge in R16. -/
def Obligations.StepKeepsRegistersNums : Prop :=
  ∀ s t : State, NumsHeld s → step s = .next t → NumsHeld t

/-- Both invariants hold at power-on under every configuration. The spec's own: decisions D27. -/
def Obligations.PowerOnMeetsTheInvariants : Prop :=
  ∀ cfg : Config, Inv (State.powerOn cfg) ∧ NumsHeld (State.powerOn cfg)

/-- R97, R121: in every state that meets the invariant no phase has its high and its low switch on at once. The spec's
own: decisions D32; derivation in R121. -/
def Obligations.NoPhaseIsShortedInLegalStates : Prop :=
  ∀ s : State, Inv s → NoShootThrough s.outPhase

/-- R205: every change of MotorState after INIT is one of the table's. The spec's own: derivation in R205. -/
def Obligations.StateChangesAreTheTable : Prop :=
  ∀ (i : Instr) (s t : State), s.initDone = true → exec i s = .next t → t.state ≠ s.state →
    (i = .start ∧ s.state = .stop ∧ t.state = .starting) ∨
    (i = .loop ∧ s.state = .starting ∧ Healthy s ∧ s.cfg.minRunRpm < t.rpm ∧ t.state = .running) ∨
    (i = .loop ∧ s.state = .starting ∧ t.rpm ≤ s.cfg.minRunRpm ∧ s.cfg.rampTimeoutTicks ≤ s.rampTicks + 1 ∧
      t.state = .fault) ∨
    (i = .loop ∧ (s.state = .starting ∨ s.state = .running) ∧ ¬ Healthy s ∧ t.state = .fault) ∨
    (∃ c, c ≠ .none ∧ i = .faultHandler c ∧ t.state = .fault) ∨
    (i = .stop ∧ (s.state = .starting ∨ s.state = .running) ∧ t.state = .stop) ∨
    (i = .clearFault ∧ s.state = .fault ∧ safe s.cfg s.fault (samplesValue s.ports) = true ∧ t.state = .stop)

/-- R275: a latched code stays until CLEAR_FAULT succeeds: no other command changes or removes it, and a CLEAR_FAULT
that leaves Fault removes it. -/
def Obligations.FirstFaultCodeIsKept : Prop :=
  ∀ (i : Instr) (s t : State), s.initDone = true → exec i s = .next t → s.fault ≠ .none →
    (i ≠ .clearFault → t.fault = s.fault) ∧
    (i = .clearFault → t.fault = s.fault ∨ (s.state = .fault ∧ t.state = .stop ∧ t.fault = .none))

/-- R277, R281: from Fault every command but CLEAR_FAULT stays in Fault with the same code and leaves the outputs off,
and CLEAR_FAULT goes nowhere but to Stop. The spec's own: derivation in R277. -/
def Obligations.FaultIsLeftOnlyByClearFault : Prop :=
  ∀ (i : Instr) (s t : State), Inv s → s.initDone = true → s.state = .fault → exec i s = .next t →
    OutputsOff t ∧ (i ≠ .clearFault → t.state = .fault ∧ t.fault = s.fault) ∧
    (i = .clearFault → t.state = .fault ∨ t.state = .stop)

/-- R33, R34, R56: after INIT the mode and the direction change only in Stop, each by its own command. The spec's own:
decisions D24; derivation in R56. -/
def Obligations.ModeAndDirectionChangeOnlyInStop : Prop :=
  ∀ (i : Instr) (s t : State), s.initDone = true → exec i s = .next t →
    (t.mode ≠ s.mode → s.state = .stop ∧ i = .setMode t.mode) ∧
    (t.dir ≠ s.dir → s.state = .stop ∧ i = .setDirection t.dir)

/-- R44, R48: after INIT each LOOP advances the tick by one (modulo 2^TICK_W), and no other command moves it. The
spec's own: decisions D1, D3. -/
def Obligations.TickCountsLoops : Prop :=
  ∀ (i : Instr) (s t : State), s.initDone = true → exec i s = .next t →
    (i = .loop → (s.cfg.tickWidth = none → t.tick = s.tick + 1) ∧
      (∀ w, s.cfg.tickWidth = some w → t.tick = (s.tick + 1) % 2 ^ w)) ∧
    (i ≠ .loop → t.tick = s.tick)

/-- R166, R167: after INIT the PID registers change only by their reset, to zero, or in a healthy Running LOOP in
Speed mode. The spec's own: decisions D38. -/
def Obligations.PidChangesOnlyBySpeedTicksAndResets : Prop :=
  ∀ (i : Instr) (s t : State), s.initDone = true → exec i s = .next t →
    (t.pidIntegral = s.pidIntegral ∧ t.pidPrevError = s.pidPrevError) ∨
    (t.pidIntegral = 0 ∧ t.pidPrevError = 0 ∧
      ((i = .start ∧ s.state = .stop) ∨ (s.state = .running ∧ t.state ≠ .running) ∨ t.mode ≠ s.mode)) ∨
    (i = .loop ∧ s.state = .running ∧ s.mode = .speed ∧ Healthy s)

/-- R50, R51: only LOOP and CLEAR_FAULT see the input ports, only GET_FAULT drives the response port, and what an
observer reads as a step's response is the word the step leaves there. The spec's own: decisions D18, D30, D36. -/
def Obligations.PortsAreReadAndDrivenByTheirCommands : Prop :=
  (∀ (i : Instr) (s : State) (p : Samples), i ≠ .loop → i ≠ .clearFault →
    exec i { s with ports := p } =
      (match exec i s with
       | .next t => .next { t with ports := p }
       | .fault r => .fault r
       | .refused r => .refused r)) ∧
  (∀ (i : Instr) (s t : State), i ≠ .getFault → exec i s = .next t → t.resp = s.resp) ∧
  (∀ (s t : State) (r : Word32), step s = .next t → nextResponse s = some r → t.resp = r)

/-- R162, R8: after a Speed tick the stored integral is not negative where KI > 0 and not positive where KI < 0, under
every numeric model. Where no Num meets the bounds this is the range of a free value (log 21, the model's choice). The
spec's own: decisions D8; derivation in R162. -/
def Obligations.IntegralNeverOpposesItsGain : Prop :=
  ∀ s : State, Ready s → FiniteSample s → s.state = .running → s.mode = .speed → Healthy s →
    ∃ t, exec .loop s = .next t ∧ (0 < s.cfg.ki → 0 ≤ t.pidIntegral) ∧ (s.cfg.ki < 0 → t.pidIntegral ≤ 0)

/-- R20: the observation of a run has one entry for each command executed, in order, and none for a step without a
command (log 9): the response of the command, the state after it and the output ports, which are that state's; and it
has the state after the last command. The spec's own: decisions D23, D36, D41. -/
def Obligations.ObservationHoldsEachCommandAndTheEnd : Prop :=
  ∀ (k : Nat) (s : State) (o : RunObservation), observe k s = some o →
    o.commands.length = min k s.pending.length ∧
    (∀ e, o.commands.getLast? = some e → e.state = o.final) ∧ (o.commands = [] → o.final = stateRecord s) ∧
    (∀ e ∈ o.commands, e.ports = outputPorts e.state ∧ e.state.cfg = s.cfg) ∧
    (∀ t, 0 < k → s.pending ≠ [] → step s = .next t →
      o.commands.head? = some { response := nextResponse s, state := stateRecord t, ports := outputPorts t } ∧
      ∃ o', observe (k - 1) t = some o' ∧ o.commands.tail = o'.commands ∧ o.final = o'.final)
end

