-- ==== Sys2Proof/Laws/Decode.lean ====
section
/-! SUPPORT. What the decoder and the encoder do, one lemma per field of the command word and per operand form
(30_encoding.md). -/

namespace Sys2Proof

/-! ### The two fields of a command word (R90) -/

theorem opField_append (o : BitVec 8) (a : Word32) : opField (o ++ a) = o := by
  apply BitVec.eq_of_getLsbD_eq
  intro i hi
  have : (o ++ a).getLsbD (32 + i) = o.getLsbD i := by
    rw [BitVec.getLsbD_append]; simp
  rw [opField, BitVec.getLsbD_extractLsb', this]; simp [hi]

theorem argField_append (o : BitVec 8) (a : Word32) : argField (o ++ a) = a := by
  apply BitVec.eq_of_getLsbD_eq
  intro i hi
  have : (o ++ a).getLsbD i = a.getLsbD i := by
    rw [BitVec.getLsbD_append]; simp [hi]
  rw [argField, BitVec.getLsbD_extractLsb', Nat.zero_add, this]; simp [hi]

theorem fields_append (w : CommandWord) : opField w ++ argField w = w := by
  apply BitVec.eq_of_getLsbD_eq
  intro i hi
  have e : (opField w ++ argField w).getLsbD i =
      if i < 32 then (argField w).getLsbD i else (opField w).getLsbD (i - 32) := by
    rw [BitVec.getLsbD_append]
  refine e.trans ?_
  split
  · rename_i h; simp [argField, h]
  · rename_i h
    have h8 : i - 32 < 8 := by omega
    have h32 : 32 + (i - 32) = i := by omega
    simp [opField, h8, h32]

@[simp] theorem opField_encode (i : Instr) : opField (encode i) = i.opcode := opField_append _ _

@[simp] theorem argField_encode (i : Instr) : argField (encode i) = i.operand := argField_append _ _

/-- An opcode field is known by its number. -/
theorem opField_of_toNat {w : CommandWord} {n : Nat} (h : (opField w).toNat = n) : opField w = BitVec.ofNat 8 n := by
  rw [← h, BitVec.ofNat_toNat, BitVec.setWidth_eq]

/-! ### The value encodings (R96) -/

@[simp] theorem ControlMode.ofCode_code (m : ControlMode) : ControlMode.ofCode m.code.toNat = some m := by
  cases m <;> rfl

@[simp] theorem Direction.ofCode_code (d : Direction) : Direction.ofCode d.code.toNat = some d := by cases d <;> rfl

@[simp] theorem FaultCode.ofCode_code (c : FaultCode) : FaultCode.ofCode c.code.toNat = some c := by cases c <;> rfl

theorem ControlMode.code_of_ofCode {b : BitVec 2} {m : ControlMode} :
    ControlMode.ofCode b.toNat = some m → m.code = b := by revert b m; decide

theorem Direction.code_of_ofCode {b : BitVec 1} {d : Direction} :
    Direction.ofCode b.toNat = some d → d.code = b := by revert b d; decide

theorem FaultCode.code_of_ofCode {b : BitVec 3} {c : FaultCode} :
    FaultCode.ofCode b.toNat = some c → c.code = b := by revert b c; decide

theorem ControlMode.ofCode_eq_none (b : BitVec 2) : ControlMode.ofCode b.toNat = Option.none ↔ b = 3 := by
  revert b; decide

theorem Direction.ofCode_ne_none (b : BitVec 1) : Direction.ofCode b.toNat ≠ Option.none := by revert b; decide

theorem FaultCode.ofCode_eq_none (b : BitVec 3) : FaultCode.ofCode b.toNat = Option.none ↔ b = 7 := by
  revert b; decide

/-! ### The operand forms (R93 to R95) -/

/-- Extending a small operand with zeros and taking it back. -/
theorem extract_zeroExtend {n : Nat} (hn : n ≤ 32) (b : BitVec n) :
    (b.zeroExtend 32).extractLsb' n (32 - n) = 0 ∧ (b.zeroExtend 32).extractLsb' 0 n = b := by
  constructor <;> apply BitVec.eq_of_getLsbD_eq <;> intro i hi
  · simp [BitVec.getLsbD_extractLsb', BitVec.getLsbD_setWidth]
  · simp [BitVec.getLsbD_setWidth, hi]
    omega

/-- An operand whose upper bits are zero is its small operand, extended. -/
theorem zeroExtend_extract {n : Nat} (hn : n ≤ 32) (a : Word32) (h : a.extractLsb' n (32 - n) = 0) :
    (a.extractLsb' 0 n).zeroExtend 32 = a := by
  apply BitVec.eq_of_getLsbD_eq
  intro i hi
  by_cases hin : i < n
  · simp [hin, hi]
  · have hz : (a.extractLsb' n (32 - n)).getLsbD (i - n) = false := by rw [h]; simp
    have h1 : i - n < 32 - n := by omega
    have h2 : n + (i - n) = i := by omega
    rw [BitVec.getLsbD_extractLsb', h2] at hz
    simp only [h1, decide_true, Bool.true_and] at hz
    simp [BitVec.getLsbD_extractLsb', BitVec.getLsbD_setWidth, hin, hz]

theorem decodeZ_eq_ok {i j : Instr} {a : Word32} : decodeZ i a = .ok j ↔ j = i ∧ a = 0 := by
  unfold decodeZ
  split
  · rename_i h; simp only [Except.ok.injEq, h, and_true]; exact eq_comm
  · rename_i h; simp only [reduceCtorEq, h, and_false]

theorem decodeF32_eq_ok {a : Word32} {j : Instr} : decodeF32 a = .ok j ↔ j = .setSpeed a ∧ finite32 a = true := by
  unfold decodeF32
  split
  · rename_i h; simp only [Except.ok.injEq, h, and_true]; exact eq_comm
  · rename_i h; simp only [reduceCtorEq, h, and_false]

theorem decodeP7_eq_ok {a : Word32} {j : Instr} :
    decodeP7 a = .ok j ↔
      j = .setTorque (a.extractLsb' 0 7) ∧ a.extractLsb' 7 25 = 0 ∧ (a.extractLsb' 0 7).toNat ≤ 100 := by
  unfold decodeP7
  split
  · rename_i h; simp only [Except.ok.injEq, h, and_self, and_true]; exact eq_comm
  · rename_i h; simp only [reduceCtorEq, h, and_false]

theorem decodeC3_eq_ok {a : Word32} {j : Instr} :
    decodeC3 a = .ok j ↔ ∃ c, j = .faultHandler c ∧ a.extractLsb' 3 29 = 0 ∧
      FaultCode.ofCode (a.extractLsb' 0 3).toNat = some c := by
  unfold decodeC3
  split
  · rename_i h
    split
    · rename_i x hx
      refine ⟨fun e => ⟨x, (Except.ok.inj e).symm, h, hx⟩, ?_⟩
      rintro ⟨y, rfl, -, hy⟩
      rw [Option.some.inj (hx.symm.trans hy)]
    · rename_i hx
      refine ⟨nofun, ?_⟩
      rintro ⟨y, -, -, hy⟩
      exact absurd (hx.symm.trans hy) nofun
  · rename_i h
    refine ⟨nofun, ?_⟩
    rintro ⟨y, -, hz, -⟩
    exact absurd hz h

theorem decodeM2_eq_ok {a : Word32} {j : Instr} :
    decodeM2 a = .ok j ↔ ∃ m, j = .setMode m ∧ a.extractLsb' 2 30 = 0 ∧
      ControlMode.ofCode (a.extractLsb' 0 2).toNat = some m := by
  unfold decodeM2
  split
  · rename_i h
    split
    · rename_i x hx
      refine ⟨fun e => ⟨x, (Except.ok.inj e).symm, h, hx⟩, ?_⟩
      rintro ⟨y, rfl, -, hy⟩
      rw [Option.some.inj (hx.symm.trans hy)]
    · rename_i hx
      refine ⟨nofun, ?_⟩
      rintro ⟨y, -, -, hy⟩
      exact absurd (hx.symm.trans hy) nofun
  · rename_i h
    refine ⟨nofun, ?_⟩
    rintro ⟨y, -, hz, -⟩
    exact absurd hz h

theorem decodeD1_eq_ok {a : Word32} {j : Instr} :
    decodeD1 a = .ok j ↔ ∃ d, j = .setDirection d ∧ a.extractLsb' 1 31 = 0 ∧
      Direction.ofCode (a.extractLsb' 0 1).toNat = some d := by
  unfold decodeD1
  split
  · rename_i h
    split
    · rename_i x hx
      refine ⟨fun e => ⟨x, (Except.ok.inj e).symm, h, hx⟩, ?_⟩
      rintro ⟨y, rfl, -, hy⟩
      rw [Option.some.inj (hx.symm.trans hy)]
    · rename_i hx
      refine ⟨nofun, ?_⟩
      rintro ⟨y, -, -, hy⟩
      exact absurd (hx.symm.trans hy) nofun
  · rename_i h
    refine ⟨nofun, ?_⟩
    rintro ⟨y, -, hz, -⟩
    exact absurd hz h

end Sys2Proof
end

