-- ==== Sys2Proof/Laws/Num.lean ====
section
/-! SUPPORT. The arithmetic of type Num: powers of two, rounding, and what the operations of `Arith` answer
(00_scope.md R16, 30_encoding.md R94). -/

namespace Sys2Proof.Machine

/-! ### Powers of two and the binary logarithm -/

theorem pow2_eq_zpow (k : Int) : pow2 k = (2 : Quantity) ^ k := by
  cases k with
  | ofNat n => simp [pow2]
  | negSucc n => simp [pow2, zpow_negSucc]

theorem pow2_pos (k : Int) : 0 < pow2 k := by rw [pow2_eq_zpow]; positivity

theorem pow2_add (j k : Int) : pow2 (j + k) = pow2 j * pow2 k := by
  simp only [pow2_eq_zpow]; exact zpow_add₀ (by norm_num) j k

theorem pow2_le_iff {j k : Int} : pow2 j ≤ pow2 k ↔ j ≤ k := by
  simp only [pow2_eq_zpow]; exact zpow_le_zpow_iff_right₀ (by norm_num)

theorem pow2_lt_iff {j k : Int} : pow2 j < pow2 k ↔ j < k := by
  simp only [pow2_eq_zpow]; exact zpow_lt_zpow_iff_right₀ (by norm_num)

theorem pow2_natCast (n : Nat) : pow2 (n : Int) = ((2 ^ n : Nat) : Quantity) := rfl

/-- A smaller power divides a greater one. -/
theorem pow2_eq_mul {j k : Int} (h : j ≤ k) : pow2 k = ((2 ^ (k - j).toNat : Nat) : Int) * pow2 j := by
  have : k = ((k - j).toNat : Int) + j := by omega
  conv_lhs => rw [this, pow2_add, pow2_natCast]
  simp

theorem magnitude_eq_abs (x : Quantity) : magnitude x = |x| := by
  unfold magnitude
  split
  · rename_i h; exact (abs_of_neg h).symm
  · rename_i h; exact (abs_of_nonneg (not_lt.mp h)).symm

theorem floorLog2_spec {x : Quantity} (hx : 0 < x) : pow2 (floorLog2 x) ≤ x ∧ x < pow2 (floorLog2 x + 1) := by
  have hn : x.num.natAbs ≠ 0 := by simpa using hx.ne'
  have hd := x.den_nz
  obtain ⟨a, ha⟩ : ∃ a, a = Nat.log2 x.num.natAbs := ⟨_, rfl⟩
  obtain ⟨b, hb⟩ : ∃ b, b = Nat.log2 x.den := ⟨_, rfl⟩
  have e : x = (x.num.natAbs : Quantity) / (x.den : Quantity) := by
    have h0 : (x.num.natAbs : Int) = x.num := Int.natAbs_of_nonneg (Rat.num_nonneg.mpr hx.le)
    have h1 : (x.num.natAbs : Quantity) = (x.num : Quantity) := by rw [← h0]; simp
    rw [h1, Rat.num_div_den]
  have n1 : (pow2 a) ≤ (x.num.natAbs : Quantity) := by
    rw [pow2_natCast]; exact_mod_cast ha ▸ Nat.log2_self_le hn
  have n2 : (x.num.natAbs : Quantity) < pow2 (a + 1) := by
    rw [show (a : Int) + 1 = ((a + 1 : Nat) : Int) by simp, pow2_natCast]; exact_mod_cast ha ▸ Nat.lt_log2_self
  have d1 : (pow2 b) ≤ (x.den : Quantity) := by
    rw [pow2_natCast]; exact_mod_cast hb ▸ Nat.log2_self_le hd
  have d2 : (x.den : Quantity) < pow2 (b + 1) := by
    rw [show (b : Int) + 1 = ((b + 1 : Nat) : Int) by simp, pow2_natCast]; exact_mod_cast hb ▸ Nat.lt_log2_self
  have dpos : (0 : Quantity) < x.den := by exact_mod_cast Nat.pos_of_ne_zero hd
  have upper : x < pow2 (a - b + 1) := by
    rw [e, div_lt_iff₀ dpos]
    calc _ < pow2 (a + 1) := n2
      _ = pow2 (a - b + 1) * pow2 b := by rw [← pow2_add]; congr 1; ring
      _ ≤ _ := mul_le_mul_of_nonneg_left d1 (pow2_pos _).le
  have lower : pow2 (a - b - 1) ≤ x := by
    rw [e, le_div_iff₀ dpos]
    calc pow2 (a - b - 1) * x.den ≤ pow2 (a - b - 1) * pow2 (b + 1) := mul_le_mul_of_nonneg_left d2.le (pow2_pos _).le
      _ = pow2 a := by rw [← pow2_add]; congr 1; ring
      _ ≤ _ := n1
  unfold floorLog2
  simp only [← ha, ← hb]
  split
  · rename_i h; exact ⟨h, upper⟩
  · rename_i h; exact ⟨lower, by rw [sub_add_cancel]; exact not_le.mp h⟩

theorem floorLog2_eq {x : Quantity} {k : Int} (h1 : pow2 k ≤ x) (h2 : x < pow2 (k + 1)) : floorLog2 x = k := by
  obtain ⟨h3, h4⟩ := floorLog2_spec (lt_of_lt_of_le (pow2_pos k) h1)
  have := pow2_lt_iff.mp (h1.trans_lt h4)
  have := pow2_lt_iff.mp (h3.trans_lt h2)
  omega

/-! ### Rounding to the nearest integer -/

@[simp] theorem roundHalfEven_intCast (n : Int) : roundHalfEven (n : Quantity) = n := by
  simp [roundHalfEven]

/-- No integer is nearer. -/
theorem roundHalfEven_nearest (x : Quantity) (n : Int) : |x - roundHalfEven x| ≤ |x - n| := by
  have f1 : (x.floor : Quantity) ≤ x := Int.floor_le x
  have f2 : x < (x.floor : Quantity) + 1 := Int.lt_floor_add_one x
  rcases le_or_gt n x.floor with hn | hn
  · have hn' : (n : Quantity) ≤ x.floor := by exact_mod_cast hn
    rw [abs_of_nonneg (by linarith : 0 ≤ x - n)]
    unfold roundHalfEven
    simp only
    split_ifs <;> rw [abs_le] <;> constructor <;> push_cast <;> linarith
  · have hn' : (x.floor : Quantity) + 1 ≤ n := by exact_mod_cast hn
    rw [abs_of_nonpos (by linarith : x - n ≤ 0)]
    unfold roundHalfEven
    simp only
    split_ifs <;> rw [abs_le] <;> constructor <;> push_cast <;> linarith

/-- Rounding does not pass an integer. -/
theorem roundHalfEven_le {x : Quantity} {n : Int} (h : x ≤ n) : roundHalfEven x ≤ n := by
  have f1 : (x.floor : Quantity) ≤ x := Int.floor_le x
  have k : x.floor ≤ n := by exact_mod_cast f1.trans h
  unfold roundHalfEven
  simp only
  rcases eq_or_lt_of_le k with e | l
  · have : x - (x.floor : Quantity) ≤ 0 := by rw [e]; linarith
    rw [if_pos (by linarith)]; exact k
  · split_ifs <;> omega

theorem le_roundHalfEven {x : Quantity} {n : Int} (h : (n : Quantity) ≤ x) : n ≤ roundHalfEven x := by
  have k : n ≤ x.floor := Int.le_floor.mpr h
  unfold roundHalfEven
  simp only
  split_ifs <;> omega

theorem roundHalfEven_neg (x : Quantity) : roundHalfEven (-x) = -roundHalfEven x := by
  have f1 : (x.floor : Quantity) ≤ x := Int.floor_le x
  have f2 : x < (x.floor : Quantity) + 1 := Int.lt_floor_add_one x
  by_cases e : (x.floor : Quantity) = x
  · rw [← e, roundHalfEven_intCast, ← Int.cast_neg, roundHalfEven_intCast]
  · have hlt : (x.floor : Quantity) < x := lt_of_le_of_ne f1 e
    have g : (-x).floor = -x.floor - 1 := by
      show ⌊-x⌋ = _
      rw [Int.floor_eq_iff]; push_cast; constructor <;> linarith
    unfold roundHalfEven
    simp only [g]
    push_cast
    split_ifs <;> first | omega | (exfalso; linarith)

/-- Where another integer is as near, the even one is answered. -/
theorem roundHalfEven_even_of_tie {x : Quantity} {n : Int} (h : |x - roundHalfEven x| = |x - n|)
    (hn : n ≠ roundHalfEven x) : roundHalfEven x % 2 = 0 := by
  have f1 : (x.floor : Quantity) ≤ x := Int.floor_le x
  have f2 : x < (x.floor : Quantity) + 1 := Int.lt_floor_add_one x
  have s : 2 * x = (roundHalfEven x + n : Int) := by
    rcases abs_eq_abs.mp h with e | e
    · exact absurd (by exact_mod_cast (by linarith : (n : Quantity) = roundHalfEven x)) hn
    · push_cast; linarith
  unfold roundHalfEven at s hn ⊢
  simp only at s hn ⊢
  split_ifs at s hn ⊢ with a b c
  · push_cast at s
    have h1 : n < x.floor + 1 := by exact_mod_cast (by linarith : (n : Quantity) < x.floor + 1)
    have h2 : x.floor ≤ n := by exact_mod_cast (by linarith : (x.floor : Quantity) ≤ n)
    omega
  · push_cast at s
    have h1 : n < x.floor + 1 := by exact_mod_cast (by linarith : (n : Quantity) < x.floor + 1)
    have h2 : x.floor < n := by exact_mod_cast (by linarith : (x.floor : Quantity) < n)
    omega
  · exact c
  · omega

/-! ### Rounding into a format -/

theorem FloatFormat.spacing_pos (f : FloatFormat) (x : Quantity) : 0 < f.spacing x := pow2_pos _

@[simp] theorem FloatFormat.spacing_neg (f : FloatFormat) (x : Quantity) : f.spacing (-x) = f.spacing x := by
  simp only [FloatFormat.spacing, magnitude_eq_abs, abs_neg]

@[simp] theorem FloatFormat.round_zero (f : FloatFormat) : f.round 0 = some 0 := by simp [FloatFormat.round]

theorem FloatFormat.round_neg (f : FloatFormat) (x : Quantity) : f.round (-x) = (f.round x).map (fun y => -y) := by
  unfold FloatFormat.round
  by_cases h : x = 0
  · simp [h]
  · have h' : -x ≠ 0 := neg_ne_zero.mpr h
    simp only [h, h', if_false, f.spacing_neg, neg_div, roundHalfEven_neg, Int.cast_neg, neg_mul, magnitude_eq_abs,
      abs_neg]
    split <;> rfl

/-- A multiple of a power of two that the format can hold is held exactly. -/
theorem FloatFormat.round_of_multiple (f : FloatFormat) {m j : Int} (hm : |m| ≤ 2 ^ f.precision)
    (hp : 1 ≤ f.precision) (hj : f.emin - ((f.precision : Int) - 1) ≤ j)
    (hmax : |(m : Quantity) * pow2 j| ≤ f.maxFinite) :
    f.round ((m : Quantity) * pow2 j) = some ((m : Quantity) * pow2 j) := by
  obtain ⟨y, hy⟩ : ∃ y, y = (m : Quantity) * pow2 j := ⟨_, rfl⟩
  rw [← hy] at hmax ⊢
  unfold FloatFormat.round
  by_cases h0 : y = 0
  · simp [h0]
  rw [if_neg h0]
  have ypos : 0 < |y| := abs_pos.mpr h0
  obtain ⟨l1, l2⟩ := floorLog2_spec ypos
  have hmq : |(m : Quantity)| ≤ pow2 f.precision := by rw [pow2_natCast]; exact_mod_cast hm
  have hle : |y| ≤ pow2 (f.precision + j) := by
    rw [hy, abs_mul, abs_of_pos (pow2_pos j), pow2_add]
    exact mul_le_mul_of_nonneg_right hmq (pow2_pos _).le
  have hfl : floorLog2 |y| ≤ f.precision + j := pow2_le_iff.mp (l1.trans hle)
  obtain ⟨q, hq⟩ : ∃ q : Int, y = q * f.spacing y := by
    rcases eq_or_lt_of_le hfl with e | l
    · have habs : |y| = pow2 (f.precision + j) := le_antisymm hle (e ▸ l1)
      have hs : f.spacing y = pow2 (j + 1) := by
        unfold FloatFormat.spacing; rw [magnitude_eq_abs, e]; congr 1; omega
      have hk : pow2 (f.precision + j) = ((2 ^ (f.precision + j - (j + 1)).toNat : Nat) : Int) * pow2 (j + 1) :=
        pow2_eq_mul (by omega)
      rw [hs]
      rcases abs_choice y with c | c
      · exact ⟨_, (c.symm.trans habs).trans hk⟩
      · refine ⟨-((2 ^ (f.precision + j - (j + 1)).toNat : Nat) : Int), ?_⟩
        rw [Int.cast_neg, neg_mul, ← hk, ← habs, c, neg_neg]
    · have hs : max (floorLog2 |y|) f.emin - ((f.precision : Int) - 1) ≤ j := by omega
      refine ⟨m * ((2 ^ (j - (max (floorLog2 |y|) f.emin - ((f.precision : Int) - 1))).toNat : Nat) : Int), ?_⟩
      unfold FloatFormat.spacing
      rw [magnitude_eq_abs, Int.cast_mul, mul_assoc, ← pow2_eq_mul hs, hy]
  have hs0 : f.spacing y ≠ 0 := (f.spacing_pos y).ne'
  have hdiv : y / f.spacing y = (q : Quantity) := by rw [div_eq_iff hs0]; exact hq
  simp only [hdiv, roundHalfEven_intCast, ← hq, magnitude_eq_abs]
  rw [if_pos hmax]

/-- What rounding answers is a value of the format. -/
theorem FloatFormat.round_round (f : FloatFormat) (hp : 1 ≤ f.precision) {x y : Quantity} (h : f.round x = some y) :
    f.round y = some y := by
  unfold FloatFormat.round at h
  by_cases h0 : x = 0
  · rw [if_pos h0] at h; cases h; exact f.round_zero
  rw [if_neg h0] at h
  simp only at h
  split at h
  case isFalse => cases h
  rename_i hmax
  rw [magnitude_eq_abs] at hmax
  cases h
  have xpos : 0 < |x| := abs_pos.mpr h0
  obtain ⟨l1, l2⟩ := floorLog2_spec xpos
  obtain ⟨j, hj⟩ : ∃ j, j = max (floorLog2 |x|) f.emin - ((f.precision : Int) - 1) := ⟨_, rfl⟩
  have hs : f.spacing x = pow2 j := by unfold FloatFormat.spacing; rw [magnitude_eq_abs, hj]
  rw [hs] at hmax ⊢
  refine f.round_of_multiple ?_ hp (by omega) hmax
  have bound : |x / pow2 j| ≤ ((2 ^ f.precision : Int) : Quantity) := by
    rw [abs_div, abs_of_pos (pow2_pos j), div_le_iff₀ (pow2_pos j)]
    calc |x| ≤ pow2 (floorLog2 |x| + 1) := l2.le
      _ ≤ pow2 (f.precision + j) := pow2_le_iff.mpr (by omega)
      _ = pow2 f.precision * pow2 j := pow2_add _ _
      _ = _ := by rw [pow2_natCast]; push_cast; rfl
  rw [abs_le] at bound ⊢
  exact ⟨le_roundHalfEven (by push_cast at bound ⊢; exact bound.1), roundHalfEven_le bound.2⟩

theorem FloatFormat.round_nonneg (f : FloatFormat) {x y : Quantity} (h : 0 ≤ x) (hr : f.round x = some y) :
    0 ≤ y := by
  unfold FloatFormat.round at hr
  split at hr
  · cases hr; exact le_refl _
  · simp only at hr
    split at hr
    · cases hr
      have h0 : ((0 : Int) : Quantity) ≤ x / f.spacing x := by
        rw [Int.cast_zero]; exact div_nonneg h (f.spacing_pos x).le
      have h1 : (0 : Quantity) ≤ roundHalfEven (x / f.spacing x) := by exact_mod_cast le_roundHalfEven h0
      exact mul_nonneg h1 (f.spacing_pos x).le
    · cases hr

theorem roundIn_nonneg {m : NumModel} {x y : Quantity} (h : 0 ≤ x) (hr : roundIn m x = some y) : 0 ≤ y := by
  cases m
  · cases hr; exact h
  · exact FloatFormat.round_nonneg _ h hr
  · exact FloatFormat.round_nonneg _ h hr

theorem magnitude_nonneg (x : Quantity) : 0 ≤ magnitude x := by rw [magnitude_eq_abs]; exact abs_nonneg x

/-! ### Values of type Num -/

theorem holdsNum_iff {m : NumModel} {x : Quantity} : holdsNum m x = true ↔ roundIn m x = some x := by
  simp [holdsNum]

@[simp] theorem holdsNum_exact (x : Quantity) : holdsNum .exact x = true := by simp [holdsNum, roundIn]

@[simp] theorem holdsNum_zero (m : NumModel) : holdsNum m 0 = true := by
  rw [holdsNum_iff]; cases m <;> simp [roundIn]

theorem roundIn_neg (m : NumModel) (x : Quantity) : roundIn m (-x) = (roundIn m x).map (fun y => -y) := by
  cases m
  · rfl
  · exact FloatFormat.round_neg _ x
  · exact FloatFormat.round_neg _ x

theorem holdsNum_neg {m : NumModel} {x : Quantity} (h : holdsNum m x = true) : holdsNum m (-x) = true := by
  rw [holdsNum_iff] at h ⊢; rw [roundIn_neg, h]; rfl

theorem holdsNum_magnitude {m : NumModel} {x : Quantity} (h : holdsNum m x = true) :
    holdsNum m (magnitude x) = true := by
  unfold magnitude; split
  · exact holdsNum_neg h
  · exact h

/-- Rounding answers a value of the type. -/
theorem holdsNum_of_roundIn {m : NumModel} {x y : Quantity} (h : roundIn m x = some y) : holdsNum m y = true := by
  rw [holdsNum_iff]
  cases m
  · rfl
  · exact FloatFormat.round_round _ (by decide) h
  · exact FloatFormat.round_round _ (by decide) h

theorem holdsNum_getD {m : NumModel} {x y : Quantity} (hy : holdsNum m y = true) :
    holdsNum m ((roundIn m x).getD y) = true := by
  cases h : roundIn m x with
  | none => exact hy
  | some z => exact holdsNum_of_roundIn h

theorem holdsNum_free (a : Arith) (site : OpSite) : holdsNum a.model (a.free site) = true :=
  holdsNum_getD (holdsNum_zero _)

theorem holdsNum_result (a : Arith) (site : OpSite) (x : Quantity) : holdsNum a.model (a.result site x) = true :=
  holdsNum_getD (holdsNum_free a site)

theorem holdsNum_clamp {m : NumModel} {x lo hi : Quantity} (hx : holdsNum m x = true) (hl : holdsNum m lo = true)
    (hh : holdsNum m hi = true) : holdsNum m (clamp x lo hi) = true := by
  unfold clamp; split_ifs <;> assumption

/-! ### clamp (R17) -/

theorem le_clamp {x lo hi : Quantity} (h : lo ≤ hi) : lo ≤ clamp x lo hi := by
  unfold clamp; split_ifs <;> linarith

theorem clamp_le {x lo hi : Quantity} (h : lo ≤ hi) : clamp x lo hi ≤ hi := by
  unfold clamp; split_ifs <;> linarith

/-! ### QUANTIZE by cuts (R12) -/

@[simp] theorem cutQuantize_intCast (cs : List Cut) (n : Int) : cutQuantize cs (n : Quantity) = n := by
  simp [cutQuantize, Rat.floor_intCast]

/-- A quantizer answers the floor or the integer above it. -/
theorem cutQuantize_bounds (cs : List Cut) (x : Quantity) :
    x.floor ≤ cutQuantize cs x ∧ (cutQuantize cs x : Quantity) < x + 1 := by
  have h1 : (x.floor : Quantity) ≤ x := Rat.floor_le x
  unfold cutQuantize
  dsimp only
  split
  · exact ⟨le_refl _, by linarith⟩
  · rename_i hne
    have h2 : (x.floor : Quantity) < x := lt_of_le_of_ne h1 hne
    split
    · exact ⟨le_refl _, by linarith⟩
    · split
      · exact ⟨by omega, by push_cast; linarith⟩
      · exact ⟨le_refl _, by linarith⟩

/-! ### The binary32 datum (R94) -/

/-- A finite datum is a signed 24-bit integer times a power of two in binary32's range. -/
theorem value32_eq (w : Word32) (h : finite32 w = true) :
    ∃ m j : Int, |m| < 2 ^ 24 ∧ -149 ≤ j ∧ j ≤ 104 ∧ value32 w = (m : Quantity) * pow2 j := by
  obtain ⟨e, he⟩ : ∃ e, e = (w.extractLsb' 23 8).toNat := ⟨_, rfl⟩
  obtain ⟨g, hg⟩ : ∃ g, g = (w.extractLsb' 0 23).toNat := ⟨_, rfl⟩
  have e255 : e < 255 := by
    have : w.extractLsb' 23 8 ≠ 0xFF#8 := by simpa [finite32] using h
    have h1 : e ≠ 255 := fun c => this (BitVec.eq_of_toNat_eq (he ▸ c))
    have h2 : e < 256 := he ▸ (w.extractLsb' 23 8).isLt
    omega
  have g23 : g < 2 ^ 23 := hg ▸ (w.extractLsb' 0 23).isLt
  have mlt : (if e = 0 then g else 2 ^ 23 + g) < 2 ^ 24 := by split <;> omega
  unfold value32
  simp only [← he, ← hg]
  refine ⟨if w.getLsbD 31 then -((if e = 0 then g else 2 ^ 23 + g : Nat) : Int)
      else (if e = 0 then g else 2 ^ 23 + g : Nat),
    ((max e 1 : Nat) : Int) - 150, ?_, by omega, by omega, ?_⟩
  · split
    · rw [abs_neg, Nat.abs_cast]; exact_mod_cast mlt
    · rw [Nat.abs_cast]; exact_mod_cast mlt
  · split <;> push_cast <;> simp

end Sys2Proof.Machine
end

