-- ==== Sys2Proof/Laws/State.lean ====
section
/-! SUPPORT. One lemma per field per state update: what the update writes and what it keeps, each true by rfl, so that no
later proof unfolds a record update. -/

namespace Sys2Proof.Machine

variable (s : State)

/-! ### outputsOff -/

@[simp] theorem outputsOff_initDone : (outputsOff s).initDone = s.initDone := rfl
@[simp] theorem outputsOff_state : (outputsOff s).state = s.state := rfl
@[simp] theorem outputsOff_mode : (outputsOff s).mode = s.mode := rfl
@[simp] theorem outputsOff_dir : (outputsOff s).dir = s.dir := rfl
@[simp] theorem outputsOff_targetSpeed : (outputsOff s).targetSpeed = s.targetSpeed := rfl
@[simp] theorem outputsOff_targetTorque : (outputsOff s).targetTorque = s.targetTorque := rfl
@[simp] theorem outputsOff_duty : (outputsOff s).duty = 0 := rfl
@[simp] theorem outputsOff_fault : (outputsOff s).fault = s.fault := rfl
@[simp] theorem outputsOff_lastSector : (outputsOff s).lastSector = s.lastSector := rfl
@[simp] theorem outputsOff_lastTs : (outputsOff s).lastTs = s.lastTs := rfl
@[simp] theorem outputsOff_hasPrior : (outputsOff s).hasPrior = s.hasPrior := rfl
@[simp] theorem outputsOff_rpm : (outputsOff s).rpm = s.rpm := rfl
@[simp] theorem outputsOff_pidIntegral : (outputsOff s).pidIntegral = s.pidIntegral := rfl
@[simp] theorem outputsOff_pidPrevError : (outputsOff s).pidPrevError = s.pidPrevError := rfl
@[simp] theorem outputsOff_tick : (outputsOff s).tick = s.tick := rfl
@[simp] theorem outputsOff_rampTicks : (outputsOff s).rampTicks = s.rampTicks := rfl
@[simp] theorem outputsOff_outPhase : (outputsOff s).outPhase = 0 := rfl
@[simp] theorem outputsOff_outEn : (outputsOff s).outEn = false := rfl
@[simp] theorem outputsOff_resp : (outputsOff s).resp = s.resp := rfl
@[simp] theorem outputsOff_ports : (outputsOff s).ports = s.ports := rfl
@[simp] theorem outputsOff_pending : (outputsOff s).pending = s.pending := rfl
@[simp] theorem outputsOff_cfg : (outputsOff s).cfg = s.cfg := rfl
@[simp] theorem outputsOff_draws : (outputsOff s).draws = s.draws := rfl

/-! ### pidReset -/

@[simp] theorem pidReset_initDone : (pidReset s).initDone = s.initDone := rfl
@[simp] theorem pidReset_state : (pidReset s).state = s.state := rfl
@[simp] theorem pidReset_mode : (pidReset s).mode = s.mode := rfl
@[simp] theorem pidReset_dir : (pidReset s).dir = s.dir := rfl
@[simp] theorem pidReset_targetSpeed : (pidReset s).targetSpeed = s.targetSpeed := rfl
@[simp] theorem pidReset_targetTorque : (pidReset s).targetTorque = s.targetTorque := rfl
@[simp] theorem pidReset_duty : (pidReset s).duty = s.duty := rfl
@[simp] theorem pidReset_fault : (pidReset s).fault = s.fault := rfl
@[simp] theorem pidReset_lastSector : (pidReset s).lastSector = s.lastSector := rfl
@[simp] theorem pidReset_lastTs : (pidReset s).lastTs = s.lastTs := rfl
@[simp] theorem pidReset_hasPrior : (pidReset s).hasPrior = s.hasPrior := rfl
@[simp] theorem pidReset_rpm : (pidReset s).rpm = s.rpm := rfl
@[simp] theorem pidReset_pidIntegral : (pidReset s).pidIntegral = 0 := rfl
@[simp] theorem pidReset_pidPrevError : (pidReset s).pidPrevError = 0 := rfl
@[simp] theorem pidReset_tick : (pidReset s).tick = s.tick := rfl
@[simp] theorem pidReset_rampTicks : (pidReset s).rampTicks = s.rampTicks := rfl
@[simp] theorem pidReset_outPhase : (pidReset s).outPhase = s.outPhase := rfl
@[simp] theorem pidReset_outEn : (pidReset s).outEn = s.outEn := rfl
@[simp] theorem pidReset_resp : (pidReset s).resp = s.resp := rfl
@[simp] theorem pidReset_ports : (pidReset s).ports = s.ports := rfl
@[simp] theorem pidReset_pending : (pidReset s).pending = s.pending := rfl
@[simp] theorem pidReset_cfg : (pidReset s).cfg = s.cfg := rfl
@[simp] theorem pidReset_draws : (pidReset s).draws = s.draws := rfl

/-! ### estimatorReset -/

@[simp] theorem estimatorReset_initDone : (estimatorReset s).initDone = s.initDone := rfl
@[simp] theorem estimatorReset_state : (estimatorReset s).state = s.state := rfl
@[simp] theorem estimatorReset_mode : (estimatorReset s).mode = s.mode := rfl
@[simp] theorem estimatorReset_dir : (estimatorReset s).dir = s.dir := rfl
@[simp] theorem estimatorReset_targetSpeed : (estimatorReset s).targetSpeed = s.targetSpeed := rfl
@[simp] theorem estimatorReset_targetTorque : (estimatorReset s).targetTorque = s.targetTorque := rfl
@[simp] theorem estimatorReset_duty : (estimatorReset s).duty = s.duty := rfl
@[simp] theorem estimatorReset_fault : (estimatorReset s).fault = s.fault := rfl
@[simp] theorem estimatorReset_lastSector : (estimatorReset s).lastSector = 0 := rfl
@[simp] theorem estimatorReset_lastTs : (estimatorReset s).lastTs = s.lastTs := rfl
@[simp] theorem estimatorReset_hasPrior : (estimatorReset s).hasPrior = false := rfl
@[simp] theorem estimatorReset_rpm : (estimatorReset s).rpm = 0 := rfl
@[simp] theorem estimatorReset_pidIntegral : (estimatorReset s).pidIntegral = s.pidIntegral := rfl
@[simp] theorem estimatorReset_pidPrevError : (estimatorReset s).pidPrevError = s.pidPrevError := rfl
@[simp] theorem estimatorReset_tick : (estimatorReset s).tick = s.tick := rfl
@[simp] theorem estimatorReset_rampTicks : (estimatorReset s).rampTicks = s.rampTicks := rfl
@[simp] theorem estimatorReset_outPhase : (estimatorReset s).outPhase = s.outPhase := rfl
@[simp] theorem estimatorReset_outEn : (estimatorReset s).outEn = s.outEn := rfl
@[simp] theorem estimatorReset_resp : (estimatorReset s).resp = s.resp := rfl
@[simp] theorem estimatorReset_ports : (estimatorReset s).ports = s.ports := rfl
@[simp] theorem estimatorReset_pending : (estimatorReset s).pending = s.pending := rfl
@[simp] theorem estimatorReset_cfg : (estimatorReset s).cfg = s.cfg := rfl
@[simp] theorem estimatorReset_draws : (estimatorReset s).draws = s.draws := rfl

/-! ### respond -/

@[simp] theorem respond_initDone (v : Word32) : (respond v s).initDone = s.initDone := rfl
@[simp] theorem respond_state (v : Word32) : (respond v s).state = s.state := rfl
@[simp] theorem respond_mode (v : Word32) : (respond v s).mode = s.mode := rfl
@[simp] theorem respond_dir (v : Word32) : (respond v s).dir = s.dir := rfl
@[simp] theorem respond_targetSpeed (v : Word32) : (respond v s).targetSpeed = s.targetSpeed := rfl
@[simp] theorem respond_targetTorque (v : Word32) : (respond v s).targetTorque = s.targetTorque := rfl
@[simp] theorem respond_duty (v : Word32) : (respond v s).duty = s.duty := rfl
@[simp] theorem respond_fault (v : Word32) : (respond v s).fault = s.fault := rfl
@[simp] theorem respond_lastSector (v : Word32) : (respond v s).lastSector = s.lastSector := rfl
@[simp] theorem respond_lastTs (v : Word32) : (respond v s).lastTs = s.lastTs := rfl
@[simp] theorem respond_hasPrior (v : Word32) : (respond v s).hasPrior = s.hasPrior := rfl
@[simp] theorem respond_rpm (v : Word32) : (respond v s).rpm = s.rpm := rfl
@[simp] theorem respond_pidIntegral (v : Word32) : (respond v s).pidIntegral = s.pidIntegral := rfl
@[simp] theorem respond_pidPrevError (v : Word32) : (respond v s).pidPrevError = s.pidPrevError := rfl
@[simp] theorem respond_tick (v : Word32) : (respond v s).tick = s.tick := rfl
@[simp] theorem respond_rampTicks (v : Word32) : (respond v s).rampTicks = s.rampTicks := rfl
@[simp] theorem respond_outPhase (v : Word32) : (respond v s).outPhase = s.outPhase := rfl
@[simp] theorem respond_outEn (v : Word32) : (respond v s).outEn = s.outEn := rfl
@[simp] theorem respond_resp (v : Word32) : (respond v s).resp = v := rfl
@[simp] theorem respond_ports (v : Word32) : (respond v s).ports = s.ports := rfl
@[simp] theorem respond_pending (v : Word32) : (respond v s).pending = s.pending := rfl
@[simp] theorem respond_cfg (v : Word32) : (respond v s).cfg = s.cfg := rfl
@[simp] theorem respond_draws (v : Word32) : (respond v s).draws = s.draws := rfl

/-! ### faultReturn -/

@[simp] theorem faultReturn_initDone : (faultReturn s).initDone = s.initDone := rfl
@[simp] theorem faultReturn_state : (faultReturn s).state = .stop := rfl
@[simp] theorem faultReturn_mode : (faultReturn s).mode = s.mode := rfl
@[simp] theorem faultReturn_dir : (faultReturn s).dir = s.dir := rfl
@[simp] theorem faultReturn_targetSpeed : (faultReturn s).targetSpeed = s.targetSpeed := rfl
@[simp] theorem faultReturn_targetTorque : (faultReturn s).targetTorque = s.targetTorque := rfl
@[simp] theorem faultReturn_duty : (faultReturn s).duty = 0 := rfl
@[simp] theorem faultReturn_fault : (faultReturn s).fault = .none := rfl
@[simp] theorem faultReturn_lastSector : (faultReturn s).lastSector = s.lastSector := rfl
@[simp] theorem faultReturn_lastTs : (faultReturn s).lastTs = s.lastTs := rfl
@[simp] theorem faultReturn_hasPrior : (faultReturn s).hasPrior = s.hasPrior := rfl
@[simp] theorem faultReturn_rpm : (faultReturn s).rpm = s.rpm := rfl
@[simp] theorem faultReturn_pidIntegral : (faultReturn s).pidIntegral = s.pidIntegral := rfl
@[simp] theorem faultReturn_pidPrevError : (faultReturn s).pidPrevError = s.pidPrevError := rfl
@[simp] theorem faultReturn_tick : (faultReturn s).tick = s.tick := rfl
@[simp] theorem faultReturn_rampTicks : (faultReturn s).rampTicks = s.rampTicks := rfl
@[simp] theorem faultReturn_outPhase : (faultReturn s).outPhase = 0 := rfl
@[simp] theorem faultReturn_outEn : (faultReturn s).outEn = false := rfl
@[simp] theorem faultReturn_resp : (faultReturn s).resp = s.resp := rfl
@[simp] theorem faultReturn_ports : (faultReturn s).ports = s.ports := rfl
@[simp] theorem faultReturn_pending : (faultReturn s).pending = s.pending := rfl
@[simp] theorem faultReturn_cfg : (faultReturn s).cfg = s.cfg := rfl
@[simp] theorem faultReturn_draws : (faultReturn s).draws = s.draws := rfl

/-! ### enterStarting -/

@[simp] theorem enterStarting_initDone : (enterStarting s).initDone = s.initDone := rfl
@[simp] theorem enterStarting_state : (enterStarting s).state = .starting := rfl
@[simp] theorem enterStarting_mode : (enterStarting s).mode = s.mode := rfl
@[simp] theorem enterStarting_dir : (enterStarting s).dir = s.dir := rfl
@[simp] theorem enterStarting_targetSpeed : (enterStarting s).targetSpeed = s.targetSpeed := rfl
@[simp] theorem enterStarting_targetTorque : (enterStarting s).targetTorque = s.targetTorque := rfl
@[simp] theorem enterStarting_duty : (enterStarting s).duty = 0 := rfl
@[simp] theorem enterStarting_fault : (enterStarting s).fault = s.fault := rfl
@[simp] theorem enterStarting_lastSector : (enterStarting s).lastSector = 0 := rfl
@[simp] theorem enterStarting_lastTs : (enterStarting s).lastTs = s.lastTs := rfl
@[simp] theorem enterStarting_hasPrior : (enterStarting s).hasPrior = false := rfl
@[simp] theorem enterStarting_rpm : (enterStarting s).rpm = 0 := rfl
@[simp] theorem enterStarting_pidIntegral : (enterStarting s).pidIntegral = 0 := rfl
@[simp] theorem enterStarting_pidPrevError : (enterStarting s).pidPrevError = 0 := rfl
@[simp] theorem enterStarting_tick : (enterStarting s).tick = s.tick := rfl
@[simp] theorem enterStarting_rampTicks : (enterStarting s).rampTicks = 0 := rfl
@[simp] theorem enterStarting_outPhase : (enterStarting s).outPhase = s.outPhase := rfl
@[simp] theorem enterStarting_outEn : (enterStarting s).outEn = s.outEn := rfl
@[simp] theorem enterStarting_resp : (enterStarting s).resp = s.resp := rfl
@[simp] theorem enterStarting_ports : (enterStarting s).ports = s.ports := rfl
@[simp] theorem enterStarting_pending : (enterStarting s).pending = s.pending := rfl
@[simp] theorem enterStarting_cfg : (enterStarting s).cfg = s.cfg := rfl
@[simp] theorem enterStarting_draws : (enterStarting s).draws = s.draws := rfl

/-! ### accept -/

@[simp] theorem accept_initDone (p : Presented) (rest : List Presented) : (accept p rest s).initDone = s.initDone := rfl
@[simp] theorem accept_state (p : Presented) (rest : List Presented) : (accept p rest s).state = s.state := rfl
@[simp] theorem accept_mode (p : Presented) (rest : List Presented) : (accept p rest s).mode = s.mode := rfl
@[simp] theorem accept_dir (p : Presented) (rest : List Presented) : (accept p rest s).dir = s.dir := rfl
@[simp] theorem accept_targetSpeed (p : Presented) (rest : List Presented) : (accept p rest s).targetSpeed = s.targetSpeed := rfl
@[simp] theorem accept_targetTorque (p : Presented) (rest : List Presented) : (accept p rest s).targetTorque = s.targetTorque := rfl
@[simp] theorem accept_duty (p : Presented) (rest : List Presented) : (accept p rest s).duty = s.duty := rfl
@[simp] theorem accept_fault (p : Presented) (rest : List Presented) : (accept p rest s).fault = s.fault := rfl
@[simp] theorem accept_lastSector (p : Presented) (rest : List Presented) : (accept p rest s).lastSector = s.lastSector := rfl
@[simp] theorem accept_lastTs (p : Presented) (rest : List Presented) : (accept p rest s).lastTs = s.lastTs := rfl
@[simp] theorem accept_hasPrior (p : Presented) (rest : List Presented) : (accept p rest s).hasPrior = s.hasPrior := rfl
@[simp] theorem accept_rpm (p : Presented) (rest : List Presented) : (accept p rest s).rpm = s.rpm := rfl
@[simp] theorem accept_pidIntegral (p : Presented) (rest : List Presented) : (accept p rest s).pidIntegral = s.pidIntegral := rfl
@[simp] theorem accept_pidPrevError (p : Presented) (rest : List Presented) : (accept p rest s).pidPrevError = s.pidPrevError := rfl
@[simp] theorem accept_tick (p : Presented) (rest : List Presented) : (accept p rest s).tick = s.tick := rfl
@[simp] theorem accept_rampTicks (p : Presented) (rest : List Presented) : (accept p rest s).rampTicks = s.rampTicks := rfl
@[simp] theorem accept_outPhase (p : Presented) (rest : List Presented) : (accept p rest s).outPhase = s.outPhase := rfl
@[simp] theorem accept_outEn (p : Presented) (rest : List Presented) : (accept p rest s).outEn = s.outEn := rfl
@[simp] theorem accept_resp (p : Presented) (rest : List Presented) : (accept p rest s).resp = s.resp := rfl
@[simp] theorem accept_ports (p : Presented) (rest : List Presented) : (accept p rest s).ports = p.samples := rfl
@[simp] theorem accept_pending (p : Presented) (rest : List Presented) : (accept p rest s).pending = rest := rfl
@[simp] theorem accept_cfg (p : Presented) (rest : List Presented) : (accept p rest s).cfg = s.cfg := rfl
@[simp] theorem accept_draws (p : Presented) (rest : List Presented) : (accept p rest s).draws = s.draws := rfl

/-! ### advanceTick -/

@[simp] theorem advanceTick_initDone : (advanceTick s).initDone = s.initDone := rfl
@[simp] theorem advanceTick_state : (advanceTick s).state = s.state := rfl
@[simp] theorem advanceTick_mode : (advanceTick s).mode = s.mode := rfl
@[simp] theorem advanceTick_dir : (advanceTick s).dir = s.dir := rfl
@[simp] theorem advanceTick_targetSpeed : (advanceTick s).targetSpeed = s.targetSpeed := rfl
@[simp] theorem advanceTick_targetTorque : (advanceTick s).targetTorque = s.targetTorque := rfl
@[simp] theorem advanceTick_duty : (advanceTick s).duty = s.duty := rfl
@[simp] theorem advanceTick_fault : (advanceTick s).fault = s.fault := rfl
@[simp] theorem advanceTick_lastSector : (advanceTick s).lastSector = s.lastSector := rfl
@[simp] theorem advanceTick_lastTs : (advanceTick s).lastTs = s.lastTs := rfl
@[simp] theorem advanceTick_hasPrior : (advanceTick s).hasPrior = s.hasPrior := rfl
@[simp] theorem advanceTick_rpm : (advanceTick s).rpm = s.rpm := rfl
@[simp] theorem advanceTick_pidIntegral : (advanceTick s).pidIntegral = s.pidIntegral := rfl
@[simp] theorem advanceTick_pidPrevError : (advanceTick s).pidPrevError = s.pidPrevError := rfl
@[simp] theorem advanceTick_tick : (advanceTick s).tick = nextTick s.cfg s.tick := rfl
@[simp] theorem advanceTick_rampTicks : (advanceTick s).rampTicks = s.rampTicks := rfl
@[simp] theorem advanceTick_outPhase : (advanceTick s).outPhase = s.outPhase := rfl
@[simp] theorem advanceTick_outEn : (advanceTick s).outEn = s.outEn := rfl
@[simp] theorem advanceTick_resp : (advanceTick s).resp = s.resp := rfl
@[simp] theorem advanceTick_ports : (advanceTick s).ports = s.ports := rfl
@[simp] theorem advanceTick_pending : (advanceTick s).pending = s.pending := rfl
@[simp] theorem advanceTick_cfg : (advanceTick s).cfg = s.cfg := rfl
@[simp] theorem advanceTick_draws : (advanceTick s).draws = s.draws + 1 := rfl

/-! ### recordTransition -/

@[simp] theorem recordTransition_initDone (h : HallSector) : (recordTransition h s).initDone = s.initDone := rfl
@[simp] theorem recordTransition_state (h : HallSector) : (recordTransition h s).state = s.state := rfl
@[simp] theorem recordTransition_mode (h : HallSector) : (recordTransition h s).mode = s.mode := rfl
@[simp] theorem recordTransition_dir (h : HallSector) : (recordTransition h s).dir = s.dir := rfl
@[simp] theorem recordTransition_targetSpeed (h : HallSector) : (recordTransition h s).targetSpeed = s.targetSpeed := rfl
@[simp] theorem recordTransition_targetTorque (h : HallSector) : (recordTransition h s).targetTorque = s.targetTorque := rfl
@[simp] theorem recordTransition_duty (h : HallSector) : (recordTransition h s).duty = s.duty := rfl
@[simp] theorem recordTransition_fault (h : HallSector) : (recordTransition h s).fault = s.fault := rfl
@[simp] theorem recordTransition_lastSector (h : HallSector) : (recordTransition h s).lastSector = h := rfl
@[simp] theorem recordTransition_lastTs (h : HallSector) : (recordTransition h s).lastTs = s.tick := rfl
@[simp] theorem recordTransition_hasPrior (h : HallSector) : (recordTransition h s).hasPrior = true := rfl
@[simp] theorem recordTransition_rpm (h : HallSector) : (recordTransition h s).rpm = if s.hasPrior then rate (arithOf s) s.cfg.kRpm (elapsed s.cfg s.tick s.lastTs) else 0 := rfl
@[simp] theorem recordTransition_pidIntegral (h : HallSector) : (recordTransition h s).pidIntegral = s.pidIntegral := rfl
@[simp] theorem recordTransition_pidPrevError (h : HallSector) : (recordTransition h s).pidPrevError = s.pidPrevError := rfl
@[simp] theorem recordTransition_tick (h : HallSector) : (recordTransition h s).tick = s.tick := rfl
@[simp] theorem recordTransition_rampTicks (h : HallSector) : (recordTransition h s).rampTicks = s.rampTicks := rfl
@[simp] theorem recordTransition_outPhase (h : HallSector) : (recordTransition h s).outPhase = s.outPhase := rfl
@[simp] theorem recordTransition_outEn (h : HallSector) : (recordTransition h s).outEn = s.outEn := rfl
@[simp] theorem recordTransition_resp (h : HallSector) : (recordTransition h s).resp = s.resp := rfl
@[simp] theorem recordTransition_ports (h : HallSector) : (recordTransition h s).ports = s.ports := rfl
@[simp] theorem recordTransition_pending (h : HallSector) : (recordTransition h s).pending = s.pending := rfl
@[simp] theorem recordTransition_cfg (h : HallSector) : (recordTransition h s).cfg = s.cfg := rfl
@[simp] theorem recordTransition_draws (h : HallSector) : (recordTransition h s).draws = s.draws := rfl

end Sys2Proof.Machine
end

