-- ==== Sys2Proof/Laws/Ops.lean ====
section
/-! SUPPORT. What each shared operation can do, said once: the checks that refuse a command, taking a fault and leaving it,
and the transitions of the state machine. -/

namespace Sys2Proof.Machine

open Sys2Proof.Safety

/-! ### The checks -/

/-- A command that waits for INIT answers a next state exactly when the block is ready and its own effect does. -/
theorem whenReady_eq_next {s t : State} {run : Result} :
    whenReady s run = .next t ↔ configOk s.cfg = true ∧ s.initDone = true ∧ run = .next t := by
  unfold whenReady
  cases configOk s.cfg <;> cases s.initDone <;> simp

theorem whenReady_of_ready {s : State} (h : Ready s) (run : Result) : whenReady s run = run := by
  simp [whenReady, h.1, h.2]

theorem whenReady_of_not_init {s : State} (hc : configOk s.cfg = true) (hi : s.initDone = false) (run : Result) :
    whenReady s run = .refused .notInitialised := by
  simp [whenReady, hc, hi]

theorem whenReady_of_invalid {s : State} (hc : configOk s.cfg = false) (run : Result) :
    whenReady s run = .refused .invalidConfig := by
  simp [whenReady, hc]

theorem whenUninitialised_eq_next {s t : State} {run : Result} :
    whenUninitialised s run = .next t ↔ configOk s.cfg = true ∧ s.initDone = false ∧ run = .next t := by
  unfold whenUninitialised
  cases configOk s.cfg <;> cases s.initDone <;> simp

theorem withSample_eq_next {s t : State} {run : Meas → Result} :
    withSample s run = .next t ↔ samplesFinite s.ports = true ∧ run (samplesValue s.ports) = .next t := by
  unfold withSample
  cases samplesFinite s.ports <;> simp

theorem withSample_of_finite {s : State} (h : FiniteSample s) (run : Meas → Result) :
    withSample s run = run (samplesValue s.ports) := by
  have h' : samplesFinite s.ports = true := h
  simp [withSample, h']

/-! ### The PID reset and the fault latch -/

theorem pidResetOutOfRunning_eq (s : State) :
    pidResetOutOfRunning s =
      { s with
        pidIntegral := if s.state = .running then 0 else s.pidIntegral
        pidPrevError := if s.state = .running then 0 else s.pidPrevError } := by
  cases s
  cases ‹MotorState› <;> rfl

theorem latchFault_eq (c : FaultCode) (s : State) :
    latchFault c s = { s with fault := if s.fault = .none then c else s.fault } := by
  cases s
  cases ‹FaultCode› <;> rfl

/-- FAULT_ENTRY as one update of the state (60_exceptions.md R276). -/
theorem faultEntry_eq (c : FaultCode) (s : State) :
    faultEntry c s =
      { s with
        state := .fault
        fault := if s.fault = .none then c else s.fault
        pidIntegral := if s.state = .running then 0 else s.pidIntegral
        pidPrevError := if s.state = .running then 0 else s.pidPrevError
        duty := 0
        outPhase := 0
        outEn := false } := by
  simp [faultEntry, pidResetOutOfRunning_eq, latchFault_eq, outputsOff]

/-- LEAVE_TO_STOP as one update of the state (45_state_machine.md R203). -/
theorem leaveToStop_eq (s : State) :
    leaveToStop s =
      { s with
        state := .stop
        pidIntegral := if s.state = .running then 0 else s.pidIntegral
        pidPrevError := if s.state = .running then 0 else s.pidPrevError
        duty := 0
        outPhase := 0
        outEn := false } := by
  simp [leaveToStop, pidResetOutOfRunning_eq, outputsOff]

theorem faultCommand_eq (c : FaultCode) (s : State) : faultCommand c s = if c = .none then s else faultEntry c s := by
  cases c <;> rfl

theorem enterIfDetected_eq (c : FaultCode) (s : State) :
    enterIfDetected c s = if c = .none then s else faultEntry c s := by
  cases c <;> rfl

/-- Outputs that OUTPUTS_OFF leaves are off. -/
theorem outputsOff_off (s : State) : OutputsOff (outputsOff s) := ⟨rfl, rfl, rfl⟩

theorem faultEntry_off (c : FaultCode) (s : State) : OutputsOff (faultEntry c s) := by
  rw [faultEntry_eq]; exact ⟨rfl, rfl, rfl⟩

end Sys2Proof.Machine
end

