-- ==== Sys2Proof/Laws/PerInstr.lean ====
section
/-! SUPPORT. Facts stated of every instruction as syntax, one lemma per constructor: the word of a command carries its
listed opcode (30_encoding.md R92). -/

namespace Sys2Proof.Laws.Opcode

/-- The opcode field of the command's word is its opcode, one of the eleven listed. -/
def Statement (i : Instr) : Prop :=
  opField (encode i) = i.opcode ∧ 0x01 ≤ i.opcode.toNat ∧ i.opcode.toNat ≤ 0x0B

theorem intro {i : Instr} (lower : Nat.ble 0x01 i.opcode.toNat = true) (upper : Nat.ble i.opcode.toNat 0x0B = true) :
    Statement i :=
  ⟨opField_encode i, Nat.le_of_ble_eq_true lower, Nat.le_of_ble_eq_true upper⟩

theorem init : Statement .init := intro rfl rfl

theorem start : Statement .start := intro rfl rfl

theorem stop : Statement .stop := intro rfl rfl

theorem setSpeed (rpm : Word32) : Statement (.setSpeed rpm) := intro rfl rfl

theorem setTorque (percent : BitVec 7) : Statement (.setTorque percent) := intro rfl rfl

theorem faultHandler (code : FaultCode) : Statement (.faultHandler code) := intro rfl rfl

theorem getFault : Statement .getFault := intro rfl rfl

theorem clearFault : Statement .clearFault := intro rfl rfl

theorem loop : Statement .loop := intro rfl rfl

theorem setMode (mode : ControlMode) : Statement (.setMode mode) := intro rfl rfl

theorem setDirection (dir : Direction) : Statement (.setDirection dir) := intro rfl rfl

end Sys2Proof.Laws.Opcode
end

