-- ==== Sys2Proof/Laws/Tick.lean ====
section
/-! SUPPORT. What each step of LOOP can do (46_tick_pipeline.md), each said once. -/

namespace Sys2Proof.Machine

open Sys2Proof.Safety

/-! ### The estimator -/

theorem estTransition_frame (h : HallSector) (s : State) :
    estTransition h s =
      { s with
        rpm := (estTransition h s).rpm
        lastTs := (estTransition h s).lastTs
        lastSector := (estTransition h s).lastSector
        hasPrior := (estTransition h s).hasPrior } := by
  unfold estTransition
  split <;> rfl

/-- The estimator writes its four registers and nothing else. -/
theorem estimate_frame (h : HallSector) (s : State) :
    (estimate h s).1 =
      { s with
        rpm := (estimate h s).1.rpm
        lastTs := (estimate h s).1.lastTs
        lastSector := (estimate h s).1.lastSector
        hasPrior := (estimate h s).1.hasPrior } := by
  have hf := estTransition_frame h s
  unfold estimate
  dsimp only
  split <;> (rw [hf])

theorem validFlag_iff (h : HallSector) : validFlag h = true ↔ 1 ≤ h.toNat ∧ h.toNat ≤ 6 := by
  simp [validFlag]

theorem transFlag_iff (h l : HallSector) : transFlag h l = true ↔ (1 ≤ h.toNat ∧ h.toNat ≤ 6) ∧ h ≠ l := by
  simp [transFlag, validFlag]

theorem elapsed_self (c : Config) (t : Nat) : elapsed c t t = 0 := by
  unfold elapsed
  cases c.tickWidth <;> simp

/-- `now` of the claims is the tick the LOOP advances to. -/
theorem nextTick_eq_now (s : State) : nextTick s.cfg s.tick = now s := rfl

/-- `sinceTransition` of the claims is the period the estimator measures. -/
theorem elapsed_eq_sinceTransition (s : State) : elapsed s.cfg (now s) s.lastTs = sinceTransition s := by
  unfold elapsed sinceTransition
  cases s.cfg.tickWidth <;> simp

/-- The state after steps 1 and 2a of LOOP: the tick advanced and the estimator updated. -/
def sensed (s : State) : State := (estimate s.ports.hall (advanceTick s)).1

/-- Steps 1 and 2a write the tick, the four estimator registers and the model's draw counter, and nothing else. -/
theorem sensed_frame (s : State) :
    sensed s =
      { s with
        tick := now s
        draws := s.draws + 1
        rpm := (sensed s).rpm
        lastTs := (sensed s).lastTs
        lastSector := (sensed s).lastSector
        hasPrior := (sensed s).hasPrior } := by
  have h := estimate_frame s.ports.hall (advanceTick s)
  simpa only [sensed, advanceTick, nextTick_eq_now] using h

theorem transFlag_transition (s : State) : transFlag s.ports.hall s.lastSector = true ↔ Transition s := by
  rw [transFlag_iff]; rfl

/-- The transition update that a LOOP from `s` makes. -/
theorem estTransition_advance (s : State) :
    (Transition s → estTransition s.ports.hall (advanceTick s) = recordTransition s.ports.hall (advanceTick s)) ∧
      (¬ Transition s → estTransition s.ports.hall (advanceTick s) = advanceTick s) := by
  rw [← transFlag_transition]
  constructor <;> intro h <;> simp [estTransition, h]

/-- The stall signal of a LOOP from `s` (42_speed_estimator.md R144). -/
theorem estimate_stall_iff (s : State) : (estimate s.ports.hall (advanceTick s)).2 = true ↔ Stalled s := by
  obtain ⟨h1, h2⟩ := estTransition_advance s
  unfold estimate Stalled
  rw [← elapsed_eq_sinceTransition]
  by_cases ht : Transition s
  · simp [h1 ht, stallFlag, elapsed_self, ht]
    split_ifs with h
    · omega
    · rfl
  · simp only [h2 ht, stallFlag, ht, advanceTick_state, advanceTick_cfg, advanceTick_tick, advanceTick_lastTs,
      nextTick_eq_now, decide_eq_true_eq, not_false_eq_true, true_and]
    split_ifs with h <;> simp [h]

/-- The estimator registers after a LOOP from `s` (42_speed_estimator.md R140 to R145). -/
theorem sensed_spec (s : State) :
    (Transition s → (sensed s).lastTs = now s ∧ (sensed s).lastSector = s.ports.hall ∧ (sensed s).hasPrior = true) ∧
      (¬ Transition s → (sensed s).lastTs = s.lastTs ∧ (sensed s).lastSector = s.lastSector ∧
        (sensed s).hasPrior = s.hasPrior) ∧
      (Stalled s → (sensed s).rpm = 0) ∧
      (¬ Stalled s → Transition s → (sensed s).rpm =
        if s.hasPrior then rate (arithOf (advanceTick s)) s.cfg.kRpm (sinceTransition s) else 0) ∧
      (¬ Stalled s → ¬ Transition s → (sensed s).rpm = s.rpm) := by
  obtain ⟨h1, h2⟩ := estTransition_advance s
  have hs := estimate_stall_iff s
  have key : sensed s = if (estimate s.ports.hall (advanceTick s)).2 = true
      then { estTransition s.ports.hall (advanceTick s) with rpm := 0 }
      else estTransition s.ports.hall (advanceTick s) := by
    unfold sensed estimate
    dsimp only
    split <;> simp
  by_cases hst : Stalled s
  · rw [if_pos (hs.mpr hst)] at key
    by_cases ht : Transition s <;> simp [key, ht, hst, h1, h2, nextTick_eq_now]
  · rw [if_neg (fun h => hst (hs.mp h))] at key
    by_cases ht : Transition s
    · simp [key, ht, hst, h1, nextTick_eq_now]
      rfl
    · simp [key, ht, hst, h2]

/-! ### The FaultMonitor -/

theorem detect_eq_none_iff (c : Config) (m : Meas) (stall : Bool) :
    detect c m stall = .none ↔
      m.i < c.hardLimit ∧ m.v < c.ovLimit ∧ c.uvLimit < m.v ∧ m.t < c.otLimit ∧ validFlag m.hall = true ∧
        stall = false := by
  unfold detect
  split_ifs <;> simp_all

/-- DETECT answers None in a LOOP from `s` exactly when no fault condition holds (60_exceptions.md R271). -/
theorem detect_none_iff_healthy (s : State) :
    detect s.cfg (samplesValue s.ports) (estimate s.ports.hall (advanceTick s)).2 = .none ↔ Healthy s := by
  rw [detect_eq_none_iff, validFlag_iff, ← Bool.not_eq_true, estimate_stall_iff]
  exact ⟨fun ⟨a, b, c, d, e, f⟩ => ⟨a, b, c, d, e, f⟩, fun ⟨a, b, c, d, e, f⟩ => ⟨a, b, c, d, e, f⟩⟩

/-! ### The CurrentLimiter -/

/-- LIMIT, by the zone of the measured current (44_current_limiter.md R181 to R183). -/
theorem limit_cases (a : Arith) (q : Quantizer) (d : Int) (i soft hard : Quantity) :
    (hard ≤ i ∧ limit a q d i soft hard = { oc := true, duty := 0 }) ∨
      (i < hard ∧ soft ≤ i ∧
        limit a q d i soft hard = { oc := false, duty := foldbackDuty a q d i soft hard }) ∨
      (i < hard ∧ i < soft ∧ limit a q d i soft hard = { oc := false, duty := d }) := by
  unfold limit overcurrentFlag
  by_cases h : hard ≤ i
  · exact .inl ⟨h, by simp [h]⟩
  · by_cases h' : soft ≤ i
    · exact .inr (.inl ⟨not_le.mp h, h', by simp [h, h']⟩)
    · exact .inr (.inr ⟨not_le.mp h, not_le.mp h', by simp [h, h']⟩)

/-- At the soft threshold the foldback factor is 1 (44_current_limiter.md R185). -/
theorem foldbackDuty_at_soft (a : Arith) (q : Quantizer) (d : Int) (soft hard : Quantity) :
    foldbackDuty a q d soft soft hard = d := by simp [foldbackDuty]

/-- The foldback answers a duty and never raises it (44_current_limiter.md R185). -/
theorem foldbackDuty_range (a : Arith) (q : Quantizer) {d : Int} (hd : 0 ≤ d) (i soft hard : Quantity) :
    0 ≤ foldbackDuty a q d i soft hard ∧ foldbackDuty a q d i soft hard ≤ d := by
  unfold foldbackDuty
  split <;> omega

/-! ### The anti-windup clamp -/

/-- Whatever the bounds, AW answers a value of type Num. -/
theorem holdsNum_antiWindup (a : Arith) (c : Config) {x : Quantity} (hx : holdsNum a.model x = true) :
    holdsNum a.model (antiWindup a c x) = true := by
  have hf := holdsNum_magnitude (holdsNum_free a .boundedIntegral)
  unfold antiWindup
  split_ifs
  · split
    · rename_i h1 h2; exact holdsNum_clamp hx (holdsNum_of_roundIn h1) (holdsNum_of_roundIn h2)
    · rename_i h1 _; rcases max_choice x ‹_› with e | e <;> rw [e]
      · exact hx
      · exact holdsNum_of_roundIn h1
    · exact hf
  · split
    · rename_i h1 h2; exact holdsNum_clamp hx (holdsNum_of_roundIn h1) (holdsNum_of_roundIn h2)
    · rename_i _ h2; rcases min_choice x ‹_› with e | e <;> rw [e]
      · exact hx
      · exact holdsNum_of_roundIn h2
    · exact holdsNum_neg hf
  · exact hx

/-- Whatever overflows, AW does not answer the sign opposite to KI's, where the output bounds are not negative
(43_speed_controller.md R162). -/
theorem antiWindup_sign (a : Arith) {c : Config} (h0 : 0 ≤ c.outMin) (h1 : 0 ≤ c.outMax) (x : Quantity) :
    (0 < c.ki → 0 ≤ antiWindup a c x) ∧ (c.ki < 0 → antiWindup a c x ≤ 0) := by
  have hm := magnitude_nonneg (a.free .boundedIntegral)
  constructor <;> intro hk
  · unfold antiWindup
    rw [if_pos hk]
    split
    · rename_i e1 e2
      have := roundIn_nonneg (div_nonneg h0 hk.le) e1
      have := roundIn_nonneg (div_nonneg h1 hk.le) e2
      unfold clamp; split_ifs <;> linarith
    · rename_i e1 _
      exact (roundIn_nonneg (div_nonneg h0 hk.le) e1).trans (le_max_right _ _)
    · exact hm
  · have neg : ∀ {q r : Quantity}, 0 ≤ q → roundIn a.model (q / c.ki) = some r → r ≤ 0 := by
      intro q r hq e
      have e' := roundIn_neg a.model (q / c.ki)
      rw [e] at e'
      have := roundIn_nonneg (neg_nonneg.mpr (div_nonpos_of_nonneg_of_nonpos hq hk.le)) e'
      linarith
    unfold antiWindup
    rw [if_neg (not_lt.mpr hk.le), if_pos hk]
    split
    · rename_i e1 e2
      have := neg h1 e1
      have := neg h0 e2
      unfold clamp; split_ifs <;> linarith
    · rename_i e2
      exact (min_le_right _ _).trans (neg h0 e2)
    · linarith

/-- AW under exact arithmetic (43_speed_controller.md R162). -/
theorem antiWindup_exact (n : Nat) (c : Config) (x : Quantity) :
    antiWindup { model := .exact, draw := n } c x =
      if 0 < c.ki then clamp x (c.outMin / c.ki) (c.outMax / c.ki)
      else if c.ki < 0 then clamp x (c.outMax / c.ki) (c.outMin / c.ki) else x := rfl

/-! ### The outputs -/

theorem dutyWord_toNat (d : Int) : (dutyWord d).toNat = (max 0 (min d 1000)).toNat := by
  rw [dutyWord, BitVec.toNat_ofNat, Nat.mod_eq_of_lt]
  omega

/-- APPLY's clamp is no clamp on a duty (46_tick_pipeline.md R227). -/
theorem dutyWord_of_duty {d : Int} (h0 : 0 ≤ d) (h1 : d ≤ 1000) : ((dutyWord d).toNat : Int) = d := by
  rw [dutyWord_toNat]
  omega

/-- Steps 6 and 7 write the three output ports and nothing else. -/
theorem drive_frame (m : Meas) (target : Int) (soft : Quantity) (s : State) :
    drive m target soft s =
      { s with
        duty := (drive m target soft s).duty
        outPhase := (drive m target soft s).outPhase
        outEn := (drive m target soft s).outEn } := by
  unfold drive applyOutputs
  split <;> rfl

theorem commutate_of_valid (t : CommTable) (h : HallSector) (d : Direction) (hv : 1 ≤ h.toNat ∧ h.toNat ≤ 6) :
    commutate t h d = .pattern ((commRow t d)[h.toNat - 1]'(by omega)) := by
  simp [commutate, hv]

theorem commutate_of_invalid (t : CommTable) (h : HallSector) (d : Direction) (hv : ¬ (1 ≤ h.toNat ∧ h.toNat ≤ 6)) :
    commutate t h d = .hallError := by
  simp only [commutate, hv, dite_false]

/-- Under a valid configuration a pattern that COMMUTATE answers is one of the six (41_commutation.md R121). -/
theorem commutate_mem {c : Config} (hc : configOk c = true) {h : HallSector} {d : Direction} {p : PhasePattern}
    (hp : commutate c.commTable h d = .pattern p) : p ∈ sixStepPatterns := by
  have ht : tableOk c = true := by
    simp only [configOk, Bool.and_eq_true] at hc
    exact hc.1.1.2
  by_cases hv : 1 ≤ h.toNat ∧ h.toNat ≤ 6
  · rw [commutate_of_valid _ _ _ hv] at hp
    cases hp
    simp only [tableOk, rowOk, Bool.and_eq_true, List.all_eq_true, List.contains_iff_mem] at ht
    cases d
    · exact ht.1.1 _ (by simp [commRow])
    · exact ht.2.1 _ (by simp [commRow])
  · rw [commutate_of_invalid _ _ _ hv] at hp
    cases hp

/-- What steps 6 and 7 leave on the outputs: enabled with a pattern of the table, or off. -/
theorem drive_outputs (m : Meas) (target : Int) (soft : Quantity) (s : State) :
    (∃ p, commutate s.cfg.commTable m.hall s.dir = .pattern p ∧ (drive m target soft s).outPhase = p ∧
        (drive m target soft s).outEn = true ∧ (drive m target soft s).duty.toNat ≤ 1000) ∨
      (commutate s.cfg.commTable m.hall s.dir = .hallError ∧ OutputsOff (drive m target soft s)) := by
  unfold drive applyOutputs
  cases h : commutate s.cfg.commTable m.hall s.dir with
  | pattern p =>
    refine .inl ⟨p, rfl, rfl, rfl, ?_⟩
    simp only [dutyWord_toNat]
    omega
  | hallError => exact .inr ⟨rfl, outputsOff_off s⟩

/-! ### The whole tick -/

/-- The FaultCode that DETECT answers in a LOOP from `s`. -/
def detected (s : State) : FaultCode :=
  detect s.cfg (samplesValue s.ports) (estimate s.ports.hall (advanceTick s)).2

theorem sensed_state (s : State) : (sensed s).state = s.state := by rw [sensed_frame]

theorem sensed_cfg (s : State) : (sensed s).cfg = s.cfg := by rw [sensed_frame]

theorem senseAndMonitor_eq (s : State) :
    senseAndMonitor (samplesValue s.ports) s =
      if s.state = .stop ∨ s.state = .fault ∨ detected s = .none then sensed s else faultEntry (detected s) (sensed s) := by
  have h1 : senseAndMonitor (samplesValue s.ports) s =
      monitor (samplesValue s.ports) (estimate s.ports.hall (advanceTick s)).2 (sensed s) := rfl
  rw [h1, monitor, sensed_state, sensed_cfg, enterIfDetected_eq]
  cases h : s.state <;> simp [detected]

/-- What one tick does, by the state it starts in and by what it detects (46_tick_pipeline.md R220). -/
theorem tickPipeline_cases (s : State) :
    ((s.state = .stop ∨ s.state = .fault) ∧ tickPipeline (samplesValue s.ports) s = outputsOff (sensed s)) ∨
      ((s.state = .starting ∨ s.state = .running) ∧ ¬ Healthy s ∧ detected s ≠ .none ∧
        tickPipeline (samplesValue s.ports) s = faultEntry (detected s) (sensed s)) ∨
      (s.state = .starting ∧ Healthy s ∧
        tickPipeline (samplesValue s.ports) s = startingTick (samplesValue s.ports) (sensed s)) ∨
      (s.state = .running ∧ Healthy s ∧
        tickPipeline (samplesValue s.ports) s = runningTick (samplesValue s.ports) (sensed s)) := by
  have hd : detected s = .none ↔ Healthy s := detect_none_iff_healthy s
  have hs := sensed_state s
  have off : ∀ c x, outputsOff (faultEntry c x) = faultEntry c x := fun c x => rfl
  have fs : ∀ c x, (faultEntry c x).state = .fault := fun c x => rfl
  unfold tickPipeline control
  rw [senseAndMonitor_eq, ← hd]
  cases h : s.state <;> by_cases hn : detected s = .none <;> simp [hn, hs, h, off, fs]

/-- STARTING_STEP and the rest of its LOOP (45_state_machine.md R202). -/
theorem startingTick_cases (m : Meas) {s : State} {c : Config} {n : Nat} (hc : s.cfg = c) (hn : s.rampTicks = n) :
    (c.minRunRpm < s.rpm ∧ startingTick m s =
        drive m (rampDutyAt c.rampDuty (n + 1)) c.softLimit { s with rampTicks := s.rampTicks + 1, state := .running }) ∨
      (s.rpm ≤ c.minRunRpm ∧ c.rampTimeoutTicks ≤ n + 1 ∧
        startingTick m s = faultEntry .stall { s with rampTicks := s.rampTicks + 1 }) ∨
      (s.rpm ≤ c.minRunRpm ∧ n + 1 < c.rampTimeoutTicks ∧
        startingTick m s = drive m (rampDutyAt c.rampDuty (n + 1)) c.softLimit
          { s with rampTicks := s.rampTicks + 1 }) := by
  subst hc hn
  unfold startingTick
  by_cases h : s.cfg.minRunRpm < s.rpm
  · exact .inl ⟨h, by simp [h]⟩
  · by_cases h' : s.cfg.rampTimeoutTicks ≤ s.rampTicks + 1
    · exact .inr (.inl ⟨not_lt.mp h, h', by simp [h, h']⟩)
    · exact .inr (.inr ⟨not_lt.mp h, by omega, by simp [h, h']⟩)

/-- RUN_TARGET and the rest of its LOOP, by mode (46_tick_pipeline.md R222). -/
theorem runningTick_cases (m : Meas) (s : State) :
    (s.mode = .openLoop ∧ runningTick m s = drive m s.cfg.openLoopDuty s.cfg.softLimit s) ∨
      (s.mode = .speed ∧ runningTick m s = drive m (pidStep s.targetSpeed s.rpm s).2 s.cfg.softLimit
        (pidStep s.targetSpeed s.rpm s).1) ∨
      (s.mode = .torque ∧ runningTick m s = drive m ((10 * s.targetTorque.toNat : Nat) : Int)
        (torqueSoft (arithOf s) s.cfg s.targetTorque) s) := by
  unfold runningTick
  cases h : s.mode <;> simp

/-- A PID step writes its two registers and nothing else (43_speed_controller.md R160). -/
theorem pidStep_frame (target cur : Quantity) (s : State) :
    (pidStep target cur s).1 =
      { s with
        pidIntegral := (pidStep target cur s).1.pidIntegral
        pidPrevError := (pidStep target cur s).1.pidPrevError } := rfl

/-- What every tick writes and what it keeps: the tick, the draw counter and the estimator registers; `ramp_ticks` in a
healthy Starting tick only (46_tick_pipeline.md R220). -/
theorem tickPipeline_frame (s : State) :
    (tickPipeline (samplesValue s.ports) s).tick = now s ∧
      (tickPipeline (samplesValue s.ports) s).draws = s.draws + 1 ∧
      (tickPipeline (samplesValue s.ports) s).initDone = s.initDone ∧
      (tickPipeline (samplesValue s.ports) s).mode = s.mode ∧
      (tickPipeline (samplesValue s.ports) s).dir = s.dir ∧
      (tickPipeline (samplesValue s.ports) s).targetSpeed = s.targetSpeed ∧
      (tickPipeline (samplesValue s.ports) s).targetTorque = s.targetTorque ∧
      (tickPipeline (samplesValue s.ports) s).resp = s.resp ∧
      (tickPipeline (samplesValue s.ports) s).ports = s.ports ∧
      (tickPipeline (samplesValue s.ports) s).pending = s.pending ∧
      (tickPipeline (samplesValue s.ports) s).cfg = s.cfg ∧
      (tickPipeline (samplesValue s.ports) s).lastTs = (sensed s).lastTs ∧
      (tickPipeline (samplesValue s.ports) s).lastSector = (sensed s).lastSector ∧
      (tickPipeline (samplesValue s.ports) s).hasPrior = (sensed s).hasPrior ∧
      (tickPipeline (samplesValue s.ports) s).rpm = (sensed s).rpm ∧
      (s.state = .starting ∧ Healthy s → (tickPipeline (samplesValue s.ports) s).rampTicks = s.rampTicks + 1) ∧
      (¬ (s.state = .starting ∧ Healthy s) → (tickPipeline (samplesValue s.ports) s).rampTicks = s.rampTicks) := by
  have hf := sensed_frame s
  rcases tickPipeline_cases s with ⟨h, e⟩ | ⟨h, hh, hd, e⟩ | ⟨h, hh, e⟩ | ⟨h, hh, e⟩ <;> rw [e]
  · rw [hf]
    rcases h with h | h <;> simp [outputsOff, h]
  · rw [faultEntry_eq, hf]
    simp [hh]
  · rcases startingTick_cases (samplesValue s.ports) (s := sensed s) rfl rfl with ⟨_, e⟩ | ⟨_, _, e⟩ | ⟨_, _, e⟩ <;>
      rw [e]
    · rw [drive_frame, hf]; simp [h, hh]
    · rw [faultEntry_eq, hf]; simp [h, hh]
    · rw [drive_frame, hf]; simp [h, hh]
  · rcases runningTick_cases (samplesValue s.ports) (sensed s) with ⟨_, e⟩ | ⟨_, e⟩ | ⟨_, e⟩ <;> rw [e]
    · rw [drive_frame, hf]; simp [h]
    · rw [drive_frame, pidStep_frame, hf]; simp [h]
    · rw [drive_frame, hf]; simp [h]

/-- What a LOOP answers when it answers a next state. -/
theorem execLoop_eq_next {s t : State} :
    execLoop s = .next t ↔
      configOk s.cfg = true ∧ s.initDone = true ∧ samplesFinite s.ports = true ∧
        t = tickPipeline (samplesValue s.ports) s := by
  unfold execLoop
  rw [whenReady_eq_next, withSample_eq_next, Host.Outcome.next.injEq, eq_comm (a := t)]

theorem execLoop_of_ready {s : State} (h : Ready s) (hf : FiniteSample s) :
    execLoop s = .next (tickPipeline (samplesValue s.ports) s) :=
  execLoop_eq_next.mpr ⟨h.1, h.2, hf, rfl⟩

end Sys2Proof.Machine
end

