-- ==== Sys2Proof/Laws/Step.lean ====
section
/-! SUPPORT. What a command and a step can do, said once: the inversion of `exec` and of `step`. -/

namespace Sys2Proof.Machine

open Sys2Proof.Safety

/-- What a command did when it answered a next state. -/
theorem exec_next_cases {i : Instr} {s t : State} (h : exec i s = .next t) :
    configOk s.cfg = true ∧
      ((i = .init ∧ s.initDone = false ∧ t = initialise s) ∨
        (s.initDone = true ∧
          ((i = .start ∧ t = startCommand s) ∨ (i = .stop ∧ t = stopCommand s) ∨
            (∃ v, i = .setSpeed v ∧ t = { s with targetSpeed := value32 v }) ∨
            (∃ p, i = .setTorque p ∧ t = { s with targetTorque := p }) ∨
            (∃ c, i = .faultHandler c ∧ t = faultCommand c s) ∨
            (i = .getFault ∧ t = respond (faultResponse s.fault) s) ∨
            (i = .clearFault ∧ FiniteSample s ∧ t = clearCommand (samplesValue s.ports) s) ∨
            (i = .loop ∧ FiniteSample s ∧ t = tickPipeline (samplesValue s.ports) s) ∨
            (∃ m, i = .setMode m ∧ t = modeCommand m s) ∨ (∃ d, i = .setDirection d ∧ t = directionCommand d s)))) := by
  cases i <;>
    simp only [exec, execInit, execStart, execStop, execSetSpeed, execSetTorque, execFaultHandler, execGetFault,
      execClearFault, execLoop, execSetMode, execSetDirection, whenReady_eq_next, whenUninitialised_eq_next,
      withSample_eq_next, Host.Outcome.next.injEq] at h
  all_goals obtain ⟨hc, hi, h⟩ := h
  case init => exact ⟨hc, .inl ⟨rfl, hi, h.symm⟩⟩
  all_goals
    refine ⟨hc, .inr ⟨hi, ?_⟩⟩
    first
    | subst h; simp [speedOperand, percentOperand]
    | obtain ⟨hf, rfl⟩ := h; simpa [FiniteSample] using hf

/-- What a step did when it answered a next state: nothing, or the presented command. -/
theorem step_next_cases {s t : State} (h : step s = .next t) :
    configOk s.cfg = true ∧
      ((s.pending = [] ∧ t = s) ∨
        ∃ p rest i, s.pending = p :: rest ∧ decode p.cmd = .ok i ∧ exec i (accept p rest s) = .next t) := by
  unfold step at h
  split at h
  · cases h
  · rename_i hc
    refine ⟨by simpa using hc, ?_⟩
    split at h
    · rename_i hp
      cases h
      exact .inl ⟨hp, rfl⟩
    · rename_i p rest hp
      split at h
      · cases h
      · rename_i i hd
        exact .inr ⟨p, rest, i, hp, hd, h⟩

/-- A property that no command but INIT breaks, and INIT establishes, is kept by every step: taking a presented command
touches only the command queue and the input ports. -/
theorem step_keeps {P : State → Prop} (haccept : ∀ p rest s, P s → P (accept p rest s))
    (hexec : ∀ i s t w, decode w = .ok i → P s → exec i s = .next t → P t) {s t : State} (hs : P s)
    (h : step s = .next t) : P t := by
  obtain ⟨-, ⟨-, rfl⟩ | ⟨p, rest, i, -, hd, he⟩⟩ := step_next_cases h
  · exact hs
  · exact hexec i _ t _ hd (haccept p rest s hs) he

/-! ### The state-free part of each command -/

theorem startCommand_eq (s : State) : startCommand s = if s.state = .stop then enterStarting s else s := by
  cases s
  cases ‹MotorState› <;> rfl

theorem stopCommand_eq (s : State) :
    stopCommand s = if s.state = .starting ∨ s.state = .running then leaveToStop s else outputsOff s := by
  cases s
  cases ‹MotorState› <;> rfl

/-! ### What a valid configuration gives -/

/-- The consequences of a valid configuration that the proofs use (00_scope.md R7 to R10). -/
structure ConfigFacts (c : Config) : Prop where
  dt : 0 < c.dt
  kRpm : 0 < c.kRpm
  minRun : 0 ≤ c.minRunRpm
  outMin : 0 ≤ c.outMin
  outOrder : c.outMin ≤ c.outMax
  outMax : c.outMax ≤ 1000
  limits : c.softLimit < c.hardLimit
  ramp : ∀ n, rampDutyAt c.rampDuty n ≤ 1000
  openLoop : c.openLoopDuty ≤ 1000
  nums : ∀ x ∈ configNums c, holdsNum c.numModel x = true

theorem configFacts {c : Config} (h : configOk c = true) : ConfigFacts c := by
  simp only [configOk, timingOk, boundsOk, limitsOk, dutiesOk, numsOk, Bool.and_eq_true, decide_eq_true_eq,
    List.all_eq_true] at h
  obtain ⟨⟨⟨⟨⟨⟨⟨⟨⟨h1, h2⟩, -⟩, h4⟩, ⟨h5, h6⟩, h7⟩, h8, -⟩, ⟨⟨h10, h11⟩, h12⟩, -⟩, -⟩, -⟩, h13⟩ := h
  refine ⟨h1, h2, h4, h5, h6, h7, h8, fun n => ?_, h12, h13⟩
  unfold rampDutyAt
  rw [List.getD_eq_getElem?_getD]
  cases hn : c.rampDuty.steps[n - 1]? with
  | none => simpa using h11
  | some d => simpa using h10 d (List.mem_of_getElem? hn)

end Sys2Proof.Machine
end

