-- ==== Sys2Proof/Tests/Slice0.lean ====
section
/-! SUPPORT. Tests of the model against the vectors and programs of 95_test_vectors.md, and for every obligation with
hypotheses a state and operands that meet them. Every expected value of a test is the spec's, named by its vector. -/

-- The tests are checked one after the other: each `decide +kernel` at once would need a thread of its own.
set_option Elab.async false

namespace Sys2Proof.Tests

open Sys2Proof.Machine Sys2Proof.Safety

/-! ### Small states -/

/-- 24.0 on `v_meas` and 40.0 on `t_meas`: the nominal samples N of 95_test_vectors.md, with `i_meas` given. -/
def nominal (hall : HallSector) (i : Word32) : Samples :=
  { hall := hall, iMeas := i, vMeas := 0x41C00000, tMeas := 0x42200000 }

/-- The state INIT leaves under a configuration, with samples at 1000 mA on the ports. -/
def stopped (c : Config) (hall : HallSector) : State :=
  { initialise (State.powerOn c) with ports := nominal hall 0x447A0000 }

/-- Program P1 after its step 6, with `hall` on the port: Running at 2000 rpm. -/
def running (c : Config) (hall : HallSector) : State :=
  { stopped c hall with
    state := .running, targetSpeed := 3000, hasPrior := true, lastTs := 6, tick := 6, lastSector := 3, rpm := 2000,
    rampTicks := 6, duty := 200, outPhase := 0x21, outEn := true }

/-- Program P1 after its step 5, with `hall` on the port: Starting, one transition seen. -/
def starting (c : Config) (hall : HallSector) : State :=
  { stopped c hall with
    state := .starting, targetSpeed := 3000, hasPrior := true, lastTs := 1, tick := 5, lastSector := 1, rampTicks := 5,
    duty := 200, outPhase := 0x09, outEn := true }

/-- In Fault with a latched code, with samples on the ports. -/
def faulted (code : FaultCode) (p : Samples) : State :=
  { stopped Config.tc1 3#3 with state := .fault, fault := code, ports := p }

/-- The command answers a next state, and the test holds of it. -/
def answers (r : Result) (test : State → Bool) : Bool :=
  match r with
  | .next t => test t
  | .fault _ => false
  | .refused _ => false

theorem answers_iff (r : Result) (test : State → Bool) : answers r test = true ↔ ∃ t, r = .next t ∧ test t = true := by
  cases r <;> simp [answers]

/-- The refusal of a command. -/
def refusal (r : Result) : Option Refusal :=
  match r with
  | .next _ => none
  | .fault _ => none
  | .refused x => some x

/-! ### WellFormed: an ill-formed term for each check -/

theorem test_wellFormed_speed_infinite : Instr.wellFormed (.setSpeed 0x7F800000#32) = false := by decide

theorem test_wellFormed_torque_101 : Instr.wellFormed (.setTorque 101#7) = false := by decide

/-! ### Decoding: L2-D -/

theorem test_decode_init : decode 0x0100000000#40 = .ok .init := by decide

theorem test_decode_start : decode 0x0200000000#40 = .ok .start := by decide

theorem test_decode_stop : decode 0x0300000000#40 = .ok .stop := by decide

theorem test_decode_setSpeed : decode 0x0444BB8000#40 = .ok (.setSpeed 0x44BB8000#32) := by decide

theorem test_decode_setTorque : decode 0x0500000064#40 = .ok (.setTorque 100#7) := by decide

theorem test_decode_faultHandler : decode 0x0600000006#40 = .ok (.faultHandler .stall) := by decide

theorem test_decode_getFault : decode 0x0700000000#40 = .ok .getFault := by decide

theorem test_decode_clearFault : decode 0x0800000000#40 = .ok .clearFault := by decide

theorem test_decode_loop : decode 0x0900000000#40 = .ok .loop := by decide

theorem test_decode_setMode : decode 0x0A00000002#40 = .ok (.setMode .torque) := by decide

theorem test_decode_setDirection : decode 0x0B00000001#40 = .ok (.setDirection .ccw) := by decide

/-- X3, X4, X5. -/
theorem test_decode_reserved_opcodes :
    decode 0x0000000000#40 = .error .reservedOpcode ∧ decode 0x0C00000000#40 = .error .reservedOpcode ∧
      decode 0xFFFFFFFFFF#40 = .error .reservedOpcode := by decide

/-- X2, X10, X11, X13, X14, X16, X18, X20. -/
theorem test_decode_reserved_operands :
    decode 0x0100000001#40 = .error .reservedOperand ∧ decode 0x047F800000#40 = .error .reservedOperand ∧
      decode 0x047FC00000#40 = .error .reservedOperand ∧ decode 0x0500000065#40 = .error .reservedOperand ∧
      decode 0x0500000080#40 = .error .reservedOperand ∧ decode 0x0600000007#40 = .error .reservedOperand ∧
      decode 0x0A00000003#40 = .error .reservedOperand ∧ decode 0x0B00000002#40 = .error .reservedOperand := by decide

/-- X9: −0.0 is another word of the value 0. -/
theorem test_decode_negative_zero :
    decode 0x0480000000#40 = .ok (.setSpeed 0x80000000#32) ∧ value32 0x80000000#32 = 0 := by decide +kernel

/-- R73: cmd[7:0] first. -/
theorem test_link : decodeBytes [0x64, 0, 0, 0, 0x05, 0xFF] = .command (.setTorque 100#7) [0xFF] := by decide

theorem test_assembler_number :
    assembleLine "SET_SPEED -500.0 ; X8" = some [present (.setSpeed 0xC3FA0000#32) Samples.rest] := by decide +kernel

/-- `LOOP*n` with the samples of the second LOOP line of program P1. -/
def loopLine (digits : List Char) : String :=
  String.ofList ("LOOP*".toList ++ digits ++ [' ', Char.ofNat 0x7B] ++ "hall=1, i=1000, v=24, t=40".toList
    ++ [Char.ofNat 0x7D])

/-- The second LOOP line of program P1; R104 for n = 0. -/
theorem test_assembler_loops :
    assembleLine (loopLine ['4']) = some (List.replicate 4 { cmd := 0x0900000000#40, samples := nominal 1 0x447A0000 }) ∧
      assembleLine (loopLine ['0']) = none := by decide +kernel

/-! ### Rounding (R16) -/

/-- 0.1 in both formats, the values IEEE-754 gives; overflow has no finite value; ties go to even. -/
theorem test_rounding :
    FloatFormat.single.round (1 / 10) = some (13421773 / 134217728) ∧
      FloatFormat.double.round (1 / 10) = some (3602879701896397 / 36028797018963968) ∧
      FloatFormat.single.round (2 ^ 128) = none ∧ FloatFormat.single.round 16777217 = some 16777216 ∧
      FloatFormat.single.round (1 / 2 ^ 150) = some 0 := by decide +kernel

/-! ### Commands: L2-S, L2-F, L2-K and the programs -/

/-- P1 step 1, under TC1. -/
theorem test_init :
    answers (exec .init State.reset) (fun t => t.initDone && t.state == .stop && t.mode == .speed && t.dir == .cw) = true := by
  decide +kernel

/-- X23. -/
theorem test_init_twice : refusal (exec .init (stopped Config.tc1 1)) = some .alreadyInitialised := by decide +kernel

/-- S1, P2 step 10: `lts` is kept. -/
theorem test_start :
    answers (exec .start { stopped Config.tc1 3 with hasPrior := true, rpm := 2000, lastSector := 3, lastTs := 6 })
      (fun t => t.state == .starting && t.rpm == 0 && t.lastSector == 0 && t.lastTs == 6 && !t.hasPrior && !t.outEn)
      = true := by decide +kernel

/-- S7. -/
theorem test_start_running :
    answers (exec .start (running Config.tc1 3)) (fun t => t == running Config.tc1 3) = true := by decide +kernel

/-- S6. -/
theorem test_stop_running :
    answers (exec .stop { running Config.tc1 3 with pidIntegral := 2, pidPrevError := 1000 })
      (fun t => t.state == .stop && t.pidIntegral == 0 && t.pidPrevError == 0 && t.duty == 0 && t.outPhase == 0 && !t.outEn)
      = true := by decide +kernel

/-- S10. -/
theorem test_stop_fault :
    answers (exec .stop (faulted .overcurrent (nominal 3 0x447A0000)))
      (fun t => t.state == .fault && t.fault == .overcurrent) = true := by decide +kernel

/-- K1. -/
theorem test_setSpeed :
    answers (exec (.setSpeed 0x44BB8000) (faulted .overcurrent (nominal 3 0x447A0000)))
      (fun t => t.targetSpeed == 1500 && !t.outEn) = true := by decide +kernel

/-- K2. -/
theorem test_setTorque :
    answers (exec (.setTorque 40) (running Config.tc1 3)) (fun t => t.targetTorque == 40 && t.duty == 200) = true := by
  decide +kernel

/-- F15. -/
theorem test_faultHandler_first_code :
    answers (exec (.faultHandler .hallError) (faulted .overcurrent (nominal 3 0x447A0000)))
      (fun t => t.fault == .overcurrent) = true := by decide +kernel

/-- F16. -/
theorem test_faultHandler_stop :
    answers (exec (.faultHandler .overtemp) (stopped Config.tc1 3)) (fun t => t.state == .fault && t.fault == .overtemp)
      = true := by decide +kernel

/-- F18. -/
theorem test_getFault :
    answers (exec .getFault (faulted .stall (nominal 3 0x447A0000))) (fun t => t.resp == 0x00000006) = true := by
  decide +kernel

/-- F19: 10000 mA. -/
theorem test_clearFault_unsafe :
    answers (exec .clearFault (faulted .overcurrent (nominal 3 0x461C4000))) (fun t => t.state == .fault) = true := by
  decide +kernel

/-- F30: only the latched code's condition is verified; 500 mA, 70 V. -/
theorem test_clearFault_safe :
    answers (exec .clearFault (faulted .overcurrent { nominal 3 0x43FA0000 with vMeas := 0x428C0000 }))
      (fun t => t.state == .stop && t.fault == .none) = true := by decide +kernel

/-- P3 step 2. -/
theorem test_setMode :
    answers (exec (.setMode .openLoop) (stopped Config.tc1 3)) (fun t => t.mode == .openLoop) = true := by decide +kernel

/-- K4. -/
theorem test_setMode_running :
    answers (exec (.setMode .torque) (running Config.tc1 3)) (fun t => t.mode == .speed) = true := by decide +kernel

/-- K6. -/
theorem test_setDirection :
    answers (exec (.setDirection .ccw) (stopped Config.tc1 3)) (fun t => t.dir == .ccw) = true := by decide +kernel

/-- K5. -/
theorem test_setDirection_fault :
    answers (exec (.setDirection .ccw) (faulted .stall (nominal 3 0x447A0000))) (fun t => t.dir == .cw) = true := by
  decide +kernel

/-- P1 step 7 (L1-1, G1, T5). -/
theorem test_loop_speed :
    answers (exec .loop (running Config.tc1 3))
      (fun t => t.tick == 7 && t.duty == 500 && t.pidIntegral == 1 && t.pidPrevError == 1000 && t.outPhase == 0x21)
      = true := by decide +kernel

/-- P1 step 6: the promoting LOOP. -/
theorem test_loop_promotes :
    answers (exec .loop (starting Config.tc1 3))
      (fun t => t.state == .running && t.rpm == 2000 && t.lastTs == 6 && t.rampTicks == 6 && t.duty == 200
        && t.outPhase == 0x21) = true := by decide +kernel

/-! ### The components of LOOP: L2-E, L2-P, L2-L, L2-F -/

/-- E7, E12. -/
theorem test_estimator :
    (estimate 4 { running Config.tc1 4 with lastSector := 1, lastTs := 5, tick := 8 }).1.rpm = 10000 / 3 ∧
      (estimate 4 { running Config.tc1 4 with tick := 27 }).2 = false ∧
      (estimate 4 { running Config.tc1 4 with tick := 27 }).1.rpm = 10000 / 21 := by decide +kernel

/-- E8, E9. -/
theorem test_estimator_stall :
    (estimate 3 { running Config.tc1 3 with tick := 26 }).2 = false ∧
      (estimate 3 { running Config.tc1 3 with tick := 27 }).2 = true ∧
      (estimate 3 { running Config.tc1 3 with tick := 27 }).1.rpm = 0 := by decide +kernel

/-- G2, G4, G10. -/
theorem test_pid :
    pidStep 3000 2000 { running Config.tc1 3 with pidIntegral := 199999 / 2, pidPrevError := 1000 }
        = ({ running Config.tc1 3 with pidIntegral := 100000, pidPrevError := 1000 }, 1000) ∧
      pidStep 2900 2000 { running Config.tc3 3 with pidIntegral := 5, pidPrevError := 1000 }
        = ({ running Config.tc3 3 with pidIntegral := 59 / 10, pidPrevError := 900 }, 440) ∧
      (pidStep 3000 2000 (running { Config.tc1 with ki := -1 / 100 } 3)).1.pidIntegral = 0 ∧
      (pidStep 3000 2000 (running { Config.tc1 with ki := -1 / 100 } 3)).2 = 500 := by decide +kernel

/-- L3, L5, L7, L8, L11. -/
theorem test_limit :
    ([8001, 9500, 10000, -50].map fun i => limit { model := .exact, draw := 0 } .floor 500 i 8000 10000)
        = [{ oc := false, duty := 499 }, { oc := false, duty := 125 }, { oc := true, duty := 0 },
          { oc := false, duty := 500 }] ∧
      limit { model := .exact, draw := 0 } .floor 333 9000 8000 10000 = { oc := false, duty := 166 } := by decide +kernel

/-- R185 under binary32: at I = soft the result is d_in, where the rounded evaluation of R180 falls below it. -/
theorem test_limit_at_soft_rounded :
    limit { model := .binary32, draw := 0 } .floor 3 0 0 (3 / 2 + 3 / 2 ^ 22) = { oc := false, duty := 3 } ∧
      foldback { model := .binary32, draw := 0 } 3 0 0 (3 / 2 + 3 / 2 ^ 22) < 3 := by decide +kernel

/-- R162: never negative for KI > 0, where OUT_MAX / KI overflows binary32. -/
theorem test_antiWindup_tinyGain :
    antiWindup { model := .binary32, draw := 0 } { Config.tc1 with ki := 1 / 2 ^ 140 } (-5) = 0 ∧
      antiWindup { model := .binary32, draw := 0 } { Config.tc1 with ki := 1 / 2 ^ 140 } 5 = 5 := by decide +kernel

/-- Q2, Q3. -/
theorem test_torque :
    torqueSoft { model := .exact, draw := 0 } Config.tc1 50#7 = 4000 ∧
      limit { model := .exact, draw := 0 } .floor 500 6000 4000 10000 = { oc := false, duty := 333 } ∧
      torqueSoft { model := .exact, draw := 0 } Config.tc1 25#7 = 2000 ∧
      limit { model := .exact, draw := 0 } .floor 250 6000 2000 10000 = { oc := false, duty := 125 } := by decide +kernel

/-- F1 to F6. -/
theorem test_detect :
    detect Config.tc1 { hall := 0, i := 12000, v := 70, t := 150 } false = .overcurrent ∧
      detect Config.tc1 { hall := 0, i := 1000, v := 70, t := 150 } false = .overvoltage ∧
      detect Config.tc1 { hall := 0, i := 1000, v := 5, t := 150 } false = .undervoltage ∧
      detect Config.tc1 { hall := 0, i := 1000, v := 24, t := 100 } false = .overtemp ∧
      detect Config.tc1 { hall := 7, i := 1000, v := 24, t := 40 } false = .hallError ∧
      detect Config.tc1 { hall := 3, i := 1000, v := 24, t := 40 } true = .stall := by decide +kernel

/-! ### Steps, and the refusals outside decoding -/

/-- P1 step 2, as a step: the word leaves the queue. -/
theorem test_step :
    answers (step ((stopped Config.tc1 3).withFetchWord 40 0x04453B8000))
      (fun t => t.targetSpeed == 3000 && t.pending == []) = true := by decide +kernel

/-- X22, X24 (i = NaN), X25. -/
theorem test_refusals :
    refusal (step (State.reset.withFetchWord 40 0x0900000000)) = some .notInitialised ∧
      refusal (exec .loop { running Config.tc1 3 with ports := nominal 3 0x7FC00000 }) = some .nonFiniteSample ∧
      refusal (step (State.powerOn { Config.tc1 with softLimit := 10000 })) = some .invalidConfig := by decide +kernel

/-! ### Witnesses: states and operands that meet the hypotheses of the obligations, at the boundary of each clause -/

/-- A state with one command presented. -/
def presenting (cmd : CommandWord) (s : State) : State := { s with pending := [{ cmd := cmd, samples := s.ports }] }

theorem tc1_ok : configOk Config.tc1 = true := by decide +kernel

theorem tc2_ok : configOk Config.tc2 = true := by decide +kernel

/-- TC1 with a negative, and with a zero, KI; with an 8-bit tick; and in OpenLoop and in Torque mode. -/
theorem variants_ok :
    configOk { Config.tc1 with ki := -1 / 100 } = true ∧ configOk { Config.tc1 with ki := 0 } = true ∧
      configOk { Config.tc1 with tickWidth := some 8 } = true := by decide +kernel

/-- A running state with an 8-bit tick that wrapped since the last transition. -/
def wrapped : State := { running { Config.tc1 with tickWidth := some 8 } 4 with tick := 2, lastTs := 250 }

/-- TC1 under binary32: DT, KP and KI rounded into the format. -/
def tc1Single : Config :=
  { Config.tc1 with numModel := .binary32, dt := mkRat 8589935 8589934592, ki := mkRat 10737418 1073741824 }

theorem tc1Single_ok : configOk tc1Single = true := by decide +kernel

/-- KI so small, with either sign, that OUT_MAX / KI has no finite value under binary32. -/
theorem tinyGain_ok :
    configOk { tc1Single with ki := 1 / 2 ^ 140 } = true ∧ configOk { tc1Single with ki := -1 / 2 ^ 140 } = true := by
  decide +kernel

theorem stopped_ready (h : HallSector) : Ready (stopped Config.tc1 h) := ⟨tc1_ok, rfl⟩

theorem running_ready (h : HallSector) : Ready (running Config.tc1 h) := ⟨tc1_ok, rfl⟩

theorem starting_ready (h : HallSector) : Ready (starting Config.tc1 h) := ⟨tc1_ok, rfl⟩

theorem faulted_ready (c : FaultCode) (p : Samples) : Ready (faulted c p) := ⟨tc1_ok, rfl⟩

theorem running_finite (c : Config) (h : HallSector) : FiniteSample (running c h) := by
  show samplesFinite (nominal h _) = true
  decide +revert +kernel

theorem starting_finite (c : Config) (h : HallSector) : FiniteSample (starting c h) := by
  show samplesFinite (nominal h _) = true
  decide +revert +kernel

/-- The nominal running state is healthy, and so is the starting one. -/
theorem running_healthy : Healthy (running Config.tc1 3) where
  current := by decide +kernel
  overvoltage := by decide +kernel
  undervoltage := by decide +kernel
  temperature := by decide +kernel
  sector := ⟨by decide, by decide⟩
  stall := fun h => absurd h.2.2 (by decide +kernel)

theorem starting_healthy : Healthy (starting Config.tc1 3) where
  current := by decide +kernel
  overvoltage := by decide +kernel
  undervoltage := by decide +kernel
  temperature := by decide +kernel
  sector := ⟨by decide, by decide⟩
  stall := fun h => absurd h.1 (by decide)

/-! #### Encoding -/

theorem witness_DecodeOfEncode :
    Instr.wellFormed (.setTorque 100#7) = true ∧ Instr.wellFormed (.setSpeed 0xFF7FFFFF#32) = true := by decide

theorem witness_EncodeOfDecode : decode 0x0500000064#40 = .ok (.setTorque 100#7) := by decide

theorem witness_ReservedOpcode :
    configOk (presenting 0x0C00000000#40 State.reset).cfg = true ∧
      (presenting 0x0C00000000#40 State.reset).pending = { cmd := 0x0C00000000#40, samples := Samples.rest } :: [] ∧
      (opField 0x0000000000#40).toNat = 0 ∧ 0x0C ≤ (opField 0x0C00000000#40).toNat ∧
      0x0C ≤ (opField 0xFFFFFFFFFF#40).toNat := ⟨tc1_ok, rfl, by decide, by decide, by decide⟩

/-- One word for each clause: the first operand beyond the legal ones. -/
theorem witness_ReservedOperand :
    configOk (presenting 0x0500000065#40 State.reset).cfg = true ∧
      (presenting 0x0500000065#40 State.reset).pending = { cmd := 0x0500000065#40, samples := Samples.rest } :: [] ∧
      decode 0x0900000001#40 = .error .reservedOperand ∧ decode 0x047F800000#40 = .error .reservedOperand ∧
      decode 0x0500000065#40 = .error .reservedOperand ∧ decode 0x0500000080#40 = .error .reservedOperand ∧
      decode 0x0600000007#40 = .error .reservedOperand ∧ decode 0x0600000008#40 = .error .reservedOperand ∧
      decode 0x0A00000003#40 = .error .reservedOperand ∧ decode 0x0A00000004#40 = .error .reservedOperand ∧
      decode 0x0B00000002#40 = .error .reservedOperand :=
  ⟨tc1_ok, rfl, by decide, by decide, by decide, by decide, by decide, by decide, by decide, by decide, by decide⟩

/-- Both ends of the link. -/
theorem witness_Link :
    (linkBytes 0x0500000064#40)[0]? = some 0x64#8 ∧ (linkBytes 0x0500000064#40)[4]? = some 0x05#8 := by decide

theorem witness_BinaryDatum : finite32 0x7F7FFFFF#32 = true ∧ finite32 0x80000001#32 = true := by decide

/-- A line of one command; the words of `LOOP*4` and of `LOOP*0` with a sample list. -/
theorem witness_AssemblerPresents :
    assembleLine "SET_TORQUE 100" = some [{ cmd := 0x0500000064#40, samples := Samples.rest }] ∧
      (['4'] ≠ [] ∧ (∀ c ∈ ['4'], c.isDigit = true) ∧
        4 = ['4'].foldl (fun value c => 10 * value + (c.toNat - '0'.toNat)) 0 ∧
        lineWords (loopLine ['4']) = String.ofList ("LOOP*".toList ++ ['4']) :: (lineWords (loopLine ['4'])).tail ∧
        readSamples (lineWords (loopLine ['4'])).tail = some (nominal 1 0x447A0000)) ∧
      (0 = ['0'].foldl (fun value c => 10 * value + (c.toNat - '0'.toNat)) 0 ∧
        lineWords (loopLine ['0']) = String.ofList ("LOOP*".toList ++ ['0']) :: (lineWords (loopLine ['0'])).tail ∧
        readSamples (lineWords (loopLine ['0'])).tail = some (nominal 1 0x447A0000)) :=
  ⟨by decide +kernel, ⟨nofun, by simp, by decide +kernel, by decide +kernel, by decide +kernel⟩,
    by decide +kernel, by decide +kernel, by decide +kernel⟩

theorem witness_AssemblerWrites :
    (0 : Quantity) ≤ 500 ∧ word32Of true 500 = some 0xC3FA0000#32 ∧ word32Of true 0 = some 0x80000000#32 := by
  decide +kernel

/-! #### The step, configuration and arithmetic -/

theorem witness_StepRuns :
    configOk (presenting 0x0100000000#40 State.reset).cfg = true ∧
      (presenting 0x0100000000#40 State.reset).pending = [{ cmd := 0x0100000000#40, samples := Samples.rest }] ∧
      decode 0x0100000000#40 = .ok .init := ⟨tc1_ok, rfl, by decide⟩

theorem witness_StepWithoutCommand : configOk State.reset.cfg = true ∧ State.reset.pending = [] := ⟨tc1_ok, rfl⟩

/-- X25. -/
theorem witness_InvalidConfig : configOk (State.powerOn { Config.tc1 with softLimit := 10000 }).cfg = false := by
  decide +kernel

theorem witness_CommandsBeforeInit :
    configOk State.reset.cfg = true ∧ State.reset.initDone = false ∧ Instr.loop ≠ .init ∧
      configOk (stopped Config.tc1 3).cfg = true ∧ (stopped Config.tc1 3).initDone = true :=
  ⟨tc1_ok, rfl, nofun, tc1_ok, rfl⟩

/-- A NaN current, an infinite voltage, an infinite temperature. -/
theorem witness_NonFiniteSample :
    Ready { running Config.tc1 3 with ports := nominal 3 0x7FC00000 } ∧
      ¬ FiniteSample { running Config.tc1 3 with ports := nominal 3 0x7FC00000 } ∧
      ¬ FiniteSample { running Config.tc1 3 with ports := { nominal 3 0 with vMeas := 0x7F800000 } } ∧
      ¬ FiniteSample { running Config.tc1 3 with ports := { nominal 3 0 with tMeas := 0xFF800000 } } :=
  ⟨running_ready 3, by show ¬ (samplesFinite _ = true); decide, by show ¬ (samplesFinite _ = true); decide,
    by show ¬ (samplesFinite _ = true); decide⟩

theorem witness_EveryReadyCommand :
    Ready (running Config.tc1 3) ∧ Instr.loop ≠ .init ∧ FiniteSample (running Config.tc1 3) :=
  ⟨running_ready 3, nofun, running_finite _ 3⟩

theorem witness_Quantizer :
    (0 : Quantity) ≤ 0 ∧ (0 : Quantity) ≤ 1000 ∧ (1000 : Quantity) ≤ 1000 ∧ 1000 ≤ 1000 ∧
      ((500 : Int) : Quantity) ≤ 50001 / 100 := by decide +kernel

/-- A step that answers a next state, under a configuration that is not the reset one. -/
theorem witness_ConfigurationIsConstant :
    ∃ t, step (presenting 0x0200000000#40 (stopped tc1Single 3)) = .next t :=
  let ⟨t, h, _⟩ := (answers_iff _ (fun _ => true)).mp (by decide +kernel); ⟨t, h⟩

theorem witness_ExactOperations : (7 : Quantity) ≠ 0 := by decide

/-- Both formats; a tie between 2^24 and 2^24 + 2, which goes to the even neighbour; the two sides of binary32's overflow
threshold. -/
theorem witness_Rounding :
    (NumModel.binary32, 24, -126, 127) ∈ binaryFormats ∧ (NumModel.binary64, 53, -1022, 1023) ∈ binaryFormats ∧
      (roundIn .binary32 16777217 = some 16777216 ∧ holdsNum .binary32 16777218 = true ∧
        (16777218 : Quantity) ≠ 16777216 ∧ |(16777217 : Quantity) - 16777216| = |(16777217 : Quantity) - 16777218|) ∧
      roundIn .binary32 ((2 - 1 / 2 ^ 24) * 2 ^ 127) = none ∧
      roundIn .binary32 ((2 - 1 / 2 ^ 24) * 2 ^ 127 - 1) = some ((2 ^ 24 - 1) * 2 ^ 104) := by
  refine ⟨by decide, by decide, ⟨by decide +kernel, by decide +kernel, by decide +kernel, by norm_num⟩, by decide +kernel,
    by decide +kernel⟩

/-! #### Commands -/

theorem witness_Init : configOk State.reset.cfg = true ∧ State.reset.initDone = false := ⟨tc1_ok, rfl⟩

theorem witness_Start :
    Ready (stopped Config.tc1 3) ∧ (stopped Config.tc1 3).state = .stop ∧ Ready (running Config.tc1 3) ∧
      (running Config.tc1 3).state ≠ .stop := ⟨stopped_ready 3, rfl, running_ready 3, nofun⟩

theorem witness_Stop :
    (Ready (running Config.tc1 3) ∧ (running Config.tc1 3).state = .running) ∧
      (Ready (starting Config.tc1 3) ∧ (starting Config.tc1 3).state = .starting) ∧
      (Ready (faulted .stall Samples.rest) ∧ (faulted .stall Samples.rest).state = .fault) :=
  ⟨⟨running_ready 3, rfl⟩, ⟨starting_ready 3, rfl⟩, ⟨faulted_ready _ _, rfl⟩⟩

theorem witness_SetSpeed :
    Ready (stopped Config.tc1 3) ∧ finite32 0x7F7FFFFF#32 = true ∧ finite32 0x7F800000#32 = false :=
  ⟨stopped_ready 3, by decide, by decide⟩

theorem witness_SetTorque :
    Ready (stopped Config.tc1 3) ∧ (100#32).toNat ≤ 100 ∧ 100 < (101#32).toNat := ⟨stopped_ready 3, by decide, by decide⟩

theorem witness_FaultHandler :
    Ready (running Config.tc1 3) ∧ FaultCode.overtemp ≠ .none ∧ (running Config.tc1 3).state = .running ∧
      Ready (faulted .stall Samples.rest) ∧ (faulted .stall Samples.rest).state ≠ .running :=
  ⟨running_ready 3, nofun, rfl, faulted_ready _ _, nofun⟩

theorem witness_GetFault : Ready (faulted .stall Samples.rest) := faulted_ready _ _

/-- F19 to F29: on each side of each threshold, both in Fault. -/
theorem witness_ClearFault :
    (current (faulted .overcurrent (nominal 3 0x461C3C00)) < Config.tc1.hardLimit ∧
      ¬ current (faulted .overcurrent (nominal 3 0x461C4000)) < Config.tc1.hardLimit) ∧
      (voltage (faulted .overvoltage { nominal 3 0 with vMeas := 0x426C0000 }) < Config.tc1.ovLimit ∧
        ¬ voltage (faulted .overvoltage { nominal 3 0 with vMeas := 0x42700000 }) < Config.tc1.ovLimit) ∧
      (Config.tc1.uvLimit < voltage (faulted .undervoltage { nominal 3 0 with vMeas := 0x41300000 }) ∧
        ¬ Config.tc1.uvLimit < voltage (faulted .undervoltage { nominal 3 0 with vMeas := 0x41200000 })) ∧
      (temperature (faulted .overtemp { nominal 3 0 with tMeas := 0x42C60000 }) < Config.tc1.otLimit ∧
        ¬ temperature (faulted .overtemp { nominal 3 0 with tMeas := 0x42C80000 }) < Config.tc1.otLimit) ∧
      (ValidSector (faulted .hallError (nominal 6 0)) ∧ ¬ ValidSector (faulted .hallError (nominal 7 0))) ∧
      Ready (faulted .stall (nominal 3 0)) ∧ FiniteSample (faulted .stall (nominal 3 0)) :=
  ⟨by decide +kernel, by decide +kernel, by decide +kernel, by decide +kernel,
    ⟨⟨by decide, by decide⟩, fun h => absurd h.2 (by decide)⟩, faulted_ready _ _, by show samplesFinite _ = true; decide⟩

theorem witness_SetMode :
    (Ready (stopped Config.tc1 3) ∧ (stopped Config.tc1 3).state = .stop ∧ ControlMode.torque ≠ (stopped Config.tc1 3).mode) ∧
      (Ready (running Config.tc1 3) ∧ (running Config.tc1 3).state ≠ .stop) ∧
      ControlMode.speed = (stopped Config.tc1 3).mode :=
  ⟨⟨stopped_ready 3, rfl, nofun⟩, ⟨running_ready 3, nofun⟩, rfl⟩

theorem witness_SetDirection :
    Ready (stopped Config.tc1 3) ∧ (stopped Config.tc1 3).state = .stop ∧ Ready (running Config.tc1 3) ∧
      (running Config.tc1 3).state ≠ .stop := ⟨stopped_ready 3, rfl, running_ready 3, nofun⟩

/-! #### LOOP -/

theorem witness_LoopCompletes : Ready (stopped Config.tc1 3) ∧ FiniteSample (stopped Config.tc1 3) :=
  ⟨stopped_ready 3, by show samplesFinite _ = true; decide⟩

/-- `now − last_ts` of a LOOP with TICK_W unbounded, and with an 8-bit tick that wrapped since; each has a rate. -/
theorem witness_LoopUpdatesTheEstimator :
    (Ready (running Config.tc1 4) ∧ FiniteSample (running Config.tc1 4) ∧ Transition (running Config.tc1 4) ∧
      (running Config.tc1 4).hasPrior = true ∧ Config.tc1.tickWidth = none ∧
      (1 : Int) = ((running Config.tc1 4).tick + 1) - (running Config.tc1 4).lastTs ∧
      roundIn Config.tc1.numModel (Config.tc1.kRpm / ((1 : Int) : Quantity)) = some 10000) ∧
      (Ready wrapped ∧ FiniteSample wrapped ∧ Transition wrapped ∧ wrapped.hasPrior = true ∧
        wrapped.cfg.tickWidth = some 8 ∧
        (9 : Int) = (((wrapped.tick : Int) + 1) % 2 ^ 8 - (wrapped.lastTs : Int)) % 2 ^ 8 ∧
        roundIn wrapped.cfg.numModel (wrapped.cfg.kRpm / ((9 : Int) : Quantity)) = some (10000 / 9)) ∧
      (Transition (stopped Config.tc1 4) ∧ (stopped Config.tc1 4).hasPrior = false) :=
  ⟨⟨running_ready 4, running_finite _ 4, ⟨⟨by decide, by decide⟩, by decide⟩, rfl, rfl, by decide, by decide +kernel⟩,
    ⟨⟨variants_ok.2.2, rfl⟩, running_finite Config.tc1 4, ⟨⟨by decide, by decide⟩, by decide⟩, rfl, rfl, by decide,
      by decide +kernel⟩,
    ⟨⟨by decide, by decide⟩, by decide⟩, rfl⟩

/-- E8 and E9: no transition, and the two sides of the stall threshold (`now` is 26, then 27); and E8 outside Running. -/
theorem witness_LoopUpdatesTheEstimator_stall :
    ¬ Transition (running Config.tc1 3) ∧ (running Config.tc1 3).state = .running ∧ (starting Config.tc1 3).state ≠ .running ∧
      ((26 : Int) - (running Config.tc1 3).lastTs ≤ Config.tc1.stallTimeoutTicks) ∧
      ((Config.tc1.stallTimeoutTicks : Int) < 27 - (running Config.tc1 3).lastTs) :=
  ⟨fun h => h.2 rfl, rfl, nofun, by decide +kernel, by decide +kernel⟩

theorem witness_LoopInStopAndFault :
    (Ready (stopped Config.tc1 3) ∧ FiniteSample (stopped Config.tc1 3) ∧ (stopped Config.tc1 3).state = .stop) ∧
      (Ready (faulted .stall (nominal 7 0)) ∧ FiniteSample (faulted .stall (nominal 7 0)) ∧
        (faulted .stall (nominal 7 0)).state = .fault) :=
  ⟨⟨stopped_ready 3, by show samplesFinite _ = true; decide, rfl⟩,
    ⟨faulted_ready _ _, by show samplesFinite _ = true; decide, rfl⟩⟩

/-- F7, F9, F10, F4, F5 and E9: the least sample that meets each condition, with those before it not met. -/
theorem witness_LoopDetects :
    Config.tc1.hardLimit ≤ current { running Config.tc1 3 with ports := nominal 3 0x461C4000 } ∧
      (current (running Config.tc1 3) < Config.tc1.hardLimit ∧
        Config.tc1.ovLimit ≤ voltage { running Config.tc1 3 with ports := { nominal 3 0 with vMeas := 0x42700000 } }) ∧
      voltage { starting Config.tc1 3 with ports := { nominal 3 0 with vMeas := 0x41200000 } } ≤ Config.tc1.uvLimit ∧
      Config.tc1.otLimit ≤ temperature { running Config.tc1 3 with ports := { nominal 3 0 with tMeas := 0x42C80000 } } ∧
      ¬ ValidSector (running Config.tc1 7) ∧ (running Config.tc1 7).fault = .none ∧ ¬ Healthy (running Config.tc1 7) ∧
      ValidSector { running Config.tc1 3 with tick := 26 } ∧ ¬ Healthy { running Config.tc1 3 with tick := 26 } :=
  ⟨by decide +kernel, by decide +kernel, by decide +kernel, by decide +kernel, fun h => absurd h.2 (by decide), rfl,
    fun h => absurd h.sector.2 (by decide), ⟨by decide, by decide⟩,
    fun h => h.stall ⟨rfl, fun h => h.2 rfl, by decide +kernel⟩⟩

/-- S2, S3, S4: promotion at `rpm` above MIN_RUN_RPM, the timeout at RAMP_TIMEOUT_TICKS, and neither at `rpm` equal to
it. -/
theorem witness_StartingTick :
    (Ready (starting Config.tc1 3) ∧ FiniteSample (starting Config.tc1 3) ∧ (starting Config.tc1 3).state = .starting ∧
      Healthy (starting Config.tc1 3)) ∧
      answers (exec .loop (starting Config.tc1 3)) (fun t => decide (Config.tc1.minRunRpm < t.rpm)) = true ∧
      answers (exec .loop { starting Config.tc2 1 with rampTicks := 2 })
        (fun t => decide (t.rpm ≤ Config.tc2.minRunRpm) && decide (Config.tc2.rampTimeoutTicks = 2 + 1)) = true ∧
      answers (exec .loop { starting Config.tc1 1 with rpm := 1000 })
        (fun t => decide (t.rpm = Config.tc1.minRunRpm) && decide (5 + 1 < Config.tc1.rampTimeoutTicks)) = true :=
  ⟨⟨starting_ready 3, starting_finite _ 3, rfl, starting_healthy⟩, by decide +kernel, by decide +kernel,
    by decide +kernel⟩

/-- The three signs of KI. -/
theorem witness_SpeedTick :
    (Ready (running Config.tc1 3) ∧ FiniteSample (running Config.tc1 3) ∧ (running Config.tc1 3).state = .running ∧
      (running Config.tc1 3).mode = .speed ∧ Healthy (running Config.tc1 3) ∧
      (running Config.tc1 3).cfg.numModel = .exact ∧ 0 < (running Config.tc1 3).cfg.ki) ∧
      (Ready (running { Config.tc1 with ki := -1 / 100 } 3) ∧ FiniteSample (running { Config.tc1 with ki := -1 / 100 } 3) ∧
        Healthy (running { Config.tc1 with ki := -1 / 100 } 3) ∧ (-1 / 100 : Quantity) < 0) ∧
      (Ready (running { Config.tc1 with ki := 0 } 3) ∧ FiniteSample (running { Config.tc1 with ki := 0 } 3) ∧
        Healthy (running { Config.tc1 with ki := 0 } 3)) :=
  ⟨⟨running_ready 3, running_finite _ 3, rfl, rfl, running_healthy, rfl, by decide +kernel⟩,
    ⟨⟨variants_ok.1, rfl⟩, running_finite _ 3, { running_healthy with }, by decide +kernel⟩,
    ⟨variants_ok.2.1, rfl⟩, running_finite _ 3, { running_healthy with }⟩

/-- Under binary32 every rounded result of the nominal tick is finite; the next `rpm` is the stored one. -/
theorem witness_SpeedTickRounds :
    (Ready (running tc1Single 3) ∧ FiniteSample (running tc1Single 3) ∧ (running tc1Single 3).state = .running ∧
      (running tc1Single 3).mode = .speed ∧ Healthy (running tc1Single 3)) ∧
      answers (exec .loop (running tc1Single 3)) (fun t => t.rpm == 2000) = true ∧
      (roundIn .binary32 (3000 - 2000) = some 1000 ∧ roundIn .binary32 (1000 * tc1Single.dt) = some 1 ∧
        roundIn .binary32 (0 + 1) = some 1 ∧ roundIn .binary32 (tc1Single.outMin / tc1Single.ki) = some 0 ∧
        (roundIn .binary32 (tc1Single.outMax / tc1Single.ki)).isSome = true) ∧
      (roundIn .binary32 (1000 - 0) = some 1000 ∧ (roundIn .binary32 (1000 / tc1Single.dt)).isSome = true ∧
        roundIn .binary32 (tc1Single.kp * 1000) = some 500 ∧
        roundIn .binary32 (tc1Single.ki * 1) = some tc1Single.ki ∧ tc1Single.kd = 0 ∧ roundIn .binary32 0 = some 0 ∧
        ((roundIn .binary32 (500 + tc1Single.ki)).bind fun pi => roundIn .binary32 (pi + 0)).isSome = true) :=
  ⟨⟨⟨tc1Single_ok, rfl⟩, running_finite _ 3, rfl, rfl, { running_healthy with }⟩, by decide +kernel, by decide +kernel,
    by decide +kernel⟩

/-- An OUT_MAX / KI that has no finite value, with either sign of KI. -/
theorem witness_SpeedTickRounds_tinyGain :
    (Ready (running { tc1Single with ki := 1 / 2 ^ 140 } 3) ∧
      Healthy (running { tc1Single with ki := 1 / 2 ^ 140 } 3)) ∧
      (Ready (running { tc1Single with ki := -1 / 2 ^ 140 } 3) ∧
        Healthy (running { tc1Single with ki := -1 / 2 ^ 140 } 3)) ∧
      roundIn .binary32 (tc1Single.outMin / (1 / 2 ^ 140)) = some 0 ∧
      roundIn .binary32 (tc1Single.outMax / (1 / 2 ^ 140)) = none ∧
      roundIn .binary32 (tc1Single.outMin / (-1 / 2 ^ 140)) = some 0 ∧
      roundIn .binary32 (tc1Single.outMax / (-1 / 2 ^ 140)) = none :=
  ⟨⟨⟨tinyGain_ok.1, rfl⟩, { running_healthy with }⟩, ⟨⟨tinyGain_ok.2, rfl⟩, { running_healthy with }⟩, by decide +kernel,
    by decide +kernel, by decide +kernel, by decide +kernel⟩

theorem witness_AntiWindup :
    Ready (running Config.tc1 3) ∧ Healthy (running Config.tc1 3) ∧ (running Config.tc1 3).cfg.ki ≠ 0 :=
  ⟨running_ready 3, running_healthy, by decide +kernel⟩

theorem witness_OpenLoopTick :
    Ready { running Config.tc1 3 with mode := .openLoop } ∧ FiniteSample { running Config.tc1 3 with mode := .openLoop } ∧
      Healthy { running Config.tc1 3 with mode := .openLoop } :=
  ⟨running_ready 3, running_finite Config.tc1 3, { running_healthy with }⟩

theorem witness_TorqueTick :
    Ready { running Config.tc1 3 with mode := .torque, targetTorque := 100 } ∧
      FiniteSample { running Config.tc1 3 with mode := .torque, targetTorque := 100 } ∧
      Healthy { running Config.tc1 3 with mode := .torque, targetTorque := 100 } ∧ (100#7).toNat ≤ 100 :=
  ⟨running_ready 3, running_finite Config.tc1 3, { running_healthy with }, by decide⟩

/-- L2 and L7 at their thresholds, and one step inside the foldback zone. -/
theorem witness_Limit :
    1000 ≤ 1000 ∧ (8000 : Quantity) < 10000 ∧ (8000 : Quantity) ≤ 8000 ∧ (10000 : Quantity) ≤ 10000 ∧
      (8000 : Quantity) ≤ 8001 ∧ (8001 : Quantity) < 10000 := by decide +kernel

theorem witness_EnabledStage :
    Ready (running Config.tc1 3) ∧ FiniteSample (running Config.tc1 3) ∧
      answers (exec .loop (running Config.tc1 3)) (fun t => t.outEn) = true :=
  ⟨running_ready 3, running_finite _ 3, by decide +kernel⟩

/-! #### The whole machine -/

/-- The running state meets the invariant. -/
theorem running_inv : Inv (running Config.tc1 3) where
  dutyRange := by decide
  torqueRange := by decide
  sectorRange := by decide
  outputsLegal := ⟨fun _ => by decide, nofun⟩
  offBeforeInit := nofun
  operational := fun _ =>
    { faultIffLatched := by decide
      pidClear := fun h => absurd rfl h
      idleOff := nofun
      runningHasPrior := fun _ => rfl
      rpmNeedsPrior := nofun
      rpmNonneg := by decide +kernel
      clockOrder := fun _ => by decide
      clockRange := nofun }

/-- A state in Fault meets the invariant. -/
theorem faulted_inv : Inv (faulted .stall (nominal 3 0)) where
  dutyRange := by decide
  torqueRange := by decide
  sectorRange := by decide
  outputsLegal := ⟨nofun, fun _ => ⟨rfl, rfl, rfl⟩⟩
  offBeforeInit := nofun
  operational := fun _ =>
    { faultIffLatched := by decide
      pidClear := fun _ => ⟨rfl, rfl⟩
      idleOff := fun _ => ⟨rfl, rfl, rfl⟩
      runningHasPrior := nofun
      rpmNeedsPrior := fun _ => rfl
      rpmNonneg := by decide +kernel
      clockOrder := fun _ => by decide
      clockRange := nofun }

theorem witness_StepKeepsTheInvariant :
    Inv (presenting 0x0900000000#40 (running Config.tc1 3)) ∧
      ∃ t, step (presenting 0x0900000000#40 (running Config.tc1 3)) = .next t :=
  ⟨{ running_inv with operational := fun h => { running_inv.operational h with } },
    let ⟨t, h, _⟩ := (answers_iff _ (fun _ => true)).mp (by decide +kernel); ⟨t, h⟩⟩

/-- A binary32 rate that is no integer, held after a step. -/
theorem witness_StepKeepsRegistersNums :
    NumsHeld (presenting 0x0900000000#40 (running tc1Single 4)) ∧
      answers (step (presenting 0x0900000000#40 { running tc1Single 4 with tick := 8 }))
        (fun t => holdsNum .binary32 t.rpm && t.rpm.den != 1) = true :=
  ⟨⟨by decide +kernel, by decide +kernel, by decide +kernel, by decide +kernel⟩, by decide +kernel⟩

theorem witness_NoPhaseIsShorted : Inv (running Config.tc1 3) := running_inv

/-- One change of MotorState for each row of R205. -/
theorem witness_StateChanges :
    answers (exec .start (stopped Config.tc1 3)) (fun t => t.state == .starting) = true ∧
      answers (exec .loop (starting Config.tc1 3)) (fun t => t.state == .running) = true ∧
      answers (exec .loop { starting Config.tc2 1 with rampTicks := 2 }) (fun t => t.state == .fault) = true ∧
      answers (exec .loop (running Config.tc1 7)) (fun t => t.state == .fault) = true ∧
      answers (exec (.faultHandler .stall) (stopped Config.tc1 3)) (fun t => t.state == .fault) = true ∧
      answers (exec .stop (running Config.tc1 3)) (fun t => t.state == .stop) = true ∧
      answers (exec .clearFault (faulted .stall (nominal 3 0))) (fun t => t.state == .stop) = true := by decide +kernel

theorem witness_FirstFaultCode :
    (faulted .overcurrent (nominal 7 0)).initDone = true ∧ (faulted .overcurrent (nominal 7 0)).fault ≠ .none ∧
      Instr.loop ≠ .clearFault ∧ (∃ t, exec .loop (faulted .overcurrent (nominal 7 0)) = .next t) ∧
      answers (exec .clearFault (faulted .overcurrent (nominal 7 0))) (fun t => t.fault == .none) = true :=
  ⟨rfl, nofun, nofun, ⟨_, execLoop_of_ready (faulted_ready _ _) (by show samplesFinite _ = true; decide)⟩,
    by decide +kernel⟩

theorem witness_FaultIsLeft :
    Inv (faulted .stall (nominal 3 0)) ∧ (faulted .stall (nominal 3 0)).initDone = true ∧
      (faulted .stall (nominal 3 0)).state = .fault ∧
      (∃ t, exec .loop (faulted .stall (nominal 3 0)) = .next t) ∧
      answers (exec .clearFault (faulted .stall (nominal 3 0))) (fun t => t.state == .stop) = true :=
  ⟨faulted_inv, rfl, rfl, ⟨_, execLoop_of_ready (faulted_ready _ _) (by show samplesFinite _ = true; decide)⟩,
    by decide +kernel⟩

theorem witness_ModeAndDirection :
    answers (exec (.setMode .torque) (stopped Config.tc1 3)) (fun t => t.mode != .speed) = true ∧
      answers (exec (.setDirection .ccw) (stopped Config.tc1 3)) (fun t => t.dir != .cw) = true := by decide +kernel

/-- An unbounded tick, and an 8-bit tick at its last value. -/
theorem witness_TickCounts :
    answers (exec .loop (running Config.tc1 3)) (fun t => t.tick == 7 && t.cfg.tickWidth.isNone) = true ∧
      answers (exec .loop { stopped { Config.tc1 with tickWidth := some 8 } 3 with tick := 255 }) (fun t => t.tick == 0)
        = true := by decide +kernel

theorem witness_PidChanges :
    (running Config.tc1 3).initDone = true ∧ (∃ t, exec .loop (running Config.tc1 3) = .next t) ∧
      answers (exec .loop (running Config.tc1 3)) (fun t => t.pidIntegral != 0) = true :=
  ⟨rfl, ⟨_, execLoop_of_ready (running_ready 3) (running_finite _ 3)⟩, by decide +kernel⟩

theorem witness_Ports :
    Instr.start ≠ .loop ∧ Instr.start ≠ .clearFault ∧ Instr.start ≠ .getFault ∧
      nextResponse (presenting 0x0700000000#40 (faulted .stall Samples.rest)) = some 6#32 ∧
      ∃ t, step (presenting 0x0700000000#40 (faulted .stall Samples.rest)) = .next t :=
  ⟨nofun, nofun, nofun, by decide,
    let ⟨t, h, _⟩ := (answers_iff _ (fun _ => true)).mp (by decide +kernel); ⟨t, h⟩⟩

theorem witness_IntegralNeverOpposes :
    (Ready (running Config.tc1 3) ∧ FiniteSample (running Config.tc1 3) ∧ Healthy (running Config.tc1 3) ∧
      0 < (running Config.tc1 3).cfg.ki) ∧
      (Ready (running { Config.tc1 with ki := -1 / 100 } 3) ∧ Healthy (running { Config.tc1 with ki := -1 / 100 } 3) ∧
        (-1 / 100 : Quantity) < 0) :=
  ⟨⟨running_ready 3, running_finite _ 3, running_healthy, by decide +kernel⟩, ⟨variants_ok.1, rfl⟩,
    { running_healthy with }, by decide +kernel⟩

/-- GET_FAULT presented in Fault(Stall), and a second step with nothing presented. -/
theorem witness_Observation :
    (observe 2 (presenting 0x0700000000#40 (faulted .stall Samples.rest))).map
        (fun o => (o.commands.map (fun e => (e.response, e.state.state)), o.final.fault))
      = some ([(some 6#32, .fault)], .stall) ∧
      (presenting 0x0700000000#40 (faulted .stall Samples.rest)).pending ≠ [] ∧
      ∃ t, step (presenting 0x0700000000#40 (faulted .stall Samples.rest)) = .next t :=
  ⟨by decide +kernel, nofun, let ⟨t, h, _⟩ := (answers_iff _ (fun _ => true)).mp (by decide +kernel); ⟨t, h⟩⟩

end Sys2Proof.Tests
end

section
/-! Proofs for the family of 00_scope.md: what the configuration check accepts, and the sign of the PID integral after a
Speed tick. -/

namespace Sys2Proof.Proofs.Scope

open Sys2Proof.Machine Sys2Proof.Safety

/-! ### The commutation table (41_commutation.md R121) -/

/-- R121 for one direction, entry by entry. -/
theorem rowOk_iff (row : Vector PhasePattern 6) :
    rowOk row = true ↔
      (∀ i : Fin 6, row[i] ∈ sixStepPatterns) ∧ Function.Injective (fun i : Fin 6 => row[i]) := by
  have hrow : row.toList = List.ofFn (fun i : Fin 6 => row[i]) :=
    List.ext_getElem (by simp) fun i _ _ => by rw [List.getElem_ofFn]; simp
  simp only [rowOk, hrow, Bool.and_eq_true, List.all_eq_true, List.contains_iff_mem, decide_eq_true_eq,
    List.forall_mem_ofFn_iff, List.nodup_ofFn]

theorem tableOk_iff (c : Config) : tableOk c = true ↔ ∀ d, rowOk (commRow c.commTable d) = true := by
  simp only [tableOk, Bool.and_eq_true]
  refine ⟨fun ⟨hcw, hccw⟩ d => ?_, fun h => ⟨h .cw, h .ccw⟩⟩
  cases d
  · exact hcw
  · exact hccw

/-- A sector that COMMUTATE answers as it answers a valid one is valid: an invalid sector answers HallError, which no
valid one does (41_commutation.md R120). -/
theorem valid_of_commutate_eq {t : CommTable} {d : Direction} {h h' : HallSector}
    (hv : 1 ≤ h.toNat ∧ h.toNat ≤ 6) (e : commutate t h d = commutate t h' d) : 1 ≤ h'.toNat ∧ h'.toNat ≤ 6 := by
  by_contra hn
  rw [commutate_of_valid _ _ _ hv, commutate_of_invalid _ _ _ hn] at e
  cases e

/-- The sector that reads entry `i` of a row of COMM_TABLE. -/
def sectorOf (i : Fin 6) : HallSector := BitVec.ofNat 3 (i + 1)

theorem sectorOf_toNat (i : Fin 6) : (sectorOf i).toNat = i + 1 := by
  simp only [sectorOf, BitVec.toNat_ofNat]; omega

theorem sectorOf_valid (i : Fin 6) : 1 ≤ (sectorOf i).toNat ∧ (sectorOf i).toNat ≤ 6 := by
  rw [sectorOf_toNat]; omega

theorem sectorOf_injective : Function.Injective sectorOf := by
  intro i j e
  have e' := congrArg BitVec.toNat e
  rw [sectorOf_toNat, sectorOf_toNat] at e'
  omega

theorem commutate_sectorOf (t : CommTable) (d : Direction) (i : Fin 6) :
    commutate t (sectorOf i) d = .pattern (commRow t d)[i] := by
  rw [commutate_of_valid _ _ _ (sectorOf_valid i)]
  simp [sectorOf_toNat]

/-- Every valid sector reads one of the six entries. -/
theorem exists_sectorOf {h : HallSector} (h1 : 1 ≤ h.toNat) (h6 : h.toNat ≤ 6) : ∃ i, h = sectorOf i :=
  ⟨⟨h.toNat - 1, by omega⟩, BitVec.eq_of_toNat_eq (by rw [sectorOf_toNat]; simp; omega)⟩

/-- R121 for one direction, said through COMMUTATE: every valid sector answers a six-step pattern, and no two sectors the
same one. -/
theorem rowOk_commRow_iff (t : CommTable) (d : Direction) :
    rowOk (commRow t d) = true ↔
      (∀ h : HallSector, 1 ≤ h.toNat → h.toNat ≤ 6 → ∃ p ∈ sixStepPatterns, commutate t h d = .pattern p) ∧
      (∀ h h' : HallSector, 1 ≤ h.toNat → h.toNat ≤ 6 → commutate t h d = commutate t h' d → h = h') := by
  rw [rowOk_iff]
  constructor
  · rintro ⟨hmem, hinj⟩
    constructor
    · intro h h1 h6
      obtain ⟨i, rfl⟩ := exists_sectorOf h1 h6
      exact ⟨_, hmem i, commutate_sectorOf t d i⟩
    · intro h h' h1 h6 e
      obtain ⟨h1', h6'⟩ := valid_of_commutate_eq ⟨h1, h6⟩ e
      obtain ⟨i, rfl⟩ := exists_sectorOf h1 h6
      obtain ⟨j, rfl⟩ := exists_sectorOf h1' h6'
      rw [commutate_sectorOf, commutate_sectorOf, Commutation.pattern.injEq] at e
      rw [hinj e]
  · rintro ⟨hpat, hsep⟩
    constructor
    · intro i
      obtain ⟨p, hp, e⟩ := hpat (sectorOf i) (sectorOf_valid i).1 (sectorOf_valid i).2
      rw [commutate_sectorOf, Commutation.pattern.injEq] at e
      rwa [e]
    · intro i j e
      refine sectorOf_injective (hsep _ _ (sectorOf_valid i).1 (sectorOf_valid i).2 ?_)
      rw [commutate_sectorOf, commutate_sectorOf]
      exact congrArg _ e

/-! ### The duty profile and the quantizer (00_scope.md R10, R12) -/

/-- R10: the steps and the hold value of a profile are duties exactly when every entry that a Starting tick reads is. -/
theorem rampDuties_iff (r : RampProfile) :
    ((∀ d ∈ r.steps, d ≤ 1000) ∧ r.hold ≤ 1000) ↔ ∀ n, 1 ≤ n → rampDutyAt r n ≤ 1000 := by
  simp only [rampDutyAt]
  constructor
  · rintro ⟨hsteps, hhold⟩ n -
    rw [List.getD_eq_getElem?_getD]
    cases hn : r.steps[n - 1]? with
    | none => simpa using hhold
    | some d => simpa using hsteps d (List.mem_of_getElem? hn)
  · intro h
    constructor
    · intro d hd
      obtain ⟨i, hi, rfl⟩ := List.getElem_of_mem hd
      simpa [hi] using h (i + 1) (by omega)
    · simpa using h (r.steps.length + 1) (by omega)

/-- R12: the check of QUANTIZE, said through QUANTIZE itself. -/
theorem quantizerOk_iff (q : Quantizer) :
    quantizerOk q = true ↔ ∀ a site, quantize a site q (50001 / 100) = 500 := by
  cases q with
  | floor =>
    have e : (50001 / 100 : Quantity).floor = 500 := by decide +kernel
    simp [quantizerOk, quantize, e]
  | cuts cs =>
    have dom : (0 : Quantity) ≤ 50001 / 100 ∧ (50001 / 100 : Quantity) ≤ 1000 := by norm_num
    have eval : ∀ a site, quantize a site (.cuts cs) (50001 / 100) = cutQuantize cs (50001 / 100) :=
      fun a site => if_pos dom
    simp only [quantizerOk, beq_iff_eq, eval]
    exact ⟨fun h _ _ => h, fun h => h ⟨.exact, 0⟩ .rate⟩

/-! ### The configuration check -/

/-- Settles O17: each part of the check says its constraint; the table through COMMUTATE, the profile through the duties
that are read, QUANTIZE through its value. -/
theorem configCheckSaysTheConstraints : Obligations.ConfigCheckSaysTheConstraints := by
  intro c
  have hduties : dutiesOk c = true ↔
      (∀ n, 1 ≤ n → rampDutyAt c.rampDuty n ≤ 1000) ∧ c.openLoopDuty ≤ 1000 ∧ 0 < c.torqueFullScale := by
    rw [← rampDuties_iff]
    simp only [dutiesOk, Bool.and_eq_true, List.all_eq_true, decide_eq_true_eq, and_assoc]
  have hnums : numsOk c = true ↔ ∀ x ∈ configNums c, holdsNum c.numModel x = true := List.all_eq_true
  simp only [configOk, timingOk, boundsOk, limitsOk, Bool.and_eq_true, decide_eq_true_eq, hduties, tableOk_iff,
    rowOk_commRow_iff, quantizerOk_iff, hnums, configNums, and_assoc]

/-! ### The integral after a Speed tick -/

/-- A healthy Running LOOP in Speed mode stores the integral of the PID step; driving the outputs leaves it
(43_speed_controller.md R162; 46_tick_pipeline.md R222). -/
theorem tickPipeline_pidIntegral_of_speed {s : State} (hs : s.state = .running) (hm : s.mode = .speed)
    (hh : Healthy s) :
    (tickPipeline (samplesValue s.ports) s).pidIntegral =
      (pidStep (sensed s).targetSpeed (sensed s).rpm (sensed s)).1.pidIntegral := by
  have hmode : (sensed s).mode = .speed := by rw [sensed_frame, hm]
  rcases tickPipeline_cases s with ⟨h, -⟩ | ⟨-, h, -, -⟩ | ⟨h, -⟩ | ⟨-, -, e⟩
  · simp [hs] at h
  · exact absurd hh h
  · simp [hs] at h
  · rcases runningTick_cases (samplesValue s.ports) (sensed s) with ⟨h, -⟩ | ⟨-, e'⟩ | ⟨h, -⟩
    · simp [hmode] at h
    · rw [e, e', drive_frame]
    · simp [hmode] at h

/-- PID's stored integral has been through AW (43_speed_controller.md R162). -/
theorem pidStep_pidIntegral_eq_antiWindup (target cur : Quantity) (s : State) :
    ∃ x, (pidStep target cur s).1.pidIntegral = antiWindup (arithOf s) s.cfg x := ⟨_, rfl⟩

/-- Settles O58: AW answers no value of the sign opposite to KI's. -/
theorem integralNeverOpposesItsGain : Obligations.IntegralNeverOpposesItsGain := by
  intro s hr hf hs hm hh
  refine ⟨_, execLoop_of_ready hr hf, ?_⟩
  have hc := configFacts hr.1
  obtain ⟨x, hx⟩ := pidStep_pidIntegral_eq_antiWindup (sensed s).targetSpeed (sensed s).rpm (sensed s)
  rw [tickPipeline_pidIntegral_of_speed hs hm hh, hx, sensed_cfg]
  exact antiWindup_sign _ hc.outMin (hc.outMin.trans hc.outOrder) x

end Sys2Proof.Proofs.Scope
end

section
/-! Proofs for the family of 10_state.md: the two invariants of the state record, the fields LOOP may write, the commands
that change mode and direction, and the commands that use the ports. -/

namespace Sys2Proof.Proofs.StateRecord

open Sys2Proof.Machine Sys2Proof.Safety

/-! ### The estimator keeps the clock order and the sign of `rpm` (42_speed_estimator.md) -/

/-- The rate of a period that is not negative is not negative, also where it is a free value (10_state.md R42). -/
theorem rate_nonneg (a : Arith) {kRpm : Quantity} {period : Int} (hk : 0 ≤ kRpm) (hp : 0 ≤ period) :
    0 ≤ rate a kRpm period := by
  unfold rate
  cases hr : (if period = 0 then none else roundIn a.model (kRpm / (period : Quantity))) with
  | none => exact magnitude_nonneg _
  | some r =>
    split at hr
    · cases hr
    · exact roundIn_nonneg (div_nonneg hk (by exact_mod_cast hp)) hr

theorem now_of_unbounded {s : State} (h : s.cfg.tickWidth = none) : now s = s.tick + 1 := by
  simp [now, h]

theorem now_lt_of_width {s : State} {w : Nat} (h : s.cfg.tickWidth = some w) : now s < 2 ^ w := by
  simp only [now, h]
  exact Nat.mod_lt _ (by positivity)

theorem sinceTransition_nonneg {s : State} (h : Operational s) : 0 ≤ sinceTransition s := by
  unfold sinceTransition
  cases hw : s.cfg.tickWidth with
  | none =>
    have := h.clockOrder hw
    rw [now_of_unbounded hw]
    dsimp only
    omega
  | some w => exact Int.emod_nonneg _ (by positivity)

theorem sensed_lastTs_eq (s : State) : (sensed s).lastTs = now s ∨ (sensed s).lastTs = s.lastTs := by
  obtain ⟨ht, hn, -⟩ := sensed_spec s
  by_cases h : Transition s
  · exact .inl (ht h).1
  · exact .inr (hn h).1

theorem sensed_lastSector_le {s : State} (h : s.lastSector.toNat ≤ 6) : (sensed s).lastSector.toNat ≤ 6 := by
  obtain ⟨ht, hn, -⟩ := sensed_spec s
  by_cases hT : Transition s
  · rw [(ht hT).2.1]; exact hT.1.2
  · rw [(hn hT).2.1]; exact h

theorem sensed_hasPrior_of_hasPrior {s : State} (h : s.hasPrior = true) : (sensed s).hasPrior = true := by
  obtain ⟨ht, hn, -⟩ := sensed_spec s
  by_cases hT : Transition s
  · exact (ht hT).2.2
  · rw [(hn hT).2.2]; exact h

/-- What the estimator can leave in `rpm`: zero, the rate of a transition after a prior one, or the value held. -/
theorem sensed_rpm_cases (s : State) :
    (sensed s).rpm = 0 ∨
      ((sensed s).hasPrior = true ∧
        (sensed s).rpm = rate (arithOf (advanceTick s)) s.cfg.kRpm (sinceTransition s)) ∨
      ((sensed s).hasPrior = s.hasPrior ∧ (sensed s).rpm = s.rpm) := by
  obtain ⟨ht, hn, hstall, hrate, hheld⟩ := sensed_spec s
  by_cases hS : Stalled s
  · exact .inl (hstall hS)
  by_cases hT : Transition s
  · have hr := hrate hS hT
    cases hp : s.hasPrior with
    | false => exact .inl (by rw [hr, hp]; rfl)
    | true => exact .inr (.inl ⟨(ht hT).2.2, by rw [hr, hp]; rfl⟩)
  · exact .inr (.inr ⟨(hn hT).2.2, hheld hS hT⟩)

theorem sensed_keeps_operational {s : State} (hk : 0 ≤ s.cfg.kRpm) (h : Operational s) : Operational (sensed s) := by
  have hlast := sensed_lastTs_eq s
  have hrpm := sensed_rpm_cases s
  have hnonneg : 0 ≤ (sensed s).rpm := by
    rcases hrpm with e | ⟨-, e⟩ | ⟨-, e⟩ <;> rw [e]
    · exact rate_nonneg _ hk (sinceTransition_nonneg h)
    · exact h.rpmNonneg
  have hprior : (sensed s).hasPrior = false → (sensed s).rpm = 0 := by
    intro hp
    rcases hrpm with e | ⟨e, -⟩ | ⟨e, er⟩
    · exact e
    · simp [hp] at e
    · rw [er, h.rpmNeedsPrior (e ▸ hp)]
  rw [sensed_frame]
  exact
    { h with
      runningHasPrior := fun hs => sensed_hasPrior_of_hasPrior (h.runningHasPrior hs)
      rpmNeedsPrior := hprior
      rpmNonneg := hnonneg
      clockOrder := fun hw => by
        have := h.clockOrder hw
        have := now_of_unbounded (s := s) hw
        show (sensed s).lastTs ≤ now s
        omega
      clockRange := fun w hw => by
        have hnow : now s < 2 ^ w := now_lt_of_width hw
        refine ⟨hnow, ?_⟩
        show (sensed s).lastTs < 2 ^ w
        rcases hlast with e | e <;> rw [e]
        · exact hnow
        · exact (h.clockRange w hw).2 }

theorem sensed_keeps_inv {s : State} (hk : 0 ≤ s.cfg.kRpm) (hi : s.initDone = true) (h : Inv s) : Inv (sensed s) := by
  have hsector := sensed_lastSector_le h.sectorRange
  have hop := sensed_keeps_operational hk (h.operational hi)
  have hframe := sensed_frame s
  have hinit : (sensed s).initDone = true := by rw [hframe, hi]
  exact
    { dutyRange := by rw [hframe]; exact h.dutyRange
      torqueRange := by rw [hframe]; exact h.torqueRange
      sectorRange := hsector
      outputsLegal := by rw [hframe]; exact h.outputsLegal
      offBeforeInit := fun h0 => by simp [hinit] at h0
      operational := fun _ => hop }

/-! ### Every operation keeps the invariant -/

theorem outputsLegal_of_off {s : State} (h : OutputsOff s) : OutputsLegal s := by
  have ⟨_, _, hen⟩ := h
  exact ⟨fun h0 => by simp [hen] at h0, fun _ => h⟩

theorem accept_keeps_inv (p : Presented) (rest : List Presented) {s : State} (h : Inv s) : Inv (accept p rest s) :=
  { h with operational := fun hi => { h.operational hi with } }

theorem initialise_inv (s : State) : Inv (initialise s) where
  dutyRange := Nat.zero_le _
  torqueRange := Nat.zero_le _
  sectorRange := Nat.zero_le _
  outputsLegal := outputsLegal_of_off ⟨rfl, rfl, rfl⟩
  offBeforeInit := nofun
  operational := fun _ =>
    { faultIffLatched := by simp [initialise]
      pidClear := fun _ => ⟨rfl, rfl⟩
      idleOff := fun _ => ⟨rfl, rfl, rfl⟩
      runningHasPrior := nofun
      rpmNeedsPrior := fun _ => rfl
      rpmNonneg := le_refl _
      clockOrder := fun _ => le_refl _
      clockRange := fun _ _ => ⟨by positivity, by positivity⟩ }

theorem outputsOff_keeps_inv {s : State} (h : Inv s) : Inv (outputsOff s) :=
  { h with
    dutyRange := Nat.zero_le _
    outputsLegal := outputsLegal_of_off (outputsOff_off s)
    offBeforeInit := fun _ => outputsOff_off s
    operational := fun hi => { h.operational hi with idleOff := fun _ => outputsOff_off s } }

/-- The PID registers after PID_RESET out of Running are zero (43_speed_controller.md R166). -/
theorem pid_clear_out_of_running {s : State} (h : Operational s) :
    (if s.state = .running then 0 else s.pidIntegral) = 0 ∧ (if s.state = .running then 0 else s.pidPrevError) = 0 := by
  by_cases hs : s.state = .running
  · simp [hs]
  · simpa [hs] using h.pidClear hs

theorem faultEntry_keeps_inv {c : FaultCode} (hc : c ≠ .none) {s : State} (h : Inv s) : Inv (faultEntry c s) := by
  have hoff := faultEntry_off c s
  rw [faultEntry_eq] at hoff ⊢
  exact
    { h with
      dutyRange := Nat.zero_le _
      outputsLegal := outputsLegal_of_off hoff
      offBeforeInit := fun _ => hoff
      operational := fun hi =>
        have hop := h.operational hi
        { hop with
          faultIffLatched := by by_cases hf : s.fault = .none <;> simp [hf, hc]
          pidClear := fun _ => pid_clear_out_of_running hop
          idleOff := fun _ => hoff
          runningHasPrior := nofun } }

theorem leaveToStop_keeps_inv {s : State} (hs : s.state ≠ .fault) (h : Inv s) : Inv (leaveToStop s) := by
  rw [leaveToStop_eq]
  exact
    { h with
      dutyRange := Nat.zero_le _
      outputsLegal := outputsLegal_of_off ⟨rfl, rfl, rfl⟩
      offBeforeInit := fun _ => ⟨rfl, rfl, rfl⟩
      operational := fun hi =>
        have hop := h.operational hi
        have hf : s.fault = .none := by simpa [hs] using hop.faultIffLatched
        { hop with
          faultIffLatched := by simp [hf]
          pidClear := fun _ => pid_clear_out_of_running hop
          idleOff := fun _ => ⟨rfl, rfl, rfl⟩
          runningHasPrior := nofun } }

theorem faultReturn_keeps_inv {s : State} (hs : s.state = .fault) (h : Inv s) : Inv (faultReturn s) :=
  { h with
    dutyRange := Nat.zero_le _
    outputsLegal := outputsLegal_of_off ⟨rfl, rfl, rfl⟩
    offBeforeInit := fun _ => ⟨rfl, rfl, rfl⟩
    operational := fun hi =>
      have hop := h.operational hi
      { hop with
        faultIffLatched := by simp
        pidClear := fun _ => hop.pidClear (by simp [hs])
        idleOff := fun _ => ⟨rfl, rfl, rfl⟩
        runningHasPrior := nofun } }

theorem enterStarting_keeps_inv {s : State} (hs : s.state = .stop) (h : Inv s) : Inv (enterStarting s) :=
  { h with
    dutyRange := Nat.zero_le _
    sectorRange := Nat.zero_le _
    outputsLegal := ⟨h.outputsLegal.1, fun he => ⟨rfl, (h.outputsLegal.2 he).2⟩⟩
    offBeforeInit := fun hi => ⟨rfl, (h.offBeforeInit hi).2⟩
    operational := fun hi =>
      have hop := h.operational hi
      have hf : s.fault = .none := by simpa [hs] using hop.faultIffLatched
      { hop with
        faultIffLatched := by simp [hf]
        pidClear := fun _ => ⟨rfl, rfl⟩
        idleOff := by simp
        runningHasPrior := nofun
        rpmNeedsPrior := fun _ => rfl
        rpmNonneg := le_refl _ } }

theorem pidReset_keeps_inv {s : State} (h : Inv s) : Inv (pidReset s) :=
  { h with operational := fun hi => { h.operational hi with pidClear := fun _ => ⟨rfl, rfl⟩ } }

/-- Steps 6 and 7 of LOOP, outside Stop and Fault, keep the invariant: they enable only a pattern of the table
(46_tick_pipeline.md R223). -/
theorem drive_keeps_inv (m : Meas) (target : Int) (soft : Quantity) {s : State} (hc : configOk s.cfg = true)
    (hi : s.initDone = true) (hs : s.state = .starting ∨ s.state = .running) (h : Inv s) :
    Inv (drive m target soft s) := by
  have hout : (drive m target soft s).duty.toNat ≤ 1000 ∧ OutputsLegal (drive m target soft s) := by
    rcases drive_outputs m target soft s with ⟨p, hp, hphase, hen, hduty⟩ | ⟨-, hoff⟩
    · exact ⟨hduty, fun _ => hphase ▸ commutate_mem hc hp, fun h0 => by simp [hen] at h0⟩
    · exact ⟨by simp [hoff.1], outputsLegal_of_off hoff⟩
  rw [drive_frame] at hout ⊢
  exact
    { h with
      dutyRange := hout.1
      outputsLegal := hout.2
      offBeforeInit := fun h0 => by simp [hi] at h0
      operational := fun _ =>
        { h.operational hi with
          idleOff := fun h0 => by rcases hs with hs | hs <;> simp [hs] at h0 } }

theorem pidStep_keeps_inv (target cur : Quantity) {s : State} (hs : s.state = .running) (h : Inv s) :
    Inv (pidStep target cur s).1 :=
  { h with operational := fun hi => { h.operational hi with pidClear := fun hn => absurd hs hn } }

theorem countRamp_keeps_inv {s : State} (n : Nat) (h : Inv s) : Inv { s with rampTicks := n } :=
  { h with operational := fun hi => { h.operational hi with } }

/-- Promotion to Running needs a speed above MIN_RUN_RPM ≥ 0, hence a prior transition (42_speed_estimator.md R147). -/
theorem promote_keeps_inv {s : State} (hs : s.state = .starting) (hrpm : 0 < s.rpm) (h : Inv s) :
    Inv { s with state := .running } :=
  { h with
    operational := fun hi =>
      have hop := h.operational hi
      { hop with
        faultIffLatched := by simpa [hs] using hop.faultIffLatched
        pidClear := fun hn => absurd rfl hn
        idleOff := by simp
        runningHasPrior := fun _ => by
          by_contra hp
          exact hrpm.ne' (hop.rpmNeedsPrior (Bool.eq_false_of_not_eq_true hp)) } }

theorem startingTick_keeps_inv (m : Meas) {s : State} (hc : configOk s.cfg = true) (hi : s.initDone = true)
    (hs : s.state = .starting) (h : Inv s) : Inv (startingTick m s) := by
  have hcount := countRamp_keeps_inv (s.rampTicks + 1) h
  rcases startingTick_cases m (s := s) rfl rfl with ⟨hrpm, e⟩ | ⟨-, -, e⟩ | ⟨-, -, e⟩ <;> rw [e]
  · have hpos : 0 < s.rpm := (configFacts hc).minRun.trans_lt hrpm
    exact drive_keeps_inv _ _ _ hc hi (.inr rfl)
      (promote_keeps_inv (s := { s with rampTicks := s.rampTicks + 1 }) hs hpos hcount)
  · exact faultEntry_keeps_inv (by decide) hcount
  · exact drive_keeps_inv _ _ _ hc hi (.inl hs) hcount

theorem runningTick_keeps_inv (m : Meas) {s : State} (hc : configOk s.cfg = true) (hi : s.initDone = true)
    (hs : s.state = .running) (h : Inv s) : Inv (runningTick m s) := by
  rcases runningTick_cases m s with ⟨-, e⟩ | ⟨-, e⟩ | ⟨-, e⟩ <;> rw [e]
  · exact drive_keeps_inv _ _ _ hc hi (.inr hs) h
  · exact drive_keeps_inv _ _ _ hc hi (.inr hs) (pidStep_keeps_inv _ _ hs h)
  · exact drive_keeps_inv _ _ _ hc hi (.inr hs) h

/-! ### Every command keeps the invariant -/

theorem tickPipeline_keeps_inv {s : State} (hc : configOk s.cfg = true) (hi : s.initDone = true) (h : Inv s) :
    Inv (tickPipeline (samplesValue s.ports) s) := by
  have hsensed := sensed_keeps_inv (configFacts hc).kRpm.le hi h
  have hc' : configOk (sensed s).cfg = true := by rwa [sensed_cfg]
  have hi' : (sensed s).initDone = true := by rwa [sensed_frame]
  have hstate := sensed_state s
  rcases tickPipeline_cases s with ⟨-, e⟩ | ⟨-, -, hd, e⟩ | ⟨hs, -, e⟩ | ⟨hs, -, e⟩ <;> rw [e]
  · exact outputsOff_keeps_inv hsensed
  · exact faultEntry_keeps_inv hd hsensed
  · exact startingTick_keeps_inv _ hc' hi' (hstate.trans hs) hsensed
  · exact runningTick_keeps_inv _ hc' hi' (hstate.trans hs) hsensed

theorem startCommand_keeps_inv {s : State} (h : Inv s) : Inv (startCommand s) := by
  rw [startCommand_eq]
  split
  · rename_i hs; exact enterStarting_keeps_inv hs h
  · exact h

theorem stopCommand_keeps_inv {s : State} (h : Inv s) : Inv (stopCommand s) := by
  rw [stopCommand_eq]
  split
  · rename_i hs
    exact leaveToStop_keeps_inv (by rcases hs with hs | hs <;> simp [hs]) h
  · exact outputsOff_keeps_inv h

theorem faultCommand_keeps_inv (c : FaultCode) {s : State} (h : Inv s) : Inv (faultCommand c s) := by
  rw [faultCommand_eq]
  split
  · exact h
  · rename_i hc; exact faultEntry_keeps_inv hc h

theorem clearCommand_keeps_inv (m : Meas) {s : State} (h : Inv s) : Inv (clearCommand m s) := by
  unfold clearCommand
  split
  · rename_i hs; exact faultReturn_keeps_inv hs.1 h
  · exact h

theorem modeCommand_keeps_inv (mode : ControlMode) {s : State} (h : Inv s) : Inv (modeCommand mode s) := by
  unfold modeCommand
  split
  · exact pidReset_keeps_inv { h with operational := fun hi => { h.operational hi with } }
  · exact h

theorem directionCommand_keeps_inv (dir : Direction) {s : State} (h : Inv s) : Inv (directionCommand dir s) := by
  unfold directionCommand
  split
  · exact { h with operational := fun hi => { h.operational hi with } }
  · exact h

theorem setSpeed_keeps_inv (v : Quantity) {s : State} (h : Inv s) : Inv { s with targetSpeed := v } :=
  { h with operational := fun hi => { h.operational hi with } }

theorem setTorque_keeps_inv {p : BitVec 7} (hp : p.toNat ≤ 100) {s : State} (h : Inv s) :
    Inv { s with targetTorque := p } :=
  { h with torqueRange := hp, operational := fun hi => { h.operational hi with } }

theorem respond_keeps_inv (v : Word32) {s : State} (h : Inv s) : Inv (respond v s) :=
  { h with operational := fun hi => { h.operational hi with } }

/-- What the decoder answers passes the operand checks (30_encoding.md R99). -/
theorem decode_wellFormed {w : CommandWord} {i : Instr} (h : decode w = .ok i) : i.wellFormed = true := by
  unfold decode at h
  split at h
  case h_4 => obtain ⟨rfl, hf⟩ := decodeF32_eq_ok.mp h; exact hf
  case h_5 => obtain ⟨rfl, -, hp⟩ := decodeP7_eq_ok.mp h; exact decide_eq_true hp
  case h_6 => obtain ⟨c, rfl, -⟩ := decodeC3_eq_ok.mp h; rfl
  case h_10 => obtain ⟨m, rfl, -⟩ := decodeM2_eq_ok.mp h; rfl
  case h_11 => obtain ⟨d, rfl, -⟩ := decodeD1_eq_ok.mp h; rfl
  case h_12 => cases h
  all_goals obtain ⟨rfl, -⟩ := decodeZ_eq_ok.mp h; rfl

theorem exec_keeps_inv {i : Instr} (hw : i.wellFormed = true) {s t : State} (h : Inv s) (he : exec i s = .next t) :
    Inv t := by
  obtain ⟨hc, ⟨-, -, rfl⟩ | ⟨hi, hcmd⟩⟩ := exec_next_cases he
  · exact initialise_inv s
  rcases hcmd with ⟨-, rfl⟩ | ⟨-, rfl⟩ | ⟨v, -, rfl⟩ | ⟨p, rfl, rfl⟩ | ⟨c, -, rfl⟩ | ⟨-, rfl⟩ | ⟨-, -, rfl⟩ |
    ⟨-, -, rfl⟩ | ⟨m, -, rfl⟩ | ⟨d, -, rfl⟩
  · exact startCommand_keeps_inv h
  · exact stopCommand_keeps_inv h
  · exact setSpeed_keeps_inv _ h
  · exact setTorque_keeps_inv (of_decide_eq_true hw) h
  · exact faultCommand_keeps_inv c h
  · exact respond_keeps_inv _ h
  · exact clearCommand_keeps_inv _ h
  · exact tickPipeline_keeps_inv hc hi h
  · exact modeCommand_keeps_inv m h
  · exact directionCommand_keeps_inv d h

/-- Settles O47: taking a presented command touches nothing the invariant speaks of, and every command keeps it; the
decoder's operand check gives the range of the percent. -/
theorem stepKeepsTheInvariant : Obligations.StepKeepsTheInvariant := fun _ _ hs h =>
  step_keeps accept_keeps_inv (fun _ _ _ _ hd hs he => exec_keeps_inv (decode_wellFormed hd) hs he) hs h

/-! ### Values of type Num (00_scope.md R16) -/

theorem value32_le_maxFinite {w : Word32} (h : finite32 w = true) : |value32 w| ≤ FloatFormat.single.maxFinite := by
  obtain ⟨m, j, hm, -, hj, e⟩ := value32_eq w h
  have hm' : |(m : Quantity)| ≤ ((2 ^ 24 - 1 : Nat) : Quantity) := by exact_mod_cast (by omega : |m| ≤ 2 ^ 24 - 1)
  rw [e, abs_mul, abs_of_pos (pow2_pos j)]
  exact mul_le_mul hm' (pow2_le_iff.mpr hj) (pow2_pos j).le (Nat.cast_nonneg _)

/-- A format that reaches at least as far as binary32 holds the value of every finite datum (30_encoding.md R94). -/
theorem round_value32 (f : FloatFormat) (hp : 24 ≤ f.precision) (hmin : f.emin - ((f.precision : Int) - 1) ≤ -149)
    (hmax : FloatFormat.single.maxFinite ≤ f.maxFinite) {w : Word32} (h : finite32 w = true) :
    f.round (value32 w) = some (value32 w) := by
  have hle := (value32_le_maxFinite h).trans hmax
  obtain ⟨m, j, hm, hj, -, e⟩ := value32_eq w h
  have hpow : (2 : Int) ^ 24 ≤ 2 ^ f.precision := pow_le_pow_right₀ (by norm_num) hp
  rw [e] at hle ⊢
  exact f.round_of_multiple (hm.le.trans hpow) (by omega) (hmin.trans hj) hle

theorem holdsNum_value32 (m : NumModel) {w : Word32} (h : finite32 w = true) : holdsNum m (value32 w) = true := by
  cases m with
  | exact => exact holdsNum_exact _
  | binary32 => exact holdsNum_iff.mpr (round_value32 .single (by decide) (by decide) (le_refl _) h)
  | binary64 => exact holdsNum_iff.mpr (round_value32 .double (by decide) (by decide) (by decide +kernel) h)

theorem holdsNum_rate (a : Arith) (kRpm : Quantity) (period : Int) : holdsNum a.model (rate a kRpm period) = true := by
  have hfree := holdsNum_magnitude (holdsNum_free a .rate)
  unfold rate
  split
  · exact hfree
  · exact holdsNum_getD hfree

theorem holdsNum_ite_zero {m : NumModel} {x : Quantity} (p : Prop) [Decidable p] (h : holdsNum m x = true) :
    holdsNum m (if p then 0 else x) = true := by
  split
  · exact holdsNum_zero m
  · exact h

/-! ### Every operation keeps the registers of type Num in range -/

theorem faultEntry_keeps_nums (c : FaultCode) {s : State} (h : NumsHeld s) : NumsHeld (faultEntry c s) := by
  obtain ⟨hspeed, hrpm, hint, herr⟩ := h
  rw [faultEntry_eq]
  exact ⟨hspeed, hrpm, holdsNum_ite_zero _ hint, holdsNum_ite_zero _ herr⟩

theorem leaveToStop_keeps_nums {s : State} (h : NumsHeld s) : NumsHeld (leaveToStop s) := by
  obtain ⟨hspeed, hrpm, hint, herr⟩ := h
  rw [leaveToStop_eq]
  exact ⟨hspeed, hrpm, holdsNum_ite_zero _ hint, holdsNum_ite_zero _ herr⟩

theorem pidReset_keeps_nums {s : State} (h : NumsHeld s) : NumsHeld (pidReset s) := by
  obtain ⟨hspeed, hrpm, -, -⟩ := h
  exact ⟨hspeed, hrpm, holdsNum_zero _, holdsNum_zero _⟩

theorem enterStarting_keeps_nums {s : State} (h : NumsHeld s) : NumsHeld (enterStarting s) :=
  ⟨h.1, holdsNum_zero _, holdsNum_zero _, holdsNum_zero _⟩

theorem initialise_nums (s : State) : NumsHeld (initialise s) :=
  ⟨holdsNum_zero _, holdsNum_zero _, holdsNum_zero _, holdsNum_zero _⟩

theorem sensed_keeps_nums {s : State} (h : NumsHeld s) : NumsHeld (sensed s) := by
  obtain ⟨hspeed, hrpm, hint, herr⟩ := h
  have hnew : holdsNum s.cfg.numModel (sensed s).rpm = true := by
    rcases sensed_rpm_cases s with e | ⟨-, e⟩ | ⟨-, e⟩ <;> rw [e]
    · exact holdsNum_zero _
    · exact holdsNum_rate (arithOf (advanceTick s)) _ _
    · exact hrpm
  rw [sensed_frame]
  exact ⟨hspeed, hnew, hint, herr⟩

/-- A PID step stores a clamped sum and a difference, both rounded (43_speed_controller.md R161, R162). -/
theorem pidStep_keeps_nums (target cur : Quantity) {s : State} (h : NumsHeld s) : NumsHeld (pidStep target cur s).1 := by
  obtain ⟨hspeed, hrpm, -, -⟩ := h
  exact ⟨hspeed, hrpm, holdsNum_antiWindup (arithOf s) _ (holdsNum_result _ _ _), holdsNum_result (arithOf s) _ _⟩

theorem drive_keeps_nums (m : Meas) (target : Int) (soft : Quantity) {s : State} (h : NumsHeld s) :
    NumsHeld (drive m target soft s) := by
  rw [drive_frame]; exact h

theorem startingTick_keeps_nums (m : Meas) {s : State} (h : NumsHeld s) : NumsHeld (startingTick m s) := by
  rcases startingTick_cases m (s := s) rfl rfl with ⟨-, e⟩ | ⟨-, -, e⟩ | ⟨-, -, e⟩ <;> rw [e]
  · exact drive_keeps_nums _ _ _ h
  · exact faultEntry_keeps_nums _ h
  · exact drive_keeps_nums _ _ _ h

theorem runningTick_keeps_nums (m : Meas) {s : State} (h : NumsHeld s) : NumsHeld (runningTick m s) := by
  rcases runningTick_cases m s with ⟨-, e⟩ | ⟨-, e⟩ | ⟨-, e⟩ <;> rw [e]
  · exact drive_keeps_nums _ _ _ h
  · exact drive_keeps_nums _ _ _ (pidStep_keeps_nums _ _ h)
  · exact drive_keeps_nums _ _ _ h

theorem tickPipeline_keeps_nums {s : State} (h : NumsHeld s) : NumsHeld (tickPipeline (samplesValue s.ports) s) := by
  have hsensed := sensed_keeps_nums h
  rcases tickPipeline_cases s with ⟨-, e⟩ | ⟨-, -, -, e⟩ | ⟨-, -, e⟩ | ⟨-, -, e⟩ <;> rw [e]
  · exact hsensed
  · exact faultEntry_keeps_nums _ hsensed
  · exact startingTick_keeps_nums _ hsensed
  · exact runningTick_keeps_nums _ hsensed

theorem startCommand_keeps_nums {s : State} (h : NumsHeld s) : NumsHeld (startCommand s) := by
  rw [startCommand_eq]
  split
  · exact enterStarting_keeps_nums h
  · exact h

theorem stopCommand_keeps_nums {s : State} (h : NumsHeld s) : NumsHeld (stopCommand s) := by
  rw [stopCommand_eq]
  split
  · exact leaveToStop_keeps_nums h
  · exact h

theorem faultCommand_keeps_nums (c : FaultCode) {s : State} (h : NumsHeld s) : NumsHeld (faultCommand c s) := by
  rw [faultCommand_eq]
  split
  · exact h
  · exact faultEntry_keeps_nums c h

theorem clearCommand_keeps_nums (m : Meas) {s : State} (h : NumsHeld s) : NumsHeld (clearCommand m s) := by
  unfold clearCommand
  split <;> exact h

theorem modeCommand_keeps_nums (mode : ControlMode) {s : State} (h : NumsHeld s) : NumsHeld (modeCommand mode s) := by
  unfold modeCommand
  split
  · exact pidReset_keeps_nums h
  · exact h

theorem directionCommand_keeps_nums (dir : Direction) {s : State} (h : NumsHeld s) :
    NumsHeld (directionCommand dir s) := by
  unfold directionCommand
  split <;> exact h

/-! ### Every command keeps the registers of type Num in range -/

theorem exec_keeps_nums {i : Instr} (hw : i.wellFormed = true) {s t : State} (h : NumsHeld s)
    (he : exec i s = .next t) : NumsHeld t := by
  obtain ⟨-, ⟨-, -, rfl⟩ | ⟨-, hcmd⟩⟩ := exec_next_cases he
  · exact initialise_nums s
  rcases hcmd with ⟨-, rfl⟩ | ⟨-, rfl⟩ | ⟨v, rfl, rfl⟩ | ⟨p, -, rfl⟩ | ⟨c, -, rfl⟩ | ⟨-, rfl⟩ | ⟨-, -, rfl⟩ |
    ⟨-, -, rfl⟩ | ⟨m, -, rfl⟩ | ⟨d, -, rfl⟩
  · exact startCommand_keeps_nums h
  · exact stopCommand_keeps_nums h
  · exact ⟨holdsNum_value32 _ hw, h.2⟩
  · exact h
  · exact faultCommand_keeps_nums c h
  · exact h
  · exact clearCommand_keeps_nums _ h
  · exact tickPipeline_keeps_nums h
  · exact modeCommand_keeps_nums m h
  · exact directionCommand_keeps_nums d h

/-- Settles O48: every write to a register of type Num stores zero, a rounded result, a clamp of such values or the value
of a finite datum. -/
theorem stepKeepsRegistersNums : Obligations.StepKeepsRegistersNums := fun _ _ hs h =>
  step_keeps (fun _ _ _ hs => hs) (fun _ _ _ _ hd hs he => exec_keeps_nums (decode_wellFormed hd) hs he) hs h

/-! ### The frame of LOOP -/

/-- Settles O34: LOOP answers the state after its tick, whose frame says what it keeps. -/
theorem loopCompletesWithinItsFrame : Obligations.LoopCompletesWithinItsFrame := by
  intro s hr hf
  obtain ⟨htick, hdraws, hinit, hmode, hdir, hspeed, htorque, hresp, hports, hpending, hcfg, -, -, -, -, -, hramp⟩ :=
    tickPipeline_frame s
  refine ⟨_, execLoop_of_ready hr hf, htick, hdraws, hinit, hmode, hdir, hspeed, htorque, hresp, hports, hpending, hcfg,
    fun hs => hramp fun hstart => ?_⟩
  simp [hstart.1] at hs

/-! ### Mode, direction and the response port -/

/-- Mode, direction and the response word are the same in both states. -/
structure SettingsKept (s t : State) : Prop where
  mode : t.mode = s.mode
  dir : t.dir = s.dir
  resp : t.resp = s.resp

theorem faultEntry_keeps_settings (c : FaultCode) (s : State) : SettingsKept s (faultEntry c s) := by
  rw [faultEntry_eq]; exact ⟨rfl, rfl, rfl⟩

theorem startCommand_keeps_settings (s : State) : SettingsKept s (startCommand s) := by
  rw [startCommand_eq]
  split <;> exact ⟨rfl, rfl, rfl⟩

theorem stopCommand_keeps_settings (s : State) : SettingsKept s (stopCommand s) := by
  rw [stopCommand_eq, leaveToStop_eq]
  split <;> exact ⟨rfl, rfl, rfl⟩

theorem faultCommand_keeps_settings (c : FaultCode) (s : State) : SettingsKept s (faultCommand c s) := by
  rw [faultCommand_eq]
  split
  · exact ⟨rfl, rfl, rfl⟩
  · exact faultEntry_keeps_settings c s

theorem clearCommand_keeps_settings (m : Meas) (s : State) : SettingsKept s (clearCommand m s) := by
  unfold clearCommand
  split <;> exact ⟨rfl, rfl, rfl⟩

theorem tickPipeline_keeps_settings (s : State) : SettingsKept s (tickPipeline (samplesValue s.ports) s) := by
  obtain ⟨-, -, -, hmode, hdir, -, -, hresp, -⟩ := tickPipeline_frame s
  exact ⟨hmode, hdir, hresp⟩

/-- What a command after INIT can do to the mode, the direction and the response word. -/
theorem exec_settings_cases {i : Instr} {s t : State} (hi : s.initDone = true) (he : exec i s = .next t) :
    SettingsKept s t ∨ (i = .getFault ∧ t = respond (faultResponse s.fault) s) ∨
      (∃ m, i = .setMode m ∧ s.state = .stop ∧ t = pidReset { s with mode := m }) ∨
      (∃ d, i = .setDirection d ∧ s.state = .stop ∧ t = { s with dir := d }) := by
  obtain ⟨-, ⟨-, h0, -⟩ | ⟨-, hcmd⟩⟩ := exec_next_cases he
  · simp [hi] at h0
  rcases hcmd with ⟨-, rfl⟩ | ⟨-, rfl⟩ | ⟨v, -, rfl⟩ | ⟨p, -, rfl⟩ | ⟨c, -, rfl⟩ | ⟨rfl, rfl⟩ | ⟨-, -, rfl⟩ |
    ⟨-, -, rfl⟩ | ⟨m, rfl, rfl⟩ | ⟨d, rfl, rfl⟩
  · exact .inl (startCommand_keeps_settings s)
  · exact .inl (stopCommand_keeps_settings s)
  · exact .inl ⟨rfl, rfl, rfl⟩
  · exact .inl ⟨rfl, rfl, rfl⟩
  · exact .inl (faultCommand_keeps_settings c s)
  · exact .inr (.inl ⟨rfl, rfl⟩)
  · exact .inl (clearCommand_keeps_settings _ s)
  · exact .inl (tickPipeline_keeps_settings s)
  · unfold modeCommand
    split
    · rename_i hs; exact .inr (.inr (.inl ⟨m, rfl, hs.1, rfl⟩))
    · exact .inl ⟨rfl, rfl, rfl⟩
  · unfold directionCommand
    split
    · rename_i hs; exact .inr (.inr (.inr ⟨d, rfl, hs, rfl⟩))
    · exact .inl ⟨rfl, rfl, rfl⟩

/-- Settles O54: only SET_MODE and SET_DIRECTION in Stop write the mode and the direction. -/
theorem modeAndDirectionChangeOnlyInStop : Obligations.ModeAndDirectionChangeOnlyInStop := by
  intro i s t hi he
  rcases exec_settings_cases hi he with h | ⟨-, rfl⟩ | ⟨m, rfl, hs, rfl⟩ | ⟨d, rfl, hs, rfl⟩
  · exact ⟨fun hm => absurd h.mode hm, fun hd => absurd h.dir hd⟩
  · exact ⟨fun hm => absurd rfl hm, fun hd => absurd rfl hd⟩
  · exact ⟨fun _ => ⟨hs, rfl⟩, fun hd => absurd rfl hd⟩
  · exact ⟨fun hm => absurd rfl hm, fun _ => ⟨hs, rfl⟩⟩

/-! ### The input ports -/

/-- The outcome with other samples on the ports of its next state. -/
def withPorts (p : Samples) (r : Result) : Result :=
  match r with
  | .next t => .next { t with ports := p }
  | .fault x => .fault x
  | .refused x => .refused x

theorem whenReady_withPorts (p : Samples) (s : State) (r : Result) :
    whenReady { s with ports := p } (withPorts p r) = withPorts p (whenReady s r) := by
  unfold whenReady
  split_ifs <;> rfl

theorem whenUninitialised_withPorts (p : Samples) (s : State) (r : Result) :
    whenUninitialised { s with ports := p } (withPorts p r) = withPorts p (whenUninitialised s r) := by
  unfold whenUninitialised
  split_ifs <;> rfl

theorem startCommand_ports (p : Samples) (s : State) :
    startCommand { s with ports := p } = { startCommand s with ports := p } := by
  rw [startCommand_eq, startCommand_eq]
  split_ifs <;> rfl

theorem stopCommand_ports (p : Samples) (s : State) :
    stopCommand { s with ports := p } = { stopCommand s with ports := p } := by
  rw [stopCommand_eq, stopCommand_eq, leaveToStop_eq, leaveToStop_eq]
  split_ifs <;> rfl

theorem faultCommand_ports (p : Samples) (c : FaultCode) (s : State) :
    faultCommand c { s with ports := p } = { faultCommand c s with ports := p } := by
  rw [faultCommand_eq, faultCommand_eq, faultEntry_eq, faultEntry_eq]
  split_ifs <;> rfl

theorem modeCommand_ports (p : Samples) (m : ControlMode) (s : State) :
    modeCommand m { s with ports := p } = { modeCommand m s with ports := p } := by
  unfold modeCommand
  split_ifs <;> rfl

theorem directionCommand_ports (p : Samples) (d : Direction) (s : State) :
    directionCommand d { s with ports := p } = { directionCommand d s with ports := p } := by
  unfold directionCommand
  split_ifs <;> rfl

/-- A command whose effect does not read the ports answers the same whatever stands on them. -/
theorem whenReady_effect_ports {f : State → State} (p : Samples) (s : State)
    (hf : f { s with ports := p } = { f s with ports := p }) :
    whenReady { s with ports := p } (.next (f { s with ports := p })) = withPorts p (whenReady s (.next (f s))) := by
  rw [hf]
  exact whenReady_withPorts p s (.next (f s))

theorem exec_ports {i : Instr} (hl : i ≠ .loop) (hc : i ≠ .clearFault) (s : State) (p : Samples) :
    exec i { s with ports := p } = withPorts p (exec i s) := by
  cases i with
  | init => exact whenUninitialised_withPorts p s (.next (initialise s))
  | start => exact whenReady_effect_ports p s (startCommand_ports p s)
  | stop => exact whenReady_effect_ports p s (stopCommand_ports p s)
  | setSpeed v => exact whenReady_withPorts p s (.next { s with targetSpeed := speedOperand v })
  | setTorque q => exact whenReady_withPorts p s (.next { s with targetTorque := percentOperand q })
  | faultHandler c => exact whenReady_effect_ports p s (faultCommand_ports p c s)
  | getFault => exact whenReady_withPorts p s (.next (respond (faultResponse s.fault) s))
  | clearFault => exact absurd rfl hc
  | loop => exact absurd rfl hl
  | setMode m => exact whenReady_effect_ports p s (modeCommand_ports p m s)
  | setDirection d => exact whenReady_effect_ports p s (directionCommand_ports p d s)

/-! ### The response port -/

theorem exec_keeps_resp {i : Instr} {s t : State} (hg : i ≠ .getFault) (he : exec i s = .next t) : t.resp = s.resp := by
  obtain ⟨-, ⟨-, -, rfl⟩ | ⟨hi, -⟩⟩ := exec_next_cases he
  · rfl
  rcases exec_settings_cases hi he with h | ⟨rfl, -⟩ | ⟨m, -, -, rfl⟩ | ⟨d, -, -, rfl⟩
  · exact h.resp
  · exact absurd rfl hg
  · rfl
  · rfl

theorem exec_getFault_eq_next {s t : State} (he : exec .getFault s = .next t) :
    t = respond (faultResponse s.fault) s := by
  obtain ⟨-, -, h⟩ := whenReady_eq_next.mp he
  exact (Host.Outcome.next.inj h).symm

/-- An observer reads a response only of GET_FAULT: the latched code. -/
theorem nextResponse_eq_some {s : State} {p : Presented} {rest : List Presented} {i : Instr} {r : Word32}
    (hp : s.pending = p :: rest) (hd : decode p.cmd = .ok i) (hr : nextResponse s = some r) :
    i = .getFault ∧ r = faultResponse s.fault := by
  simp only [nextResponse, hp, hd] at hr
  cases i
  case getFault => exact ⟨rfl, (Option.some.inj hr).symm⟩
  all_goals cases hr

/-- Settles O57: the effects that read no port commute with a change of the ports; GET_FAULT alone writes the response
word, and writes there the word the observer reads. -/
theorem portsAreReadAndDrivenByTheirCommands : Obligations.PortsAreReadAndDrivenByTheirCommands := by
  refine ⟨fun i s p hl hc => exec_ports hl hc s p, fun i s t hg he => exec_keeps_resp hg he, ?_⟩
  intro s t r hstep hr
  obtain ⟨-, ⟨hp, -⟩ | ⟨p, rest, i, hp, hd, he⟩⟩ := step_next_cases hstep
  · simp [nextResponse, hp] at hr
  · obtain ⟨rfl, rfl⟩ := nextResponse_eq_some hp hd hr
    rw [exec_getFault_eq_next he]
    rfl

end Sys2Proof.Proofs.StateRecord
end

section
/-! Proofs for the family of 42_speed_estimator.md: the four estimator registers after a LOOP. -/

namespace Sys2Proof.Proofs.SpeedEstimator

open Sys2Proof.Machine Sys2Proof.Safety

/-- The period of the estimator, from its two readings (10_state.md R44): a plain difference where TICK_W is unbounded,
and a difference modulo 2^TICK_W where it is finite. -/
theorem eq_sinceTransition {s : State} {d : Int}
    (hunbounded : s.cfg.tickWidth = none → d = ((s.tick : Int) + 1) - (s.lastTs : Int))
    (hfinite : ∀ w, s.cfg.tickWidth = some w → d = (((s.tick : Int) + 1) % 2 ^ w - (s.lastTs : Int)) % 2 ^ w) :
    d = sinceTransition s := by
  cases hw : s.cfg.tickWidth with
  | none => simp [hunbounded hw, sinceTransition, now, hw]
  | some w => simp [hfinite w hw, sinceTransition, now, hw]

/-- A nonzero period whose quotient the model can hold has no free value: its rate is the rounded quotient
(42_speed_estimator.md R142). -/
theorem rate_of_roundIn {a : Arith} {kRpm r : Quantity} {period : Int} (hp : period ≠ 0)
    (hr : roundIn a.model (kRpm / (period : Quantity)) = some r) : rate a kRpm period = r := by
  simp [rate, hp, hr]

/-- A LOOP with a transition raises no stall (42_speed_estimator.md R144). -/
theorem not_stalled_of_transition {s : State} (h : Transition s) : ¬ Stalled s := fun ⟨_, hn, _⟩ => hn h

/-- Settles O35: the steps of LOOP after the estimator keep its registers, so the state after the tick has those that the
estimator leaves; `d` is the period it measures. -/
theorem loopUpdatesTheEstimator : Obligations.LoopUpdatesTheEstimator := by
  intro s d hr hf hunbounded hfinite
  obtain rfl := eq_sinceTransition hunbounded hfinite
  obtain ⟨-, -, -, -, -, -, -, -, -, -, -, hlastTs, hlastSector, hhasPrior, hrpm, -⟩ := tickPipeline_frame s
  obtain ⟨htrans, hkeep, hstall, hrate, hheld⟩ := sensed_spec s
  refine ⟨_, execLoop_of_ready hr hf, ?_⟩
  rw [hlastTs, hlastSector, hhasPrior, hrpm]
  refine ⟨htrans, hkeep, ?first, ?later, ?stalled, ?held⟩
  case first =>
    intro hT hp
    simp [hrate (not_stalled_of_transition hT) hT, hp]
  case later =>
    intro r hT hp hd hround
    rw [hrate (not_stalled_of_transition hT) hT, if_pos hp]
    exact rate_of_roundIn hd hround
  case stalled => exact fun hs hT hlt => hstall ⟨hs, hT, hlt⟩
  case held =>
    intro hT hsafe
    refine hheld (fun ⟨hs, _, hlt⟩ => ?_) hT
    rcases hsafe with hne | hle
    · exact hne hs
    · exact hle.not_gt hlt

end Sys2Proof.Proofs.SpeedEstimator
end

section
/-! Proofs for the family of 43_speed_controller.md: the PID step of a Running tick in Speed mode, the outputs that it
drives, and the commands that reset the PID. -/

namespace Sys2Proof.Proofs.SpeedController

open Sys2Proof.Machine Sys2Proof.Safety

/-! ### Operations with a finite rounded result (00_scope.md R16) -/

theorem result_of_roundIn {a : Arith} {site : OpSite} {x y : Quantity} (h : roundIn a.model x = some y) :
    a.result site x = y := by
  simp [Arith.result, h]

theorem div_of_roundIn {a : Arith} {site : OpSite} {x y z : Quantity} (hy : y ≠ 0)
    (h : roundIn a.model (x / y) = some z) : a.div site x y = z := by
  rw [Arith.div, if_neg hy, result_of_roundIn h]

/-- QUANTIZE of a value in its domain is a duty (00_scope.md R12). -/
theorem quantize_range (a : Arith) (site : OpSite) (q : Quantizer) {x : Quantity} (h0 : 0 ≤ x) (h1 : x ≤ 1000) :
    0 ≤ quantize a site q x ∧ quantize a site q x ≤ 1000 := by
  have hfloor : 0 ≤ x.floor := Rat.le_floor_iff.mpr (by exact_mod_cast h0)
  cases q with
  | floor =>
    have hle : (x.floor : Quantity) ≤ ((1000 : Int) : Quantity) := (Rat.floor_le x).trans (by exact_mod_cast h1)
    exact ⟨hfloor, by exact_mod_cast hle⟩
  | cuts cs =>
    obtain ⟨hlow, hhigh⟩ := cutQuantize_bounds cs x
    have hlt : (cutQuantize cs x : Quantity) < ((1001 : Int) : Quantity) := by push_cast; linarith
    have hlt' : cutQuantize cs x < 1001 := by exact_mod_cast hlt
    simp only [quantize, if_pos (And.intro h0 h1)]
    omega

/-! ### The outputs of a healthy tick (44_current_limiter.md, 46_tick_pipeline.md R223) -/

theorem foldback_of_roundIn {a : Arith} {d : Int} {i soft hard h p w q : Quantity}
    (hh : roundIn a.model (hard - i) = some h) (hp : roundIn a.model ((d : Quantity) * h) = some p)
    (hw : roundIn a.model (hard - soft) = some w) (hw0 : w ≠ 0) (hq : roundIn a.model (p / w) = some q) :
    foldback a d i soft hard = q := by
  rw [foldback, Arith.sub, result_of_roundIn hh, Arith.mul, result_of_roundIn hp, Arith.sub, result_of_roundIn hw,
    div_of_roundIn hw0 hq]

/-- LIMIT below the hard threshold: never above the target, the target up to the soft threshold, and the foldback duty
beyond it (44_current_limiter.md R182, R183, R185). -/
theorem limit_below_hard (a : Arith) (q : Quantizer) {d : Int} {i hard : Quantity} (soft : Quantity) (hd : 0 ≤ d)
    (hi : i < hard) :
    0 ≤ (limit a q d i soft hard).duty ∧ (limit a q d i soft hard).duty ≤ d ∧
      (i ≤ soft → (limit a q d i soft hard).duty = d) ∧
      (soft < i → (limit a q d i soft hard).duty =
        max 0 (min (quantize a .foldbackQuantize q (foldback a d i soft hard)) d)) := by
  rcases limit_cases a q d i soft hard with ⟨h, -⟩ | ⟨-, h, e⟩ | ⟨-, h, e⟩
  · exact absurd h hi.not_ge
  · rw [e]
    obtain ⟨h0, hle⟩ := foldbackDuty_range a q hd i soft hard
    refine ⟨h0, hle, fun hs => ?_, fun hs => ?_⟩
    · rw [le_antisymm hs h]; exact foldbackDuty_at_soft a q d soft hard
    · simp only [foldbackDuty, if_neg hs.ne']
  · rw [e]
    exact ⟨hd, le_refl d, fun _ => rfl, fun hs => absurd h hs.not_gt⟩

theorem drive_of_pattern {m : Meas} {x : State} {p : PhasePattern} (target : Int) (soft : Quantity)
    (hp : commutate x.cfg.commTable m.hall x.dir = .pattern p) :
    drive m target soft x =
      { x with
        duty := dutyWord (limit (arithOf x) x.cfg.quantize target m.i soft x.cfg.hardLimit).duty
        outPhase := p
        outEn := true } := by
  rw [drive, hp]; rfl

/-- Steps 6 and 7 of a healthy LOOP from `s`, on any state with the configuration, the direction and the draw of that
LOOP: the outputs are those that `Drives` says, for a target that is a duty. -/
theorem drive_drives {s x : State} {target : Int} (soft : Quantity) (hcfg : x.cfg = s.cfg) (hdir : x.dir = s.dir)
    (hdraws : x.draws = s.draws + 1) (hh : Healthy s) (h0 : 0 ≤ target) (h1 : target ≤ 1000) :
    Drives s (drive (samplesValue s.ports) target soft x) target soft := by
  have ha : arithOf x = { model := s.cfg.numModel, draw := s.draws + 1 } := by rw [arithOf, hcfg, hdraws]
  have hp := commutate_of_valid x.cfg.commTable s.ports.hall x.dir hh.sector
  have hdrive := drive_of_pattern (m := samplesValue s.ports) target soft hp
  have hlt : current s < x.cfg.hardLimit := by rw [hcfg]; exact hh.current
  obtain ⟨hd0, hdle, hpass, hfold⟩ := limit_below_hard (arithOf x) x.cfg.quantize soft h0 hlt
  have hduty : ((drive (samplesValue s.ports) target soft x).duty.toNat : Int) =
      (limit (arithOf x) x.cfg.quantize target (current s) soft x.cfg.hardLimit).duty := by
    rw [hdrive]
    exact dutyWord_of_duty hd0 (hdle.trans h1)
  exact
    { enabled := by rw [hdrive]
      pattern := by rw [hdrive, ← hcfg, ← hdir]; exact hp
      neverRaised := hduty.trans_le hdle
      passThrough := fun hs => hduty.trans (hpass hs)
      foldback := fun hs h p w q eh ep ew hw0 eq => by
        rw [hduty, hfold hs, hcfg, ha, foldback_of_roundIn (a := ⟨_, _⟩) eh ep ew hw0 eq] }

/-! ### AW by its bounds (43_speed_controller.md R162) -/

theorem antiWindup_of_no_gain (a : Arith) {c : Config} (h : c.ki = 0) (x : Quantity) : antiWindup a c x = x := by
  simp [antiWindup, h]

theorem antiWindup_of_bounds {a : Arith} {c : Config} {lo hi : Quantity} (x : Quantity)
    (hlo : roundIn a.model (c.outMin / c.ki) = some lo) (hhi : roundIn a.model (c.outMax / c.ki) = some hi) :
    (0 < c.ki → antiWindup a c x = clamp x lo hi) ∧ (c.ki < 0 → antiWindup a c x = clamp x hi lo) := by
  constructor <;> intro hk
  · simp [antiWindup, hk, hlo, hhi]
  · simp [antiWindup, hk, hk.not_gt, hlo, hhi]

/-- A far bound without a finite value limits nothing (log 21). -/
theorem antiWindup_of_near_bound {a : Arith} {c : Config} {b : Quantity} (x : Quantity)
    (hb : roundIn a.model (c.outMin / c.ki) = some b) (hfar : roundIn a.model (c.outMax / c.ki) = none) :
    (0 < c.ki → antiWindup a c x = max x b) ∧ (c.ki < 0 → antiWindup a c x = min x b) := by
  constructor <;> intro hk
  · simp [antiWindup, hk, hb, hfar]
  · simp [antiWindup, hk, hk.not_gt, hb, hfar]

/-! ### The PID step of a Speed tick (43_speed_controller.md R160) -/

/-- The stored integral of a PID step as a function of the error it stores (R161, R162). -/
theorem pidStep_pidIntegral (target cur : Quantity) (s : State) :
    (pidStep target cur s).1.pidIntegral =
      pidIntegralStep (arithOf s) s.cfg s.pidIntegral (pidStep target cur s).1.pidPrevError := rfl

/-- The registers after a PID step whose error and raw integral round to finite values (R161, R162). -/
theorem pidStep_registers {target cur e step raw : Quantity} {s : State}
    (he : roundIn s.cfg.numModel (target - cur) = some e) (hstep : roundIn s.cfg.numModel (e * s.cfg.dt) = some step)
    (hraw : roundIn s.cfg.numModel (s.pidIntegral + step) = some raw) :
    (pidStep target cur s).1.pidPrevError = e ∧
      (pidStep target cur s).1.pidIntegral = antiWindup (arithOf s) s.cfg raw := by
  have herror : (pidStep target cur s).1.pidPrevError = e := result_of_roundIn (a := arithOf s) he
  refine ⟨herror, ?_⟩
  rw [pidStep_pidIntegral, herror, pidIntegralStep, Arith.mul, result_of_roundIn hstep, Arith.add,
    result_of_roundIn hraw]

/-- The duty target of a PID step as a function of the registers it stores (R163 to R165). -/
theorem pidStep_target (target cur : Quantity) (s : State) :
    (pidStep target cur s).2 = quantize (arithOf s) .pidQuantize s.cfg.quantize
      (clamp (pidOutput (arithOf s) s.cfg (pidStep target cur s).1.pidPrevError (pidStep target cur s).1.pidIntegral
        (pidDerivative (arithOf s) s.cfg s.pidPrevError (pidStep target cur s).1.pidPrevError))
        s.cfg.outMin s.cfg.outMax) := rfl

theorem pidDerivative_of_roundIn {a : Arith} {c : Config} {prev e change d : Quantity} (hdt : c.dt ≠ 0)
    (hchange : roundIn a.model (e - prev) = some change) (hd : roundIn a.model (change / c.dt) = some d) :
    pidDerivative a c prev e = d := by
  rw [pidDerivative, Arith.sub, result_of_roundIn hchange, div_of_roundIn hdt hd]

theorem pidOutput_of_roundIn {a : Arith} {c : Config} {e i d p ki kd pi u : Quantity}
    (hp : roundIn a.model (c.kp * e) = some p) (hi : roundIn a.model (c.ki * i) = some ki)
    (hd : roundIn a.model (c.kd * d) = some kd) (hpi : roundIn a.model (p + ki) = some pi)
    (hu : roundIn a.model (pi + kd) = some u) : pidOutput a c e i d = u := by
  simp only [pidOutput, Arith.add, Arith.mul, result_of_roundIn hp, result_of_roundIn hi, result_of_roundIn hd,
    result_of_roundIn hpi, result_of_roundIn hu]

/-- The saturated output lies in the domain of QUANTIZE, so the duty target is a duty (R165; 00_scope.md R8). -/
theorem pidStep_target_range (target cur : Quantity) {s : State} (hc : ConfigFacts s.cfg) :
    0 ≤ (pidStep target cur s).2 ∧ (pidStep target cur s).2 ≤ 1000 := by
  rw [pidStep_target]
  exact quantize_range _ _ _ (hc.outMin.trans (le_clamp hc.outOrder)) ((clamp_le hc.outOrder).trans hc.outMax)

/-- The PID step of a Speed tick from `s`: on the registers of `s` and the speed estimate of this same LOOP (R160). -/
def speedStep (s : State) : State × Int := pidStep s.targetSpeed (sensed s).rpm (sensed s)

/-- A healthy Running LOOP in Speed mode drives the target of its PID step (46_tick_pipeline.md R222). -/
theorem tickPipeline_of_speed {s : State} (hs : s.state = .running) (hm : s.mode = .speed) (hh : Healthy s) :
    tickPipeline (samplesValue s.ports) s =
      drive (samplesValue s.ports) (speedStep s).2 s.cfg.softLimit (speedStep s).1 := by
  have hmode : (sensed s).mode = .speed := by rw [sensed_frame, hm]
  have hspeed : (sensed s).targetSpeed = s.targetSpeed := by rw [sensed_frame]
  rcases tickPipeline_cases s with ⟨h, -⟩ | ⟨-, h, -, -⟩ | ⟨h, -⟩ | ⟨-, -, e⟩
  · simp [hs] at h
  · exact absurd hh h
  · simp [hs] at h
  · rcases runningTick_cases (samplesValue s.ports) (sensed s) with ⟨h, -⟩ | ⟨-, e'⟩ | ⟨h, -⟩
    · simp [hmode] at h
    · rw [e, e', hspeed, sensed_cfg, speedStep]
    · simp [hmode] at h

theorem arithOf_sensed (s : State) : arithOf (sensed s) = { model := s.cfg.numModel, draw := s.draws + 1 } := by
  rw [sensed_frame]; rfl

/-- The PID registers after a Speed tick: those that its PID step stores. -/
theorem speedStep_registers {s : State} {e step raw : Quantity}
    (he : roundIn s.cfg.numModel (s.targetSpeed - (sensed s).rpm) = some e)
    (hstep : roundIn s.cfg.numModel (e * s.cfg.dt) = some step)
    (hraw : roundIn s.cfg.numModel (s.pidIntegral + step) = some raw) :
    (speedStep s).1.pidPrevError = e ∧ (speedStep s).1.pidIntegral =
      antiWindup { model := s.cfg.numModel, draw := s.draws + 1 } s.cfg raw := by
  have hint : (sensed s).pidIntegral = s.pidIntegral := by rw [sensed_frame]
  rw [← hint] at hraw
  rw [← sensed_cfg s] at he hstep hraw
  rw [← arithOf_sensed, ← sensed_cfg s]
  exact pidStep_registers he hstep hraw

/-- The duty target of a Speed tick, each operation rounded in its order (R163 to R165). -/
theorem speedStep_target {s : State} {e change d p i k pi u : Quantity} (hc : ConfigFacts s.cfg)
    (he : (speedStep s).1.pidPrevError = e) (hchange : roundIn s.cfg.numModel (e - s.pidPrevError) = some change)
    (hd : roundIn s.cfg.numModel (change / s.cfg.dt) = some d) (hp : roundIn s.cfg.numModel (s.cfg.kp * e) = some p)
    (hi : roundIn s.cfg.numModel (s.cfg.ki * (speedStep s).1.pidIntegral) = some i)
    (hk : roundIn s.cfg.numModel (s.cfg.kd * d) = some k) (hpi : roundIn s.cfg.numModel (p + i) = some pi)
    (hu : roundIn s.cfg.numModel (pi + k) = some u) :
    (speedStep s).2 = quantize { model := s.cfg.numModel, draw := s.draws + 1 } .pidQuantize s.cfg.quantize
      (clamp u s.cfg.outMin s.cfg.outMax) := by
  have hprev : (sensed s).pidPrevError = s.pidPrevError := by rw [sensed_frame]
  have htarget := pidStep_target s.targetSpeed (sensed s).rpm (sensed s)
  rw [← speedStep, he, hprev, sensed_cfg, arithOf_sensed, pidDerivative_of_roundIn hc.dt.ne' hchange hd,
    pidOutput_of_roundIn hp hi hk hpi hu] at htarget
  exact htarget

theorem speedStep_frame (s : State) :
    (speedStep s).1.state = s.state ∧ (speedStep s).1.fault = s.fault ∧ (speedStep s).1.rpm = (sensed s).rpm ∧
      (speedStep s).1.cfg = s.cfg ∧ (speedStep s).1.dir = s.dir ∧ (speedStep s).1.draws = s.draws + 1 := by
  rw [speedStep, pidStep_frame, sensed_frame]
  exact ⟨rfl, rfl, rfl, rfl, rfl, rfl⟩

/-- The registers and the outputs after a healthy Running LOOP in Speed mode. -/
theorem tickPipeline_of_speed_frame {s : State} (hc : ConfigFacts s.cfg) (hs : s.state = .running)
    (hm : s.mode = .speed) (hh : Healthy s) :
    (tickPipeline (samplesValue s.ports) s).state = .running ∧
      (tickPipeline (samplesValue s.ports) s).fault = s.fault ∧
      (tickPipeline (samplesValue s.ports) s).rpm = (sensed s).rpm ∧
      (tickPipeline (samplesValue s.ports) s).pidPrevError = (speedStep s).1.pidPrevError ∧
      (tickPipeline (samplesValue s.ports) s).pidIntegral = (speedStep s).1.pidIntegral ∧
      Drives s (tickPipeline (samplesValue s.ports) s) (speedStep s).2 s.cfg.softLimit := by
  have hc' : ConfigFacts (sensed s).cfg := by rwa [sensed_cfg]
  obtain ⟨h0, h1⟩ := pidStep_target_range s.targetSpeed (sensed s).rpm hc'
  obtain ⟨hstate, hfault, hrpm, hcfg, hdir, hdraws⟩ := speedStep_frame s
  rw [tickPipeline_of_speed hs hm hh]
  refine ⟨?_, ?_, ?_, ?_, ?_, drive_drives _ hcfg hdir hdraws hh h0 h1⟩ <;> rw [drive_frame]
  · exact hstate.trans hs
  · exact hfault
  · exact hrpm

/-- Settles O40: the LOOP stores the registers of its PID step and drives the step's target; each is that of the
pseudocode where the rounded results are finite. -/
theorem speedTickRoundsEachOperation : Obligations.SpeedTickRoundsEachOperation := by
  intro s hr hf hs hm hh
  have hc := configFacts hr.1
  obtain ⟨hstate, hfault, hrpm, herr, hint, hdrives⟩ := tickPipeline_of_speed_frame hc hs hm hh
  refine ⟨_, execLoop_of_ready hr hf, hstate, hfault, ?_⟩
  rw [hrpm, herr, hint]
  intro e step raw he hstep hraw
  obtain ⟨heq, hieq⟩ := speedStep_registers he hstep hraw
  refine ⟨heq, ?noGain, ?bounds, ?nearBound, ?target⟩
  case noGain => exact fun hki => hieq.trans (antiWindup_of_no_gain _ hki raw)
  case bounds => exact fun lo hi hlo hhi => hieq ▸ antiWindup_of_bounds raw hlo hhi
  case nearBound => exact fun b hb hfar => hieq ▸ antiWindup_of_near_bound raw hb hfar
  case target =>
    intro change d p i k pi u hchange hd hp hi hk hpi hu
    rw [← speedStep_target hc heq hchange hd hp hi hk hpi hu]
    exact hdrives

/-- Settles O39: under exact arithmetic rounding answers its argument, so the tick that rounds each operation is exact. -/
theorem speedTickRunsThePid : Obligations.SpeedTickRunsThePid := by
  intro s hr hf hs hm hh hexact
  obtain ⟨t, ht, hstate, hfault, hpid⟩ := speedTickRoundsEachOperation s hr hf hs hm hh
  rw [hexact] at hpid
  obtain ⟨herr, hnoGain, hbounds, -, htarget⟩ := hpid _ _ _ rfl rfl rfl
  obtain ⟨hpos, hneg⟩ := hbounds _ _ rfl rfl
  rw [← herr] at hnoGain hpos hneg htarget
  exact ⟨t, ht, hstate, hfault, herr, hpos, hneg, hnoGain, htarget _ _ _ _ _ _ _ rfl rfl rfl rfl rfl rfl rfl⟩

/-! ### SET_MODE (47_commands.md R248) -/

theorem modeCommand_of_change {m : ControlMode} {s : State} (hs : s.state = .stop) (hm : m ≠ s.mode) :
    modeCommand m s = { s with mode := m, pidIntegral := 0, pidPrevError := 0 } :=
  if_pos ⟨hs, hm⟩

theorem modeCommand_of_no_change {m : ControlMode} {s : State} (h : s.state ≠ .stop ∨ m = s.mode) :
    modeCommand m s = s :=
  if_neg fun ⟨hs, hm⟩ => h.elim (fun h => h hs) hm

/-- Settles O32: SET_MODE takes effect exactly on a new mode in Stop. -/
theorem setModeOnlyInStop : Obligations.SetModeOnlyInStop := by
  intro s m hr
  have hexec : exec (.setMode m) s = .next (modeCommand m s) := whenReady_of_ready hr _
  rw [hexec]
  exact ⟨fun hs hm => by rw [modeCommand_of_change hs hm], fun h => by rw [modeCommand_of_no_change h]⟩

/-! ### Who writes the PID registers (43_speed_controller.md R166, R167) -/

/-- Both PID registers are the same in both states. -/
def PidKept (s t : State) : Prop := t.pidIntegral = s.pidIntegral ∧ t.pidPrevError = s.pidPrevError

/-- Both PID registers are zero. -/
def PidZero (t : State) : Prop := t.pidIntegral = 0 ∧ t.pidPrevError = 0

theorem PidKept.trans {s x t : State} (h : PidKept s x) (h' : PidKept x t) : PidKept s t :=
  ⟨h'.1.trans h.1, h'.2.trans h.2⟩

/-- From `s` to `t` the PID registers are kept, or reset on the way out of Running. -/
def PidKeptOrLeft (s t : State) : Prop := PidKept s t ∨ (PidZero t ∧ s.state = .running ∧ t.state ≠ .running)

theorem faultEntry_pid (c : FaultCode) (s : State) : PidKeptOrLeft s (faultEntry c s) := by
  rw [faultEntry_eq]
  by_cases h : s.state = .running
  · exact .inr ⟨⟨if_pos h, if_pos h⟩, h, by simp⟩
  · exact .inl ⟨if_neg h, if_neg h⟩

theorem leaveToStop_pid (s : State) : PidKeptOrLeft s (leaveToStop s) := by
  rw [leaveToStop_eq]
  by_cases h : s.state = .running
  · exact .inr ⟨⟨if_pos h, if_pos h⟩, h, by simp⟩
  · exact .inl ⟨if_neg h, if_neg h⟩

theorem startCommand_pid (s : State) :
    PidKept s (startCommand s) ∨ (PidZero (startCommand s) ∧ s.state = .stop) := by
  rw [startCommand_eq]
  split
  · rename_i h; exact .inr ⟨⟨rfl, rfl⟩, h⟩
  · exact .inl ⟨rfl, rfl⟩

theorem stopCommand_pid (s : State) : PidKeptOrLeft s (stopCommand s) := by
  rw [stopCommand_eq]
  split
  · exact leaveToStop_pid s
  · exact .inl ⟨rfl, rfl⟩

theorem faultCommand_pid (c : FaultCode) (s : State) : PidKeptOrLeft s (faultCommand c s) := by
  rw [faultCommand_eq]
  split
  · exact .inl ⟨rfl, rfl⟩
  · exact faultEntry_pid c s

theorem clearCommand_pid (m : Meas) (s : State) : PidKept s (clearCommand m s) := by
  unfold clearCommand
  split <;> exact ⟨rfl, rfl⟩

theorem directionCommand_pid (d : Direction) (s : State) : PidKept s (directionCommand d s) := by
  unfold directionCommand
  split <;> exact ⟨rfl, rfl⟩

theorem modeCommand_pid (m : ControlMode) (s : State) :
    PidKept s (modeCommand m s) ∨ (PidZero (modeCommand m s) ∧ (modeCommand m s).mode ≠ s.mode) := by
  by_cases h : s.state = .stop ∧ m ≠ s.mode
  · rw [modeCommand_of_change h.1 h.2]; exact .inr ⟨⟨rfl, rfl⟩, h.2⟩
  · rw [modeCommand_of_no_change (by tauto)]; exact .inl ⟨rfl, rfl⟩

theorem sensed_pid (s : State) : PidKept s (sensed s) := by rw [sensed_frame]; exact ⟨rfl, rfl⟩

/-- A Starting tick does not write the PID registers, its ramp timeout included (R167). -/
theorem startingTick_pid (m : Meas) {s : State} (hs : s.state = .starting) : PidKept s (startingTick m s) := by
  have hne : s.state ≠ .running := by simp [hs]
  rcases startingTick_cases m (s := s) rfl rfl with ⟨-, e⟩ | ⟨-, -, e⟩ | ⟨-, -, e⟩ <;> rw [e]
  · rw [drive_frame]; exact ⟨rfl, rfl⟩
  · rw [faultEntry_eq]; exact ⟨if_neg hne, if_neg hne⟩
  · rw [drive_frame]; exact ⟨rfl, rfl⟩

/-- Only the Speed branch of a Running tick writes the PID registers (R167). -/
theorem runningTick_pid (m : Meas) {s : State} (hm : s.mode ≠ .speed) : PidKept s (runningTick m s) := by
  rcases runningTick_cases m s with ⟨-, e⟩ | ⟨h, -⟩ | ⟨-, e⟩
  · rw [e, drive_frame]; exact ⟨rfl, rfl⟩
  · exact absurd h hm
  · rw [e, drive_frame]; exact ⟨rfl, rfl⟩

/-- What a LOOP does to the PID registers: it keeps them, resets them as it takes a fault from Running, or runs the PID
in a healthy Running tick in Speed mode. -/
theorem tickPipeline_pid (s : State) :
    PidKeptOrLeft s (tickPipeline (samplesValue s.ports) s) ∨
      (s.state = .running ∧ s.mode = .speed ∧ Healthy s) := by
  have hkept := sensed_pid s
  have hstate := sensed_state s
  rcases tickPipeline_cases s with ⟨-, e⟩ | ⟨-, -, -, e⟩ | ⟨hs, -, e⟩ | ⟨hs, hh, e⟩
  · rw [e]; exact .inl (.inl hkept)
  · rw [e]
    rcases faultEntry_pid (detected s) (sensed s) with h | ⟨hzero, hrun, hleft⟩
    · exact .inl (.inl (hkept.trans h))
    · exact .inl (.inr ⟨hzero, hstate ▸ hrun, hleft⟩)
  · rw [e]; exact .inl (.inl (hkept.trans (startingTick_pid _ (hstate.trans hs))))
  · by_cases hm : s.mode = .speed
    · exact .inr ⟨hs, hm, hh⟩
    · have hm' : (sensed s).mode ≠ .speed := by rwa [sensed_frame]
      rw [e]; exact .inl (.inl (hkept.trans (runningTick_pid _ hm')))

/-- Settles O56: each command keeps the PID registers, or resets them on its own condition; LOOP alone runs the PID. -/
theorem pidChangesOnlyBySpeedTicksAndResets : Obligations.PidChangesOnlyBySpeedTicksAndResets := by
  intro i s t hi he
  obtain ⟨-, ⟨-, h0, -⟩ | ⟨-, hcmd⟩⟩ := exec_next_cases he
  · simp [hi] at h0
  rcases hcmd with ⟨rfl, rfl⟩ | ⟨-, rfl⟩ | ⟨v, -, rfl⟩ | ⟨p, -, rfl⟩ | ⟨c, -, rfl⟩ | ⟨-, rfl⟩ | ⟨-, -, rfl⟩ |
    ⟨rfl, -, rfl⟩ | ⟨m, -, rfl⟩ | ⟨d, -, rfl⟩
  · exact (startCommand_pid s).imp_right fun ⟨hz, hs⟩ => .inl ⟨hz.1, hz.2, .inl ⟨rfl, hs⟩⟩
  · exact (stopCommand_pid s).imp_right fun ⟨hz, hleft⟩ => .inl ⟨hz.1, hz.2, .inr (.inl hleft)⟩
  · exact .inl ⟨rfl, rfl⟩
  · exact .inl ⟨rfl, rfl⟩
  · exact (faultCommand_pid c s).imp_right fun ⟨hz, hleft⟩ => .inl ⟨hz.1, hz.2, .inr (.inl hleft)⟩
  · exact .inl ⟨rfl, rfl⟩
  · exact .inl (clearCommand_pid _ s)
  · rcases tickPipeline_pid s with h | hspeed
    · exact h.imp_right fun ⟨hz, hleft⟩ => .inl ⟨hz.1, hz.2, .inr (.inl hleft)⟩
    · exact .inr (.inr ⟨rfl, hspeed⟩)
  · exact (modeCommand_pid m s).imp_right fun ⟨hz, hmode⟩ => .inl ⟨hz.1, hz.2, .inr (.inr hmode)⟩
  · exact .inl (directionCommand_pid d s)

end Sys2Proof.Proofs.SpeedController
end

section
/-! Proofs for the family of 44_current_limiter.md: the range of LIMIT, and the foldback zone under exact arithmetic. -/

namespace Sys2Proof.Proofs.CurrentLimiter

open Sys2Proof.Machine Sys2Proof.Proofs.SpeedController

/-! ### QUANTIZE on its domain (00_scope.md R12) -/

theorem quantize_natCast (a : Arith) (site : OpSite) (q : Quantizer) {n : Nat} (hn : n ≤ 1000) :
    quantize a site q (n : Quantity) = n := by
  cases q with
  | floor => rw [quantize, ← Int.cast_natCast (R := Quantity), Rat.floor_intCast]
  | cuts cs =>
    have hdom : 0 ≤ (n : Quantity) ∧ (n : Quantity) ≤ 1000 := ⟨n.cast_nonneg, by exact_mod_cast hn⟩
    rw [quantize, if_pos hdom, ← Int.cast_natCast (R := Quantity), cutQuantize_intCast]

/-- A cut lies below the next integer, so QUANTIZE does not pass an integer. -/
theorem quantize_le_of_le_natCast (a : Arith) (site : OpSite) (q : Quantizer) {x : Quantity} {n : Nat} (h0 : 0 ≤ x)
    (hx : x ≤ n) (hn : n ≤ 1000) : quantize a site q x ≤ n := by
  cases q with
  | floor =>
    have hle : (x.floor : Quantity) ≤ n := (Rat.floor_le x).trans hx
    exact_mod_cast hle
  | cuts cs =>
    have hdom : 0 ≤ x ∧ x ≤ 1000 := ⟨h0, hx.trans (by exact_mod_cast hn)⟩
    have hlt : (cutQuantize cs x : Quantity) < ((n + 1 : Int) : Quantity) := by
      push_cast
      exact (cutQuantize_bounds cs x).2.trans_le (by gcongr)
    simp only [quantize, if_pos hdom]
    exact Int.lt_add_one_iff.mp (by exact_mod_cast hlt)

/-! ### The foldback zone under exact arithmetic (R182) -/

theorem foldback_of_exact {a : Arith} (ha : a.model = .exact) (d : Int) (i : Quantity) {soft hard : Quantity}
    (h : soft < hard) : foldback a d i soft hard = d * (hard - i) / (hard - soft) := by
  have hround (x : Quantity) : roundIn a.model x = some x := by rw [ha]; rfl
  exact foldback_of_roundIn (hround _) (hround _) (hround _) (sub_ne_zero.mpr h.ne') (hround _)

/-- The factor of R182 is in 0..1, so the scaled duty is in 0..d. -/
theorem scaledDuty_range {d i soft hard : Quantity} (hd : 0 ≤ d) (hs : soft ≤ i) (hi : i < hard) :
    0 ≤ d * (hard - i) / (hard - soft) ∧ d * (hard - i) / (hard - soft) ≤ d := by
  have hspan : 0 < hard - soft := sub_pos.mpr (hs.trans_lt hi)
  have hroom : 0 ≤ hard - i := (sub_pos.mpr hi).le
  exact ⟨by positivity, (div_le_iff₀ hspan).mpr (by gcongr)⟩

/-- Under exact arithmetic neither the hold at I = soft nor the one to 0..d changes the foldback (log 20). -/
theorem foldbackDuty_of_exact {a : Arith} (ha : a.model = .exact) (q : Quantizer) {d : Nat} {i soft hard : Quantity}
    (hd : d ≤ 1000) (hs : soft ≤ i) (hi : i < hard) :
    foldbackDuty a q d i soft hard =
      quantize a .foldbackQuantize q ((d : Quantity) * (hard - i) / (hard - soft)) := by
  have hlt : soft < hard := hs.trans_lt hi
  rcases hs.eq_or_lt with rfl | hs'
  · rw [foldbackDuty_at_soft, mul_div_cancel_right₀ _ (sub_ne_zero.mpr hlt.ne'), quantize_natCast a _ q hd]
  · obtain ⟨h0, hle⟩ := scaledDuty_range (Nat.cast_nonneg d) hs hi
    have hlow := (quantize_range a .foldbackQuantize q h0 (hle.trans (by exact_mod_cast hd))).1
    have hhigh := quantize_le_of_le_natCast a .foldbackQuantize q h0 hle hd
    rw [foldbackDuty, if_neg hs'.ne', foldback_of_exact ha _ _ hlt, Int.cast_natCast, min_eq_left hhigh,
      max_eq_right hlow]

/-! ### LIMIT -/

/-- Settles O44, by the zone of the measured current. -/
theorem limitNeverRaisesTheDuty : Obligations.LimitNeverRaisesTheDuty := by
  intro a q d i soft hard hd hlt
  have hd0 : (0 : Int) ≤ d := d.cast_nonneg
  rcases limit_cases a q d i soft hard with ⟨hi, e⟩ | ⟨hi, hs, e⟩ | ⟨hi, hs, e⟩
  · rw [e]
    exact ⟨le_refl 0, hd0, fun h => absurd (hlt.trans_le hi) h.not_gt, fun _ => rfl, iff_of_true rfl hi,
      fun _ _ h => absurd hi h.not_ge⟩
  · obtain ⟨h0, hle, hpass, -⟩ := limit_below_hard a q soft hd0 hi
    refine ⟨h0, hle, hpass, fun h => absurd h hi.not_ge, ?_, fun ha _ _ => ?_⟩
    · rw [e]; exact iff_of_false Bool.false_ne_true hi.not_ge
    · rw [e]; exact foldbackDuty_of_exact ha q hd hs hi
  · rw [e]
    exact ⟨hd0, le_refl _, fun _ => rfl, fun h => absurd h hi.not_ge, iff_of_false Bool.false_ne_true hi.not_ge,
      fun _ h => absurd h hs.not_ge⟩

end Sys2Proof.Proofs.CurrentLimiter
end

section
/-! Proofs for the family of 46_tick_pipeline.md: the healthy tick in Starting, and in Running in the two modes without a
PID step. -/

namespace Sys2Proof.Proofs.TickPipeline

open Sys2Proof.Machine Sys2Proof.Safety Sys2Proof.Proofs.StateRecord Sys2Proof.Proofs.SpeedController

/-! ### Steps 3 to 7 of a healthy LOOP (46_tick_pipeline.md R220) -/

theorem tickPipeline_of_starting {s : State} (hs : s.state = .starting) (hh : Healthy s) :
    tickPipeline (samplesValue s.ports) s = startingTick (samplesValue s.ports) (sensed s) := by
  rcases tickPipeline_cases s with ⟨h, -⟩ | ⟨-, h, -⟩ | ⟨-, -, e⟩ | ⟨h, -⟩
  · simp [hs] at h
  · exact absurd hh h
  · exact e
  · simp [hs] at h

theorem tickPipeline_of_running {s : State} (hs : s.state = .running) (hh : Healthy s) :
    tickPipeline (samplesValue s.ports) s = runningTick (samplesValue s.ports) (sensed s) := by
  rcases tickPipeline_cases s with ⟨h, -⟩ | ⟨-, h, -⟩ | ⟨h, -⟩ | ⟨-, -, e⟩
  · simp [hs] at h
  · exact absurd hh h
  · simp [hs] at h
  · exact e

/-- What steps 1 and 2 of a healthy LOOP leave unchanged of the fields that steps 3 to 7 read, and the draw they take. -/
theorem sensed_keeps (s : State) :
    (sensed s).mode = s.mode ∧ (sensed s).fault = s.fault ∧ (sensed s).dir = s.dir ∧
      (sensed s).targetTorque = s.targetTorque ∧ (sensed s).rampTicks = s.rampTicks ∧
      (sensed s).draws = s.draws + 1 := by
  rw [sensed_frame]; exact ⟨rfl, rfl, rfl, rfl, rfl, rfl⟩

/-! ### The Starting tick (45_state_machine.md R202) -/

/-- A healthy Starting LOOP keeps the PID registers, its ramp timeout included (43_speed_controller.md R167). -/
theorem tickPipeline_pid_of_starting {s : State} (hs : s.state = .starting) (hh : Healthy s) :
    PidKept s (tickPipeline (samplesValue s.ports) s) := by
  rw [tickPipeline_of_starting hs hh]
  exact (sensed_pid s).trans (startingTick_pid _ ((sensed_state s).trans hs))

/-- The ramp duty is driven as `Drives` says on any state that differs from the sensed one in `state` and `ramp_ticks`
alone: on the promoted one and on the one that stays in Starting. -/
theorem drive_ramp_drives {s : State} (hc : ConfigFacts s.cfg) (hh : Healthy s) (n k : Nat) (m : MotorState) :
    Drives s (drive (samplesValue s.ports) (rampDutyAt s.cfg.rampDuty k) s.cfg.softLimit
      { sensed s with rampTicks := n, state := m }) (rampDutyAt s.cfg.rampDuty k) s.cfg.softLimit := by
  obtain ⟨-, -, hdir, -, -, hdraws⟩ := sensed_keeps s
  exact drive_drives _ (sensed_cfg s) hdir hdraws hh (Int.natCast_nonneg _) (by exact_mod_cast hc.ramp k)

/-- Settles O38, by the branch of STARTING_STEP that the speed estimate of this LOOP and the ramp counter select. -/
theorem startingTickPromotesTimesOutOrRamps : Obligations.StartingTickPromotesTimesOutOrRamps := by
  intro s hr hf hs hh
  obtain ⟨-, hfault, -, -, hramp, -⟩ := sensed_keeps s
  obtain ⟨-, -, -, -, -, -, -, -, -, -, -, -, -, -, hrpm, hcount, -⟩ := tickPipeline_frame s
  obtain ⟨hint, herr⟩ := tickPipeline_pid_of_starting hs hh
  have hdrives := drive_ramp_drives (configFacts hr.1) hh ((sensed s).rampTicks + 1) (s.rampTicks + 1)
  refine ⟨_, execLoop_of_ready hr hf, hcount ⟨hs, hh⟩, hint, herr, ?_⟩
  rw [hrpm, tickPipeline_of_starting hs hh]
  rcases startingTick_cases (samplesValue s.ports) (sensed_cfg s) hramp with
    ⟨hfast, e⟩ | ⟨hslow, hlate, e⟩ | ⟨hslow, hearly, e⟩ <;> rw [e]
  case inl =>
    refine ⟨fun _ => ⟨?_, ?_, hdrives .running⟩, fun h => absurd hfast h.not_gt, fun h => absurd hfast h.not_gt⟩
    · rw [drive_frame]
    · rw [drive_frame]; exact hfault
  case inr.inl =>
    refine ⟨fun h => absurd h hslow.not_gt, fun _ _ => ⟨?_, ?_, faultEntry_off _ _⟩, fun _ h => absurd hlate h.not_ge⟩
    · rw [faultEntry_eq]
    · rw [faultEntry_eq, ← hfault]
  case inr.inr =>
    refine ⟨fun h => absurd h hslow.not_gt, fun _ h => absurd h hearly.not_ge, fun _ _ => ⟨?_, ?_, ?_⟩⟩
    · rw [drive_frame]; exact (sensed_state s).trans hs
    · rw [drive_frame]; exact hfault
    · exact hdrives (sensed s).state

/-! ### The Running tick without a PID step (46_tick_pipeline.md R222) -/

theorem runningTick_of_openLoop (m : Meas) {s : State} (h : s.mode = .openLoop) :
    runningTick m s = drive m s.cfg.openLoopDuty s.cfg.softLimit s := by
  rw [runningTick, h]

theorem runningTick_of_torque (m : Meas) {s : State} (h : s.mode = .torque) :
    runningTick m s = drive m ((10 * s.targetTorque.toNat : Nat) : Int)
      (torqueSoft (arithOf s) s.cfg s.targetTorque) s := by
  rw [runningTick, h]

/-- Driving a duty on the sensed state: the frame and the outputs of a healthy LOOP that writes no other register. -/
theorem drive_sensed_spec {s : State} {target : Int} (soft : Quantity) (hh : Healthy s) (h0 : 0 ≤ target)
    (h1 : target ≤ 1000) :
    (drive (samplesValue s.ports) target soft (sensed s)).state = s.state ∧
      (drive (samplesValue s.ports) target soft (sensed s)).fault = s.fault ∧
      (drive (samplesValue s.ports) target soft (sensed s)).pidIntegral = s.pidIntegral ∧
      (drive (samplesValue s.ports) target soft (sensed s)).pidPrevError = s.pidPrevError ∧
      Drives s (drive (samplesValue s.ports) target soft (sensed s)) target soft := by
  obtain ⟨-, hfault, hdir, -, -, hdraws⟩ := sensed_keeps s
  obtain ⟨hint, herr⟩ := sensed_pid s
  refine ⟨?_, ?_, ?_, ?_, drive_drives soft (sensed_cfg s) hdir hdraws hh h0 h1⟩ <;> rw [drive_frame]
  · exact sensed_state s
  · exact hfault
  · exact hint
  · exact herr

/-- Settles O42: in OpenLoop mode a healthy Running LOOP drives OPENLOOP_DUTY on the sensed state. -/
theorem openLoopTickDrivesTheConfiguredDuty : Obligations.OpenLoopTickDrivesTheConfiguredDuty := by
  intro s hr hf hs hm hh
  have hmode : (sensed s).mode = .openLoop := (sensed_keeps s).1.trans hm
  refine ⟨_, execLoop_of_ready hr hf, ?_⟩
  rw [tickPipeline_of_running hs hh, runningTick_of_openLoop _ hmode, sensed_cfg, ← hs]
  exact drive_sensed_spec _ hh (Int.natCast_nonneg _) (by exact_mod_cast (configFacts hr.1).openLoop)

/-- The torque current reference where both of its operations round to finite values (44_current_limiter.md R184). -/
theorem torqueSoft_of_roundIn {a : Arith} {c : Config} {percent : BitVec 7} {f r : Quantity}
    (hf : roundIn a.model ((percent.toNat : Quantity) / 100) = some f)
    (hr : roundIn a.model (f * c.torqueFullScale) = some r) : torqueSoft a c percent = min c.softLimit r := by
  rw [torqueSoft, div_of_roundIn (by norm_num) hf, Arith.mul, result_of_roundIn hr]

/-- Settles O43: in Torque mode a healthy Running LOOP drives ten times the percent on the sensed state, under the torque
current reference. -/
theorem torqueTickDrivesThePercent : Obligations.TorqueTickDrivesThePercent := by
  intro s hr hf hs hm hh hpercent
  obtain ⟨hmode, -, -, htorque, -⟩ := sensed_keeps s
  have hle : ((10 * s.targetTorque.toNat : Nat) : Int) ≤ 1000 := by omega
  refine ⟨_, execLoop_of_ready hr hf, ?_⟩
  rw [tickPipeline_of_running hs hh, runningTick_of_torque _ (hmode.trans hm), htorque, sensed_cfg, arithOf_sensed, ← hs]
  obtain ⟨hstate, hfault, hint, herr, hdrives⟩ := drive_sensed_spec
    (torqueSoft { model := s.cfg.numModel, draw := s.draws + 1 } s.cfg s.targetTorque) hh (Int.natCast_nonneg _) hle
  refine ⟨hstate, hfault, hint, herr, fun f r hfrac href => ?_⟩
  rw [← torqueSoft_of_roundIn (a := ⟨_, s.draws + 1⟩) hfrac href]
  exact hdrives

end Sys2Proof.Proofs.TickPipeline
end

section
/-! Proofs for the family of 47_commands.md: the words of the commands, and the whole next state each answers where the
block is ready. -/

namespace Sys2Proof.Proofs.Commands

open Sys2Proof.Machine Sys2Proof.Safety

/-! ### CLEAR_FAULT (47_commands.md R247) -/

theorem samplesValue_ports (s : State) :
    samplesValue s.ports = { hall := s.ports.hall, i := current s, v := voltage s, t := temperature s } := rfl

/-- SAFE code by code, on the sample that stands on the ports (60_exceptions.md R280). -/
theorem safe_iff (s : State) :
    safe s.cfg s.fault (samplesValue s.ports) = true ↔
      (s.fault = .overcurrent ∧ current s < s.cfg.hardLimit) ∨ (s.fault = .overvoltage ∧ voltage s < s.cfg.ovLimit) ∨
        (s.fault = .undervoltage ∧ s.cfg.uvLimit < voltage s) ∨ (s.fault = .overtemp ∧ temperature s < s.cfg.otLimit) ∨
        (s.fault = .hallError ∧ ValidSector s) ∨ s.fault = .stall := by
  rw [samplesValue_ports]
  cases s.fault with
  | hallError => simp [safe, validFlag_iff, ValidSector]
  | overcurrent | overvoltage | undervoltage | overtemp | stall | none => simp [safe]

theorem clearCommand_of_safe {m : Meas} {s : State} (h : s.state = .fault ∧ safe s.cfg s.fault m = true) :
    clearCommand m s = { s with state := .stop, fault := .none, duty := 0, outPhase := 0, outEn := false } :=
  if_pos h

theorem clearCommand_of_unsafe {m : Meas} {s : State} (h : ¬ (s.state = .fault ∧ safe s.cfg s.fault m = true)) :
    clearCommand m s = s :=
  if_neg h

theorem exec_clearFault_of_ready {s : State} (hr : Ready s) (hf : FiniteSample s) :
    exec .clearFault s = .next (clearCommand (samplesValue s.ports) s) :=
  (whenReady_of_ready hr _).trans (withSample_of_finite hf _)

/-- Settles O31: the statement's disjunction is SAFE of the latched code, the condition CLEAR_FAULT tests. -/
theorem clearFaultReverifiesTheLatchedCondition : Obligations.ClearFaultReverifiesTheLatchedCondition := by
  intro s hr hf
  rw [← safe_iff s, exec_clearFault_of_ready hr hf]
  exact ⟨fun h => by rw [clearCommand_of_safe h], fun h => by rw [clearCommand_of_unsafe h]⟩

/-! ### STOP (47_commands.md R242) -/

/-- STOP out of Running or Starting: LEAVE_TO_STOP (45_state_machine.md R203). -/
theorem stopCommand_of_starting_or_running {s : State} (h : s.state = .starting ∨ s.state = .running) :
    stopCommand s = leaveToStop s := by
  rw [stopCommand_eq, if_pos h]

theorem stopCommand_of_stop_or_fault {s : State} (h : s.state = .stop ∨ s.state = .fault) :
    stopCommand s = outputsOff s := by
  rw [stopCommand_eq, if_neg]
  rcases h with h | h <;> simp [h]

/-- Settles O26, by the MotorState STOP finds. -/
theorem stopLeavesToStopExceptFromFault : Obligations.StopLeavesToStopExceptFromFault := by
  intro s hr
  have hexec : exec .stop s = .next (stopCommand s) := whenReady_of_ready hr _
  rw [hexec]
  refine ⟨rfl, fun hs => ?_, fun hs => ?_, fun hs => ?_⟩
  · rw [stopCommand_of_starting_or_running (.inr hs), leaveToStop_eq]; simp [hs]
  · rw [stopCommand_of_starting_or_running (.inl hs), leaveToStop_eq]; simp [hs]
  · rw [stopCommand_of_stop_or_fault hs, outputsOff]

/-! ### SET_SPEED (47_commands.md R243) -/

theorem decode_setSpeed_word (v : Word32) : decode (0x04#8 ++ v) = decodeF32 v := by
  rw [decode, opField_append, argField_append]; rfl

/-- Settles O27: the decoder's operand check is the finiteness of the datum. -/
theorem setSpeedStoresTheTarget : Obligations.SetSpeedStoresTheTarget := by
  intro s v hr
  rw [decode_setSpeed_word]
  refine ⟨fun hv => ⟨decodeF32_eq_ok.mpr ⟨rfl, hv⟩, whenReady_of_ready hr _⟩, fun hv => ?_⟩
  rw [decodeF32, if_neg (by simp [hv])]

/-! ### SET_TORQUE (47_commands.md R244) -/

theorem decode_setTorque_word (p : Word32) : decode (0x05#8 ++ p) = decodeP7 p := by
  rw [decode, opField_append, argField_append]; rfl

/-- The operand check of form P7 bounds the whole operand, since 100 fits the 7 bits that may be nonzero
(30_encoding.md R95). -/
theorem percent_check_iff (p : Word32) :
    (p.extractLsb' 7 25 = 0 ∧ (p.extractLsb' 0 7).toNat ≤ 100) ↔ p.toNat ≤ 100 := by
  have hp : p.toNat < 2 ^ 32 := p.isLt
  have hupper : p.extractLsb' 7 25 = 0 ↔ p.toNat / 2 ^ 7 = 0 := by
    rw [← BitVec.toNat_inj, BitVec.extractLsb'_toNat, Nat.shiftRight_eq_div_pow,
      Nat.mod_eq_of_lt (by omega : p.toNat / 2 ^ 7 < 2 ^ 25)]
    rfl
  have hlower : (p.extractLsb' 0 7).toNat = p.toNat % 2 ^ 7 := by rw [BitVec.extractLsb'_toNat, Nat.shiftRight_zero]
  rw [hupper, hlower]
  omega

/-- Settles O28: the decoder's two operand checks are together the bound 100 on the operand. -/
theorem setTorqueStoresThePercent : Obligations.SetTorqueStoresThePercent := by
  intro s p hr
  rw [decode_setTorque_word]
  refine ⟨fun hp => ⟨decodeP7_eq_ok.mpr ⟨rfl, (percent_check_iff p).mpr hp⟩, whenReady_of_ready hr _⟩, fun hp => ?_⟩
  rw [decodeP7, if_neg fun h => hp.not_ge ((percent_check_iff p).mp h)]

/-! ### GET_FAULT (47_commands.md R246) -/

/-- Settles O30: the response word is the code, extended with zeros. -/
theorem getFaultRespondsWithTheLatchedCode : Obligations.GetFaultRespondsWithTheLatchedCode := by
  intro s hr
  obtain ⟨hzero, hcode⟩ := extract_zeroExtend (by decide : 3 ≤ 32) s.fault.code
  exact ⟨rfl, faultResponse s.fault, whenReady_of_ready hr _, hzero, hcode⟩

end Sys2Proof.Proofs.Commands
end

section
/-! Proofs for the family of 60_exceptions.md: the priority of detection, the entry into Fault, and what holds the
latched code and the Fault state until CLEAR_FAULT succeeds. -/

namespace Sys2Proof.Proofs.Exceptions

open Sys2Proof.Machine Sys2Proof.Safety Sys2Proof.Proofs.StateRecord Sys2Proof.Proofs.SpeedController
  Sys2Proof.Proofs.TickPipeline Sys2Proof.Proofs.Commands

/-! ### Detection (R271 to R276) -/

/-- The code a LOOP from `s` detects, by the first condition of the priority order that holds (R271, R274). -/
theorem detected_priority (s : State) :
    (s.cfg.hardLimit ≤ current s → detected s = .overcurrent) ∧
      (current s < s.cfg.hardLimit → s.cfg.ovLimit ≤ voltage s → detected s = .overvoltage) ∧
      (current s < s.cfg.hardLimit → voltage s < s.cfg.ovLimit → voltage s ≤ s.cfg.uvLimit →
        detected s = .undervoltage) ∧
      (current s < s.cfg.hardLimit → voltage s < s.cfg.ovLimit → s.cfg.uvLimit < voltage s →
        s.cfg.otLimit ≤ temperature s → detected s = .overtemp) ∧
      (current s < s.cfg.hardLimit → voltage s < s.cfg.ovLimit → s.cfg.uvLimit < voltage s →
        temperature s < s.cfg.otLimit → ¬ ValidSector s → detected s = .hallError) ∧
      (current s < s.cfg.hardLimit → voltage s < s.cfg.ovLimit → s.cfg.uvLimit < voltage s →
        temperature s < s.cfg.otLimit → ValidSector s → Stalled s → detected s = .stall) := by
  have hsector : validFlag s.ports.hall = false ↔ ¬ ValidSector s := by
    rw [← Bool.not_eq_true, validFlag_iff, ValidSector]
  rw [detected, samplesValue_ports, detect]
  refine ⟨fun h => if_pos h, fun hi h => ?_, fun hi hv h => ?_, fun hi hv hu h => ?_, fun hi hv hu ht h => ?_,
    fun hi hv hu ht hh h => ?_⟩
  · rw [if_neg hi.not_ge, if_pos h]
  · rw [if_neg hi.not_ge, if_neg hv.not_ge, if_pos h]
  · rw [if_neg hi.not_ge, if_neg hv.not_ge, if_neg hu.not_ge, if_pos h]
  · rw [if_neg hi.not_ge, if_neg hv.not_ge, if_neg hu.not_ge, if_neg ht.not_ge, if_pos (hsector.mpr h)]
  · rw [if_neg hi.not_ge, if_neg hv.not_ge, if_neg hu.not_ge, if_neg ht.not_ge, if_neg fun hn => hsector.mp hn hh,
      if_pos ((estimate_stall_iff s).mpr h)]

theorem tickPipeline_of_unhealthy {s : State} (hs : s.state = .starting ∨ s.state = .running) (hh : ¬ Healthy s) :
    tickPipeline (samplesValue s.ports) s = faultEntry (detected s) (sensed s) := by
  rcases tickPipeline_cases s with ⟨h, -⟩ | ⟨-, -, -, e⟩ | ⟨-, h, -⟩ | ⟨-, h, -⟩
  · rcases hs with hs | hs <;> simp [hs] at h
  · exact e
  · exact absurd h hh
  · exact absurd h hh

/-- FAULT_ENTRY resets the PID registers out of Running and keeps them elsewhere (R276). -/
theorem faultEntry_pid_by_state (c : FaultCode) (s : State) :
    (s.state = .running → PidZero (faultEntry c s)) ∧ (s.state ≠ .running → PidKept s (faultEntry c s)) := by
  rw [faultEntry_eq]
  exact ⟨fun h => ⟨if_pos h, if_pos h⟩, fun h => ⟨if_neg h, if_neg h⟩⟩

/-- Settles O37: an unhealthy LOOP enters Fault on the sensed state with the detected code; where the sample passes the
other five conditions, the one that fails `Healthy` is the stall. -/
theorem loopDetectsInPriorityOrder : Obligations.LoopDetectsInPriorityOrder := by
  intro s hr hf hs hnone hh
  obtain ⟨-, hfault, -, -, hramp, -⟩ := sensed_keeps s
  obtain ⟨hzero, hkept⟩ := faultEntry_pid_by_state (detected s) (sensed s)
  obtain ⟨hoc, hov, huv, hot, hhall, hstall⟩ := detected_priority s
  have hcode : (faultEntry (detected s) (sensed s)).fault = detected s := by
    rw [faultEntry_eq]; exact if_pos (hfault.trans hnone)
  have hstate : (faultEntry (detected s) (sensed s)).state = .fault := by rw [faultEntry_eq]
  have hticks : (faultEntry (detected s) (sensed s)).rampTicks = s.rampTicks := by rw [faultEntry_eq]; exact hramp
  refine ⟨_, execLoop_of_ready hr hf, ?_⟩
  rw [tickPipeline_of_unhealthy hs hh, hcode]
  refine ⟨hstate, faultEntry_off _ _, hoc, hov, huv, hot, hhall, fun hi hv hu ht hsec => ?_,
    fun hrun => hzero ((sensed_state s).trans hrun), fun hstart => ?_, hticks⟩
  · exact hstall hi hv hu ht hsec (by_contra fun hn => hh ⟨hi, hv, hu, ht, hsec, hn⟩)
  · exact (sensed_pid s).trans (hkept (by simp [sensed_state, hstart]))

/-! ### FAULT_HANDLER (47_commands.md R245) -/

/-- Settles O29: FAULT_HANDLER is FAULT_ENTRY of its code, by the MotorState it finds. -/
theorem faultHandlerEntersFault : Obligations.FaultHandlerEntersFault := by
  intro s c hr
  have hexec : exec (.faultHandler c) s = .next (faultCommand c s) := whenReady_of_ready hr _
  rw [hexec, faultCommand_eq]
  refine ⟨fun hc => by rw [if_pos hc], fun hc hs => ?_, fun hc hs => ?_⟩
  · rw [if_neg hc, faultEntry_eq]; simp [hs]
  · rw [if_neg hc, faultEntry_eq]; simp [hs]

/-! ### The latched code (R275) -/

theorem faultEntry_keeps_latched (c : FaultCode) {s : State} (h : s.fault ≠ .none) :
    (faultEntry c s).fault = s.fault := by
  rw [faultEntry_eq]; exact if_neg h

theorem startCommand_keeps_fault (s : State) : (startCommand s).fault = s.fault := by
  rw [startCommand_eq]
  split <;> rfl

theorem stopCommand_keeps_fault (s : State) : (stopCommand s).fault = s.fault := by
  rw [stopCommand_eq, leaveToStop_eq]
  split <;> rfl

theorem modeCommand_keeps_fault (m : ControlMode) (s : State) : (modeCommand m s).fault = s.fault := by
  unfold modeCommand
  split <;> rfl

theorem directionCommand_keeps_fault (d : Direction) (s : State) : (directionCommand d s).fault = s.fault := by
  unfold directionCommand
  split <;> rfl

theorem faultCommand_keeps_latched (c : FaultCode) {s : State} (h : s.fault ≠ .none) :
    (faultCommand c s).fault = s.fault := by
  rw [faultCommand_eq]
  split
  · rfl
  · exact faultEntry_keeps_latched c h

theorem startingTick_keeps_latched (m : Meas) {s : State} (h : s.fault ≠ .none) :
    (startingTick m s).fault = s.fault := by
  rcases startingTick_cases m (s := s) rfl rfl with ⟨-, e⟩ | ⟨-, -, e⟩ | ⟨-, -, e⟩ <;> rw [e]
  · rw [drive_frame]
  · exact faultEntry_keeps_latched .stall h
  · rw [drive_frame]

theorem runningTick_keeps_fault (m : Meas) (s : State) : (runningTick m s).fault = s.fault := by
  rcases runningTick_cases m s with ⟨-, e⟩ | ⟨-, e⟩ | ⟨-, e⟩ <;> rw [e, drive_frame]
  rw [pidStep_frame]

theorem tickPipeline_keeps_latched {s : State} (h : s.fault ≠ .none) :
    (tickPipeline (samplesValue s.ports) s).fault = s.fault := by
  have hfault : (sensed s).fault = s.fault := (sensed_keeps s).2.1
  have h' : (sensed s).fault ≠ .none := by rwa [hfault]
  rcases tickPipeline_cases s with ⟨-, e⟩ | ⟨-, -, -, e⟩ | ⟨-, -, e⟩ | ⟨-, -, e⟩ <;> rw [e, ← hfault]
  · rfl
  · exact faultEntry_keeps_latched _ h'
  · exact startingTick_keeps_latched _ h'
  · exact runningTick_keeps_fault _ _

/-- CLEAR_FAULT changes nothing, or returns from Fault to Stop and removes the code (R281). -/
theorem clearCommand_cases (m : Meas) (s : State) :
    clearCommand m s = s ∨ (s.state = .fault ∧ clearCommand m s = faultReturn s) := by
  unfold clearCommand
  split
  · rename_i h; exact .inr ⟨h.1, rfl⟩
  · exact .inl rfl

/-- What a command after INIT can do to a latched code: it keeps it, or it is CLEAR_FAULT's return from Fault. -/
theorem exec_latched_cases {i : Instr} {s t : State} (hi : s.initDone = true) (he : exec i s = .next t)
    (hf : s.fault ≠ .none) : t.fault = s.fault ∨ (i = .clearFault ∧ s.state = .fault ∧ t = faultReturn s) := by
  obtain ⟨-, ⟨-, h0, -⟩ | ⟨-, hcmd⟩⟩ := exec_next_cases he
  · simp [hi] at h0
  rcases hcmd with ⟨-, rfl⟩ | ⟨-, rfl⟩ | ⟨v, -, rfl⟩ | ⟨p, -, rfl⟩ | ⟨c, -, rfl⟩ | ⟨-, rfl⟩ | ⟨hclear, -, rfl⟩ |
    ⟨-, -, rfl⟩ | ⟨m, -, rfl⟩ | ⟨d, -, rfl⟩
  · exact .inl (startCommand_keeps_fault s)
  · exact .inl (stopCommand_keeps_fault s)
  · exact .inl rfl
  · exact .inl rfl
  · exact .inl (faultCommand_keeps_latched c hf)
  · exact .inl rfl
  · rcases clearCommand_cases (samplesValue s.ports) s with e | ⟨hs, e⟩
    · exact .inl (by rw [e])
    · exact .inr ⟨hclear, hs, e⟩
  · exact .inl (tickPipeline_keeps_latched hf)
  · exact .inl (modeCommand_keeps_fault m s)
  · exact .inl (directionCommand_keeps_fault d s)

/-- Settles O52: the latch keeps a code that is set, and only CLEAR_FAULT's return from Fault removes it. -/
theorem firstFaultCodeIsKept : Obligations.FirstFaultCodeIsKept := by
  intro i s t hi he hf
  rcases exec_latched_cases hi he hf with h | ⟨rfl, hs, rfl⟩
  · exact ⟨fun _ => h, fun _ => .inl h⟩
  · exact ⟨fun hc => absurd rfl hc, fun _ => .inr ⟨hs, rfl, rfl⟩⟩

/-! ### The Fault state (R277, R281) -/

/-- In Fault with the outputs off. -/
def FaultOff (s : State) : Prop := s.state = .fault ∧ OutputsOff s

theorem startCommand_keeps_faultOff {s : State} (h : FaultOff s) : FaultOff (startCommand s) := by
  rwa [startCommand_eq, if_neg (by simp [h.1])]

theorem stopCommand_keeps_faultOff {s : State} (h : FaultOff s) : FaultOff (stopCommand s) := by
  rw [stopCommand_of_stop_or_fault (.inr h.1)]
  exact ⟨h.1, outputsOff_off s⟩

theorem faultCommand_keeps_faultOff (c : FaultCode) {s : State} (h : FaultOff s) : FaultOff (faultCommand c s) := by
  rw [faultCommand_eq]
  split
  · exact h
  · exact ⟨rfl, faultEntry_off c s⟩

/-- A LOOP in Fault holds the outputs off and leaves Fault for nothing (46_tick_pipeline.md R224). -/
theorem tickPipeline_keeps_faultOff {s : State} (h : FaultOff s) :
    FaultOff (tickPipeline (samplesValue s.ports) s) := by
  rcases tickPipeline_cases s with ⟨-, e⟩ | ⟨hs, -⟩ | ⟨hs, -⟩ | ⟨hs, -⟩
  · rw [e]; exact ⟨(sensed_state s).trans h.1, outputsOff_off _⟩
  · simp [h.1] at hs
  · simp [h.1] at hs
  · simp [h.1] at hs

theorem modeCommand_keeps_faultOff (m : ControlMode) {s : State} (h : FaultOff s) : FaultOff (modeCommand m s) := by
  rwa [modeCommand_of_no_change (.inl (by simp [h.1]))]

theorem directionCommand_keeps_faultOff (d : Direction) {s : State} (h : FaultOff s) :
    FaultOff (directionCommand d s) := by
  rwa [directionCommand, if_neg (by simp [h.1])]

/-- What a command after INIT can do from Fault with the outputs off: it keeps both, or it is CLEAR_FAULT's return. -/
theorem exec_faultOff_cases {i : Instr} {s t : State} (hi : s.initDone = true) (he : exec i s = .next t)
    (h : FaultOff s) : FaultOff t ∨ (i = .clearFault ∧ t = faultReturn s) := by
  obtain ⟨-, ⟨-, h0, -⟩ | ⟨-, hcmd⟩⟩ := exec_next_cases he
  · simp [hi] at h0
  rcases hcmd with ⟨-, rfl⟩ | ⟨-, rfl⟩ | ⟨v, -, rfl⟩ | ⟨p, -, rfl⟩ | ⟨c, -, rfl⟩ | ⟨-, rfl⟩ | ⟨hclear, -, rfl⟩ |
    ⟨-, -, rfl⟩ | ⟨m, -, rfl⟩ | ⟨d, -, rfl⟩
  · exact .inl (startCommand_keeps_faultOff h)
  · exact .inl (stopCommand_keeps_faultOff h)
  · exact .inl h
  · exact .inl h
  · exact .inl (faultCommand_keeps_faultOff c h)
  · exact .inl h
  · rcases clearCommand_cases (samplesValue s.ports) s with e | ⟨-, e⟩
    · exact .inl (by rwa [e])
    · exact .inr ⟨hclear, e⟩
  · exact .inl (tickPipeline_keeps_faultOff h)
  · exact .inl (modeCommand_keeps_faultOff m h)
  · exact .inl (directionCommand_keeps_faultOff d h)

/-- Settles O53: the invariant gives the outputs off and a latched code in Fault; the code is kept as O52 says. -/
theorem faultIsLeftOnlyByClearFault : Obligations.FaultIsLeftOnlyByClearFault := by
  intro i s t hinv hi hs he
  have hop := hinv.operational hi
  have hcode := (firstFaultCodeIsKept i s t hi he (hop.faultIffLatched.mp hs)).1
  rcases exec_faultOff_cases hi he ⟨hs, hop.idleOff (.inr hs)⟩ with ⟨hstate, hoff⟩ | ⟨rfl, rfl⟩
  · exact ⟨hoff, fun hc => ⟨hstate, hcode hc⟩, fun _ => .inl hstate⟩
  · exact ⟨outputsOff_off _, fun hc => absurd rfl hc, fun _ => .inr rfl⟩

end Sys2Proof.Proofs.Exceptions
end

section
/-! Proofs for the family of 70_reset_and_hazards.md: power-on, the constant configuration, and that every command after
INIT finishes in one step. -/

namespace Sys2Proof.Proofs.ResetAndHazards

open Sys2Proof.Machine Sys2Proof.Safety Sys2Proof.Proofs.StateRecord Sys2Proof.Proofs.Commands
  Sys2Proof.Proofs.Exceptions

/-! ### Every command completes (70_reset_and_hazards.md R309) -/

/-- Settles O16: a ready block runs the command, and the two commands that sample find the sample finite. -/
theorem everyReadyCommandCompletes : Obligations.EveryReadyCommandCompletes := by
  intro i s hr hi hf
  cases i with
  | init => exact absurd rfl hi
  | loop => exact ⟨_, execLoop_of_ready hr (hf (.inl rfl))⟩
  | clearFault => exact ⟨_, exec_clearFault_of_ready hr (hf (.inr rfl))⟩
  | start | stop | setSpeed _ | setTorque _ | faultHandler _ | getFault | setMode _ | setDirection _ =>
    exact ⟨_, whenReady_of_ready hr _⟩

/-! ### The configuration (10_state.md R52) -/

theorem startCommand_cfg (s : State) : (startCommand s).cfg = s.cfg := by
  rw [startCommand_eq]
  split <;> rfl

theorem stopCommand_cfg (s : State) : (stopCommand s).cfg = s.cfg := by
  rw [stopCommand_eq, leaveToStop_eq]
  split <;> rfl

theorem faultCommand_cfg (c : FaultCode) (s : State) : (faultCommand c s).cfg = s.cfg := by
  rw [faultCommand_eq, faultEntry_eq]
  split <;> rfl

theorem clearCommand_cfg (m : Meas) (s : State) : (clearCommand m s).cfg = s.cfg := by
  rcases clearCommand_cases m s with e | ⟨-, e⟩ <;> rw [e]
  exact faultReturn_cfg s

theorem tickPipeline_cfg (s : State) : (tickPipeline (samplesValue s.ports) s).cfg = s.cfg := by
  obtain ⟨-, -, -, -, -, -, -, -, -, -, hcfg, -⟩ := tickPipeline_frame s
  exact hcfg

theorem modeCommand_cfg (m : ControlMode) (s : State) : (modeCommand m s).cfg = s.cfg := by
  unfold modeCommand
  split <;> rfl

theorem directionCommand_cfg (d : Direction) (s : State) : (directionCommand d s).cfg = s.cfg := by
  unfold directionCommand
  split <;> rfl

theorem exec_keeps_cfg {i : Instr} {s t : State} (he : exec i s = .next t) : t.cfg = s.cfg := by
  obtain ⟨-, ⟨-, -, rfl⟩ | ⟨-, hcmd⟩⟩ := exec_next_cases he
  · rfl
  rcases hcmd with ⟨-, rfl⟩ | ⟨-, rfl⟩ | ⟨v, -, rfl⟩ | ⟨p, -, rfl⟩ | ⟨c, -, rfl⟩ | ⟨-, rfl⟩ | ⟨-, -, rfl⟩ |
    ⟨-, -, rfl⟩ | ⟨m, -, rfl⟩ | ⟨d, -, rfl⟩
  · exact startCommand_cfg s
  · exact stopCommand_cfg s
  · rfl
  · rfl
  · exact faultCommand_cfg c s
  · exact respond_cfg s _
  · exact clearCommand_cfg _ s
  · exact tickPipeline_cfg s
  · exact modeCommand_cfg m s
  · exact directionCommand_cfg d s

/-- Settles O19: taking a presented command leaves the configuration, and no command writes it. -/
theorem configurationIsConstant : Obligations.ConfigurationIsConstant := fun s _ h =>
  step_keeps (P := fun x => x.cfg = s.cfg) (fun _ _ _ hs => hs) (fun _ _ _ _ _ hs he => (exec_keeps_cfg he).trans hs)
    rfl h

/-! ### Power-on (10_state.md R57; 70_reset_and_hazards.md R300) -/

theorem powerOn_off (cfg : Config) : OutputsOff (State.powerOn cfg) := ⟨rfl, rfl, rfl⟩

/-- Settles O23: power-on leaves INIT to be done and the outputs off. -/
theorem powerOnIsUninitialisedAndOff : Obligations.PowerOnIsUninitialisedAndOff := by
  intro cfg
  obtain ⟨hduty, hphase, hen⟩ := powerOn_off cfg
  exact ⟨rfl, hen, hduty, hphase, rfl⟩

/-- Before INIT the invariant asks for registers in range and outputs off, and nothing of `Operational`. -/
theorem powerOn_inv (cfg : Config) : Inv (State.powerOn cfg) where
  dutyRange := Nat.zero_le _
  torqueRange := Nat.zero_le _
  sectorRange := Nat.zero_le _
  outputsLegal := outputsLegal_of_off (powerOn_off cfg)
  offBeforeInit := fun _ => powerOn_off cfg
  operational := nofun

/-- Every register of type Num is zero, a value under every numeric model (assumption log 2). -/
theorem powerOn_nums (cfg : Config) : NumsHeld (State.powerOn cfg) :=
  ⟨holdsNum_zero _, holdsNum_zero _, holdsNum_zero _, holdsNum_zero _⟩

/-- Settles O49: power-on meets the invariant's part before INIT, and its registers of type Num are zero. -/
theorem powerOnMeetsTheInvariants : Obligations.PowerOnMeetsTheInvariants := fun cfg =>
  ⟨powerOn_inv cfg, powerOn_nums cfg⟩

end Sys2Proof.Proofs.ResetAndHazards
end

section
/-! Proofs for 30_encoding.md and 20_memory.md: decoding and encoding undo each other, which words are reserved, the
byte link, and the step on a presented word. -/

namespace Sys2Proof.Proofs.Encoding

open Sys2Proof.Machine Sys2Proof.Safety Sys2Proof.Proofs.StateRecord

/-! ### The round trips (30_encoding.md R102) -/

/-- Settles O1: the fields of the encoded word are the opcode and the operand, and each operand form reads back the
operand it was written from. -/
theorem decodeOfEncodeIsTheCommand : Obligations.DecodeOfEncodeIsTheCommand := by
  intro i hw
  rw [decode, opField_encode, argField_encode]
  cases i with
  | init | start | stop | getFault | clearFault | loop => exact decodeZ_eq_ok.mpr ⟨rfl, rfl⟩
  | setSpeed v => exact decodeF32_eq_ok.mpr ⟨rfl, hw⟩
  | setTorque p =>
    obtain ⟨hzero, hfield⟩ := extract_zeroExtend (by decide : 7 ≤ 32) p
    exact decodeP7_eq_ok.mpr ⟨congrArg _ hfield.symm, hzero, (congrArg _ hfield).trans_le (of_decide_eq_true hw)⟩
  | faultHandler c =>
    obtain ⟨hzero, hfield⟩ := extract_zeroExtend (by decide : 3 ≤ 32) c.code
    exact decodeC3_eq_ok.mpr ⟨c, rfl, hzero, (congrArg _ (congrArg _ hfield)).trans c.ofCode_code⟩
  | setMode m =>
    obtain ⟨hzero, hfield⟩ := extract_zeroExtend (by decide : 2 ≤ 32) m.code
    exact decodeM2_eq_ok.mpr ⟨m, rfl, hzero, (congrArg _ (congrArg _ hfield)).trans m.ofCode_code⟩
  | setDirection d =>
    obtain ⟨hzero, hfield⟩ := extract_zeroExtend (by decide : 1 ≤ 32) d.code
    exact decodeD1_eq_ok.mpr ⟨d, rfl, hzero, (congrArg _ (congrArg _ hfield)).trans d.ofCode_code⟩

/-- A word is the encoding of a command when its two fields are the command's. -/
theorem encode_of_fields {w : CommandWord} {i : Instr} (hop : i.opcode = opField w) (harg : i.operand = argField w) :
    encode i = w := by
  rw [encode, hop, harg, fields_append]

/-- A word that decodes has the opcode and the operand of its command. -/
theorem fields_of_decode {w : CommandWord} {i : Instr} (h : decode w = .ok i) :
    i.opcode = opField w ∧ i.operand = argField w := by
  unfold decode at h
  split at h
  case h_12 => cases h
  all_goals rename_i hop; rw [opField_of_toNat hop]
  case h_4 => obtain ⟨rfl, -⟩ := decodeF32_eq_ok.mp h; exact ⟨rfl, rfl⟩
  case h_5 =>
    obtain ⟨rfl, hzero, -⟩ := decodeP7_eq_ok.mp h
    exact ⟨rfl, zeroExtend_extract (by decide : 7 ≤ 32) _ hzero⟩
  case h_6 =>
    obtain ⟨c, rfl, hzero, hc⟩ := decodeC3_eq_ok.mp h
    refine ⟨rfl, ?_⟩
    rw [Instr.operand, FaultCode.code_of_ofCode hc]
    exact zeroExtend_extract (by decide : 3 ≤ 32) _ hzero
  case h_10 =>
    obtain ⟨m, rfl, hzero, hm⟩ := decodeM2_eq_ok.mp h
    refine ⟨rfl, ?_⟩
    rw [Instr.operand, ControlMode.code_of_ofCode hm]
    exact zeroExtend_extract (by decide : 2 ≤ 32) _ hzero
  case h_11 =>
    obtain ⟨d, rfl, hzero, hd⟩ := decodeD1_eq_ok.mp h
    refine ⟨rfl, ?_⟩
    rw [Instr.operand, Direction.code_of_ofCode hd]
    exact zeroExtend_extract (by decide : 1 ≤ 32) _ hzero
  all_goals obtain ⟨rfl, hzero⟩ := decodeZ_eq_ok.mp h; exact ⟨rfl, hzero.symm⟩

/-- Settles O2: a word that decodes has its command's two fields, and no bit beside them. -/
theorem encodeOfDecodeIsTheWord : Obligations.EncodeOfDecodeIsTheWord := by
  intro w i h
  obtain ⟨hop, harg⟩ := fields_of_decode h
  exact ⟨encode_of_fields hop harg, decode_wellFormed h⟩

/-! ### Reserved words (R98, R99) -/

/-- An operand form with one check rejects by name exactly where the check fails. -/
theorem check_eq_error {p : Prop} [Decidable p] {i : Instr} {e : DecodeError} :
    (if p then Except.ok i else Except.error .reservedOperand) = .error e ↔ e = .reservedOperand ∧ ¬ p := by
  split
  · rename_i h; exact iff_of_false nofun fun h' => h'.2 h
  · rename_i h; rw [Except.error.injEq, eq_comm]; exact (and_iff_left h).symm

theorem decodeZ_eq_error {i : Instr} {a : Word32} {e : DecodeError} :
    decodeZ i a = .error e ↔ e = .reservedOperand ∧ a ≠ 0 := check_eq_error

theorem decodeF32_eq_error {a : Word32} {e : DecodeError} :
    decodeF32 a = .error e ↔ e = .reservedOperand ∧ a.extractLsb' 23 8 = 0xFF#8 := by
  have hfinite : ¬ finite32 a = true ↔ a.extractLsb' 23 8 = 0xFF#8 := by rw [finite32, bne_iff_ne, not_not]
  rw [decodeF32, check_eq_error, hfinite]

theorem decodeP7_eq_error {a : Word32} {e : DecodeError} :
    decodeP7 a = .error e ↔
      e = .reservedOperand ∧ (a.extractLsb' 7 25 ≠ 0 ∨ 100 < (a.extractLsb' 0 7).toNat) := by
  rw [decodeP7, check_eq_error, not_and_or, not_le]

/-- An operand form with a check and a listed code rejects by name exactly where the check fails or the code is
reserved. -/
theorem check_code_eq_error {α : Type} {p : Prop} [Decidable p] {f : α → Instr} {code : Option α} {e : DecodeError}
    {r : Except DecodeError Instr} (hlisted : ∀ c, p → code = some c → r = .ok (f c))
    (hother : ¬ p ∨ code = none → r = .error .reservedOperand) :
    r = .error e ↔ e = .reservedOperand ∧ (¬ p ∨ code = none) := by
  by_cases h : ¬ p ∨ code = none
  · rw [hother h, Except.error.injEq, eq_comm]; exact (and_iff_left h).symm
  · obtain ⟨hp, hcode⟩ := not_or.mp h
    obtain ⟨c, hc⟩ := Option.ne_none_iff_exists'.mp hcode
    rw [hlisted c (not_not.mp hp) hc]
    exact iff_of_false nofun fun h' => h h'.2

theorem decodeC3_eq_error {a : Word32} {e : DecodeError} :
    decodeC3 a = .error e ↔ e = .reservedOperand ∧ (a.extractLsb' 3 29 ≠ 0 ∨ a.extractLsb' 0 3 = 7) := by
  rw [← FaultCode.ofCode_eq_none]
  refine check_code_eq_error (fun c hz hc => decodeC3_eq_ok.mpr ⟨c, rfl, hz, hc⟩) fun h => ?_
  unfold decodeC3
  split
  · rename_i hz; rw [h.resolve_left (not_not.mpr hz)]
  · rfl

theorem decodeM2_eq_error {a : Word32} {e : DecodeError} :
    decodeM2 a = .error e ↔ e = .reservedOperand ∧ (a.extractLsb' 2 30 ≠ 0 ∨ a.extractLsb' 0 2 = 3) := by
  rw [← ControlMode.ofCode_eq_none]
  refine check_code_eq_error (fun c hz hc => decodeM2_eq_ok.mpr ⟨c, rfl, hz, hc⟩) fun h => ?_
  unfold decodeM2
  split
  · rename_i hz; rw [h.resolve_left (not_not.mpr hz)]
  · rfl

/-- Both codes of a Direction are listed, so form D1 rejects on its zero bits alone. -/
theorem decodeD1_eq_error {a : Word32} {e : DecodeError} :
    decodeD1 a = .error e ↔ e = .reservedOperand ∧ a.extractLsb' 1 31 ≠ 0 := by
  have hcode := Direction.ofCode_ne_none (a.extractLsb' 0 1)
  rw [← or_iff_left (a := a.extractLsb' 1 31 ≠ 0) hcode]
  refine check_code_eq_error (fun c hz hc => decodeD1_eq_ok.mpr ⟨c, rfl, hz, hc⟩) fun h => ?_
  rw [decodeD1, if_neg (h.resolve_right hcode)]

theorem decode_eq_reservedOpcode_iff (w : CommandWord) :
    decode w = .error .reservedOpcode ↔ (opField w).toNat = 0 ∨ 0x0C ≤ (opField w).toNat := by
  unfold decode
  split
  case h_12 => exact iff_of_true rfl (by simp only [imp_false] at *; omega)
  all_goals
    rename_i hop
    rw [hop]
    simp [decodeZ_eq_error, decodeF32_eq_error, decodeP7_eq_error, decodeC3_eq_error, decodeM2_eq_error,
      decodeD1_eq_error]

theorem decode_eq_reservedOperand_iff (w : CommandWord) :
    decode w = .error .reservedOperand ↔
      ((opField w).toNat ∈ [0x01, 0x02, 0x03, 0x07, 0x08, 0x09] ∧ argField w ≠ 0) ∨
      ((opField w).toNat = 0x04 ∧ (argField w).extractLsb' 23 8 = 0xFF#8) ∨
      ((opField w).toNat = 0x05 ∧ ((argField w).extractLsb' 7 25 ≠ 0 ∨ 100 < ((argField w).extractLsb' 0 7).toNat)) ∨
      ((opField w).toNat = 0x06 ∧ ((argField w).extractLsb' 3 29 ≠ 0 ∨ (argField w).extractLsb' 0 3 = 7)) ∨
      ((opField w).toNat = 0x0A ∧ ((argField w).extractLsb' 2 30 ≠ 0 ∨ (argField w).extractLsb' 0 2 = 3)) ∨
      ((opField w).toNat = 0x0B ∧ (argField w).extractLsb' 1 31 ≠ 0) := by
  unfold decode
  split
  case h_12 => simp_all
  all_goals
    rename_i hop
    rw [hop]
    simp [decodeZ_eq_error, decodeF32_eq_error, decodeP7_eq_error, decodeC3_eq_error, decodeM2_eq_error,
      decodeD1_eq_error]

/-! ### The step on a presented word (20_memory.md R72; R251) -/

/-- A valid block with a command presented decodes it, and refuses it or executes it. -/
theorem step_of_presented {s : State} {p : Presented} {rest : List Presented} (hc : configOk s.cfg = true)
    (hp : s.pending = p :: rest) :
    (∀ e, decode p.cmd = .error e → step s = .refused (refusalOf e)) ∧
      (∀ i, decode p.cmd = .ok i → step s = exec i (accept p rest s)) := by
  simp only [step, hc, hp, Bool.true_eq_false, if_false]
  exact ⟨fun e he => by rw [he], fun i hi => by rw [hi]⟩

/-- Settles O3: no operand form answers ReservedOpcode, and the step refuses with the decoder's reason. -/
theorem reservedOpcodeIsRefused : Obligations.ReservedOpcodeIsRefused := by
  intro w
  refine ⟨decode_eq_reservedOpcode_iff w, fun s p rest hc hp hw => ?_⟩
  exact (step_of_presented hc hp).1 _ ((decode_eq_reservedOpcode_iff w).mpr hw)

/-- Settles O4: each listed opcode has one operand form, which rejects exactly the operands of its clause. -/
theorem reservedOperandIsRefused : Obligations.ReservedOperandIsRefused := fun w =>
  ⟨decode_eq_reservedOperand_iff w, fun _ _ _ hc hp hw => (step_of_presented hc hp).1 _ hw⟩

/-- Settles O5: each word has a listed opcode and an operand of its form. -/
theorem listedWordsDecode : Obligations.ListedWordsDecode :=
  ⟨rfl, rfl, rfl, rfl, rfl, rfl, rfl, rfl, rfl, rfl, rfl, rfl⟩

/-- Settles O11: `accept` takes the command from the queue and its samples to the ports. -/
theorem stepRunsThePresentedCommand : Obligations.StepRunsThePresentedCommand := fun _ _ _ _ hc hp hd =>
  (step_of_presented hc hp).2 _ hd

/-- Settles O12 (the model's choice, log 9). -/
theorem stepWithoutCommandChangesNothing : Obligations.StepWithoutCommandChangesNothing := by
  intro s hc hp
  simp only [step, hc, hp, Bool.true_eq_false, if_false]

/-! ### The byte link (20_memory.md R73) -/

/-- The five bytes of a word, put together again, highest first. -/
theorem bytes_append (w : CommandWord) :
    w.extractLsb' 32 8 ++ (w.extractLsb' 24 8 ++ (w.extractLsb' 16 8 ++ (w.extractLsb' 8 8 ++ w.extractLsb' 0 8))) =
      w := by
  simp only [BitVec.extractLsb'_append_extractLsb'_eq_extractLsb']
  simp

/-- Settles O6, byte by byte; the return trip reads the first five bytes and no further. -/
theorem linkCarriesTheWordLowByteFirst : Obligations.LinkCarriesTheWordLowByteFirst := by
  intro w rest
  refine ⟨rfl, fun k hk => ?_, congrArg (fun x => some (x, rest)) (bytes_append w)⟩
  interval_cases k <;> rfl

end Sys2Proof.Proofs.Encoding
end

section
/-! Proofs for 47_commands.md and 60_exceptions.md R290: when a command is refused, and the whole next state of INIT, START
and SET_DIRECTION. -/

namespace Sys2Proof.Proofs.Refusals

open Sys2Proof.Machine Sys2Proof.Safety Sys2Proof.Proofs.Encoding

/-! ### Refusals (60_exceptions.md R290) -/

theorem whenUninitialised_of_invalid {s : State} (hc : configOk s.cfg = false) (run : Result) :
    whenUninitialised s run = .refused .invalidConfig := by
  simp [whenUninitialised, hc]

theorem whenUninitialised_of_init {s : State} (hc : configOk s.cfg = true) (hi : s.initDone = true) (run : Result) :
    whenUninitialised s run = .refused .alreadyInitialised := by
  simp [whenUninitialised, hc, hi]

theorem whenUninitialised_of_not_init {s : State} (hc : configOk s.cfg = true) (hi : s.initDone = false)
    (run : Result) : whenUninitialised s run = run := by
  simp [whenUninitialised, hc, hi]

theorem withSample_of_not_finite {s : State} (h : ¬ FiniteSample s) (run : Meas → Result) :
    withSample s run = .refused .nonFiniteSample :=
  if_neg h

/-- Every command but INIT waits for INIT (47_commands.md R250). -/
theorem exec_eq_whenReady {i : Instr} (h : i ≠ .init) (s : State) : ∃ run, exec i s = whenReady s run := by
  cases i with
  | init => exact absurd rfl h
  | start | stop | setSpeed _ | setTorque _ | faultHandler _ | getFault | clearFault | loop | setMode _
  | setDirection _ => exact ⟨_, rfl⟩

/-- Settles O13: the check of the configuration comes first, in the step and in every command. -/
theorem invalidConfigIsRefused : Obligations.InvalidConfigIsRefused := by
  intro s i hc
  refine ⟨if_pos hc, ?_⟩
  by_cases hi : i = .init
  · rw [hi]; exact whenUninitialised_of_invalid hc _
  · obtain ⟨run, e⟩ := exec_eq_whenReady hi s
    rw [e, whenReady_of_invalid hc]

/-- Settles O14: every command but INIT waits for INIT, and INIT waits for none before it. -/
theorem commandsBeforeInitAreRefused : Obligations.CommandsBeforeInitAreRefused := by
  intro s i hc
  refine ⟨fun hinit hi => ?_, fun hinit => whenUninitialised_of_init hc hinit _⟩
  obtain ⟨run, e⟩ := exec_eq_whenReady hi s
  rw [e, whenReady_of_not_init hc hinit]

/-- Settles O15: a ready block samples the ports before the command has its effect. -/
theorem nonFiniteSampleIsRefused : Obligations.NonFiniteSampleIsRefused := fun _ hr hf =>
  ⟨(whenReady_of_ready hr _).trans (withSample_of_not_finite hf _),
    (whenReady_of_ready hr _).trans (withSample_of_not_finite hf _)⟩

/-! ### INIT, START and SET_DIRECTION (47_commands.md R240, R241, R249) -/

/-- Settles O24: `initialise` writes the eighteen fields of the state record. -/
theorem initWritesTheResetValues : Obligations.InitWritesTheResetValues := fun _ hc hi =>
  whenUninitialised_of_not_init hc hi _

theorem startCommand_of_stop {s : State} (hs : s.state = .stop) : startCommand s = enterStarting s := by
  rw [startCommand_eq, if_pos hs]

theorem startCommand_of_not_stop {s : State} (hs : s.state ≠ .stop) : startCommand s = s := by
  rw [startCommand_eq, if_neg hs]

/-- Settles O25: START is ENTER_STARTING in Stop. -/
theorem startEntersStartingFromStopOnly : Obligations.StartEntersStartingFromStopOnly := by
  intro s hr
  have hexec : exec .start s = .next (startCommand s) := whenReady_of_ready hr _
  rw [hexec]
  exact ⟨fun hs => by rw [startCommand_of_stop hs]; rfl, fun hs => by rw [startCommand_of_not_stop hs]⟩

/-- Settles O33: SET_DIRECTION tests the state alone. -/
theorem setDirectionOnlyInStop : Obligations.SetDirectionOnlyInStop := by
  intro s d hr
  have hexec : exec (.setDirection d) s = .next (directionCommand d s) := whenReady_of_ready hr _
  rw [hexec]
  exact ⟨fun hs => congrArg _ (if_pos hs), fun hs => congrArg _ (if_neg hs)⟩

end Sys2Proof.Proofs.Refusals
end

section
/-! Proofs of what a LOOP leaves on the outputs, of the safe patterns, of the anti-windup bounds, of the transitions of the
state machine, and of the tick (41_commutation.md, 43_speed_controller.md, 45_state_machine.md, 46_tick_pipeline.md). -/

namespace Sys2Proof.Proofs.Transitions

open Sys2Proof.Machine Sys2Proof.Safety Sys2Proof.Proofs.StateRecord Sys2Proof.Proofs.SpeedController
  Sys2Proof.Proofs.TickPipeline Sys2Proof.Proofs.Commands Sys2Proof.Proofs.Exceptions Sys2Proof.Proofs.Refusals

/-! ### The outputs of a LOOP (46_tick_pipeline.md R224, R226) -/

theorem tickPipeline_of_idle {s : State} (hs : s.state = .stop ∨ s.state = .fault) :
    tickPipeline (samplesValue s.ports) s = outputsOff (sensed s) := by
  rcases tickPipeline_cases s with ⟨-, e⟩ | ⟨h, -⟩ | ⟨h, -⟩ | ⟨h, -⟩
  · exact e
  all_goals rcases hs with hs | hs <;> simp [hs] at h

/-- Settles O36: such a LOOP only turns the outputs off on the sensed state. -/
theorem loopInStopAndFaultHoldsOutputsOff : Obligations.LoopInStopAndFaultHoldsOutputsOff := by
  intro s hr hf hs
  obtain ⟨-, hfault, -, -, hramp, -⟩ := sensed_keeps s
  obtain ⟨hint, herr⟩ := sensed_pid s
  refine ⟨_, execLoop_of_ready hr hf, ?_⟩
  rw [tickPipeline_of_idle hs]
  exact ⟨outputsOff_off _, sensed_state s, hfault, hint, herr, hramp⟩

/-- The stage is enabled only with the table's pattern for a valid sector and the direction (41_commutation.md R120). -/
def FollowsTable (s t : State) : Prop :=
  t.outEn = true → ValidSector s ∧ commutate s.cfg.commTable s.ports.hall s.dir = .pattern t.outPhase

theorem followsTable_of_off {s t : State} (h : OutputsOff t) : FollowsTable s t := by
  obtain ⟨-, -, hen⟩ := h
  intro h0
  simp [hen] at h0

theorem validSector_of_pattern {s : State} {p : PhasePattern}
    (h : commutate s.cfg.commTable s.ports.hall s.dir = .pattern p) : ValidSector s := by
  by_contra hn
  rw [commutate_of_invalid _ _ _ hn] at h
  cases h

/-- Steps 6 and 7 on any state with the configuration and the direction of the LOOP. -/
theorem drive_followsTable {s x : State} (target : Int) (soft : Quantity) (hcfg : x.cfg = s.cfg)
    (hdir : x.dir = s.dir) : FollowsTable s (drive (samplesValue s.ports) target soft x) := by
  intro hen
  rcases drive_outputs (samplesValue s.ports) target soft x with ⟨p, hp, hphase, -⟩ | ⟨-, -, -, hoff⟩
  · rw [hcfg, hdir] at hp
    rw [hphase]
    exact ⟨validSector_of_pattern hp, hp⟩
  · simp [hoff] at hen

theorem tickPipeline_followsTable (s : State) : FollowsTable s (tickPipeline (samplesValue s.ports) s) := by
  have hcfg := sensed_cfg s
  obtain ⟨-, -, hdir, -⟩ := sensed_keeps s
  rcases tickPipeline_cases s with ⟨-, e⟩ | ⟨-, -, -, e⟩ | ⟨-, -, e⟩ | ⟨-, -, e⟩ <;> rw [e]
  case inl => exact followsTable_of_off (outputsOff_off _)
  case inr.inl => exact followsTable_of_off (faultEntry_off _ _)
  case inr.inr.inl =>
    rcases startingTick_cases (samplesValue s.ports) (s := sensed s) rfl rfl with ⟨-, e⟩ | ⟨-, -, e⟩ | ⟨-, -, e⟩ <;>
      rw [e]
    · exact drive_followsTable _ _ hcfg hdir
    · exact followsTable_of_off (faultEntry_off _ _)
    · exact drive_followsTable _ _ hcfg hdir
  case inr.inr.inr =>
    rcases runningTick_cases (samplesValue s.ports) (sensed s) with ⟨-, e⟩ | ⟨-, e⟩ | ⟨-, e⟩ <;> rw [e]
    · exact drive_followsTable _ _ hcfg hdir
    · exact drive_followsTable _ _ hcfg hdir
    · exact drive_followsTable _ _ hcfg hdir

/-- Settles O45: a LOOP turns the outputs off, or drives them through COMMUTATE. -/
theorem enabledStageFollowsTheTable : Obligations.EnabledStageFollowsTheTable := fun s hr hf =>
  ⟨_, execLoop_of_ready hr hf, tickPipeline_followsTable s⟩

/-! ### Phase patterns (30_encoding.md R97; 41_commutation.md R121, R122) -/

theorem noShootThrough_of_sixStep {p : PhasePattern} (h : p ∈ sixStepPatterns) : NoShootThrough p := by
  unfold NoShootThrough
  revert p
  decide

/-- Settles O50: an enabled stage drives a six-step pattern, and a disabled one drives no phase at all. -/
theorem noPhaseIsShortedInLegalStates : Obligations.NoPhaseIsShortedInLegalStates := by
  intro s h
  obtain ⟨hon, hoff⟩ := h.outputsLegal
  cases hen : s.outEn with
  | true => exact noShootThrough_of_sixStep (hon hen)
  | false =>
    obtain ⟨-, hphase, -⟩ := hoff hen
    rw [hphase]
    simp [NoShootThrough]

/-- Settles O46, entry by entry. -/
theorem defaultTableEntries : Obligations.DefaultTableEntries :=
  ⟨fun d => ⟨commutate_of_invalid _ _ d (by decide), commutate_of_invalid _ _ d (by decide)⟩, by decide, by decide,
    by decide, by decide⟩

/-! ### The anti-windup bounds (43_speed_controller.md R162) -/

/-- `clamp` answers the point of the interval nearest to its argument. -/
theorem clamp_nearest {lo hi : Quantity} (x : Quantity) {j : Quantity} (hlo : lo ≤ j) (hhi : j ≤ hi) :
    |x - clamp x lo hi| ≤ |x - j| := by
  unfold clamp
  split_ifs with h h'
  · rw [abs_sub_comm, abs_sub_comm x j, abs_of_pos (sub_pos.mpr h)]
    exact (sub_le_sub_right hlo x).trans (le_abs_self _)
  · rw [abs_of_pos (sub_pos.mpr h')]
    exact (sub_le_sub_left hhi x).trans (le_abs_self _)
  · rw [sub_self, abs_zero]; exact abs_nonneg _

/-- The integral term of `j` alone lies within the output bounds. -/
def TermWithinBounds (c : Config) (j : Quantity) : Prop := c.outMin ≤ c.ki * j ∧ c.ki * j ≤ c.outMax

theorem termWithinBounds_of_pos {c : Config} (hk : 0 < c.ki) (j : Quantity) :
    TermWithinBounds c j ↔ c.outMin / c.ki ≤ j ∧ j ≤ c.outMax / c.ki := by
  rw [TermWithinBounds, div_le_iff₀' hk, le_div_iff₀' hk]

/-- Under a negative gain the two quotients change places. -/
theorem termWithinBounds_of_neg {c : Config} (hk : c.ki < 0) (j : Quantity) :
    TermWithinBounds c j ↔ c.outMax / c.ki ≤ j ∧ j ≤ c.outMin / c.ki := by
  rw [TermWithinBounds, div_le_iff_of_neg' hk, le_div_iff_of_neg' hk, and_comm]

/-- A clamp to the interval that `P` describes meets `P`, and nothing else that does is nearer. -/
theorem clamp_nearest_within {P : Quantity → Prop} {lo hi : Quantity} (hle : lo ≤ hi)
    (hP : ∀ j, P j ↔ lo ≤ j ∧ j ≤ hi) (x : Quantity) :
    P (clamp x lo hi) ∧ ∀ j, P j → |x - clamp x lo hi| ≤ |x - j| :=
  ⟨(hP _).mpr ⟨le_clamp hle, clamp_le hle⟩, fun j hj => clamp_nearest x ((hP j).mp hj).1 ((hP j).mp hj).2⟩

/-- Settles O41: the stored integral is the clamp to the quotients of the output bounds and KI, of either sign. -/
theorem antiWindupBoundsTheIntegralTerm : Obligations.AntiWindupBoundsTheIntegralTerm := by
  intro s hr hf hs hm hh hexact hki
  have horder := (configFacts hr.1).outOrder
  obtain ⟨t, ht, -, -, -, hpos, hneg, -⟩ := speedTickRunsThePid s hr hf hs hm hh hexact
  have key : TermWithinBounds s.cfg t.pidIntegral ∧ ∀ j, TermWithinBounds s.cfg j →
      |s.pidIntegral + t.pidPrevError * s.cfg.dt - t.pidIntegral| ≤
        |s.pidIntegral + t.pidPrevError * s.cfg.dt - j| := by
    rcases hki.lt_or_gt with hk | hk
    · rw [hneg hk]
      exact clamp_nearest_within (div_le_div_of_nonpos_of_le hk.le horder) (termWithinBounds_of_neg hk) _
    · rw [hpos hk]
      exact clamp_nearest_within (div_le_div_of_nonneg_right horder hk.le) (termWithinBounds_of_pos hk) _
  obtain ⟨⟨hlow, hhigh⟩, hnearest⟩ := key
  exact ⟨t, ht, hlow, hhigh, fun j h1 h2 => hnearest j ⟨h1, h2⟩⟩

/-! ### The transitions of the state machine (45_state_machine.md R205) -/

/-- A healthy Starting tick promotes, times out or stays; with the speed estimate that decides. -/
theorem startingTick_state (m : Meas) {s : State} (hs : s.state = .starting) :
    (s.cfg.minRunRpm < s.rpm ∧ (startingTick m s).state = .running) ∨
      (s.rpm ≤ s.cfg.minRunRpm ∧ s.cfg.rampTimeoutTicks ≤ s.rampTicks + 1 ∧ (startingTick m s).state = .fault) ∨
      (startingTick m s).state = .starting := by
  rcases startingTick_cases m (s := s) rfl rfl with ⟨hfast, e⟩ | ⟨hslow, hlate, e⟩ | ⟨-, -, e⟩ <;> rw [e]
  · exact .inl ⟨hfast, by rw [drive_frame]⟩
  · exact .inr (.inl ⟨hslow, hlate, by rw [faultEntry_eq]⟩)
  · exact .inr (.inr (by rw [drive_frame]; exact hs))

theorem runningTick_state (m : Meas) (s : State) : (runningTick m s).state = s.state := by
  rcases runningTick_cases m s with ⟨-, e⟩ | ⟨-, e⟩ | ⟨-, e⟩ <;> rw [e, drive_frame]
  rw [pidStep_frame]

/-- What a LOOP can do to MotorState (R202, R271). -/
theorem tickPipeline_state (s : State) {t : State} (ht : t = tickPipeline (samplesValue s.ports) s) :
    t.state = s.state ∨
      (s.state = .starting ∧ Healthy s ∧ s.cfg.minRunRpm < t.rpm ∧ t.state = .running) ∨
      (s.state = .starting ∧ t.rpm ≤ s.cfg.minRunRpm ∧ s.cfg.rampTimeoutTicks ≤ s.rampTicks + 1 ∧ t.state = .fault) ∨
      ((s.state = .starting ∨ s.state = .running) ∧ ¬ Healthy s ∧ t.state = .fault) := by
  have hstate := sensed_state s
  have hcfg := sensed_cfg s
  obtain ⟨-, -, -, -, hramp, -⟩ := sensed_keeps s
  obtain ⟨-, -, -, -, -, -, -, -, -, -, -, -, -, -, hrpm, -⟩ := tickPipeline_frame s
  rw [← ht] at hrpm
  rw [hrpm]
  rcases tickPipeline_cases s with ⟨-, e⟩ | ⟨hs, hh, -, e⟩ | ⟨hs, hh, e⟩ | ⟨-, -, e⟩
  · exact .inl (by rw [ht, e]; exact hstate)
  · exact .inr (.inr (.inr ⟨hs, hh, by rw [ht, e, faultEntry_eq]⟩))
  · have hstep := startingTick_state (samplesValue s.ports) (hstate.trans hs)
    rw [← e, ← ht, hcfg, hramp] at hstep
    rcases hstep with ⟨hfast, hrun⟩ | ⟨hslow, hlate, hfault⟩ | hstay
    · exact .inr (.inl ⟨hs, hh, hfast, hrun⟩)
    · exact .inr (.inr (.inl ⟨hs, hslow, hlate, hfault⟩))
    · exact .inl (hstay.trans hs.symm)
  · exact .inl (by rw [ht, e, runningTick_state]; exact hstate)

theorem startCommand_state (s : State) :
    (startCommand s).state = s.state ∨ (s.state = .stop ∧ (startCommand s).state = .starting) := by
  by_cases hs : s.state = .stop
  · exact .inr ⟨hs, by rw [startCommand_of_stop hs]; rfl⟩
  · exact .inl (by rw [startCommand_of_not_stop hs])

theorem stopCommand_state (s : State) :
    (stopCommand s).state = s.state ∨
      ((s.state = .starting ∨ s.state = .running) ∧ (stopCommand s).state = .stop) := by
  by_cases hs : s.state = .starting ∨ s.state = .running
  · exact .inr ⟨hs, by rw [stopCommand_of_starting_or_running hs, leaveToStop_eq]⟩
  · exact .inl (by rw [stopCommand_eq, if_neg hs]; rfl)

theorem faultCommand_state (c : FaultCode) (s : State) :
    (faultCommand c s).state = s.state ∨ (c ≠ .none ∧ (faultCommand c s).state = .fault) := by
  rw [faultCommand_eq]
  split
  · exact .inl rfl
  · rename_i hc; exact .inr ⟨hc, by rw [faultEntry_eq]⟩

theorem clearCommand_state (m : Meas) (s : State) :
    (clearCommand m s).state = s.state ∨
      (s.state = .fault ∧ safe s.cfg s.fault m = true ∧ (clearCommand m s).state = .stop) := by
  by_cases h : s.state = .fault ∧ safe s.cfg s.fault m = true
  · exact .inr ⟨h.1, h.2, by rw [clearCommand_of_safe h]⟩
  · exact .inl (by rw [clearCommand_of_unsafe h])

theorem modeCommand_state (m : ControlMode) (s : State) : (modeCommand m s).state = s.state := by
  unfold modeCommand
  split <;> rfl

theorem directionCommand_state (d : Direction) (s : State) : (directionCommand d s).state = s.state := by
  unfold directionCommand
  split <;> rfl

/-- Settles O51: each command keeps MotorState or makes one of its own transitions. -/
theorem stateChangesAreTheTable : Obligations.StateChangesAreTheTable := by
  intro i s t hi he hne
  obtain ⟨-, ⟨-, h0, -⟩ | ⟨-, hcmd⟩⟩ := exec_next_cases he
  · simp [hi] at h0
  rcases hcmd with ⟨rfl, rfl⟩ | ⟨rfl, rfl⟩ | ⟨v, -, rfl⟩ | ⟨p, -, rfl⟩ | ⟨c, rfl, rfl⟩ | ⟨-, rfl⟩ | ⟨rfl, -, rfl⟩ |
    ⟨rfl, -, ht⟩ | ⟨m, -, rfl⟩ | ⟨d, -, rfl⟩
  · exact .inl ⟨rfl, (startCommand_state s).resolve_left hne⟩
  · exact .inr (.inr (.inr (.inr (.inr (.inl ⟨rfl, (stopCommand_state s).resolve_left hne⟩)))))
  · exact absurd rfl hne
  · exact absurd rfl hne
  · obtain ⟨hc, hfault⟩ := (faultCommand_state c s).resolve_left hne
    exact .inr (.inr (.inr (.inr (.inl ⟨c, hc, rfl, hfault⟩))))
  · exact absurd rfl hne
  · exact .inr (.inr (.inr (.inr (.inr (.inr ⟨rfl, (clearCommand_state _ s).resolve_left hne⟩)))))
  · rcases (tickPipeline_state s ht).resolve_left hne with h | h | h
    · exact .inr (.inl ⟨rfl, h⟩)
    · exact .inr (.inr (.inl ⟨rfl, h⟩))
    · exact .inr (.inr (.inr (.inl ⟨rfl, h⟩)))
  · exact absurd (modeCommand_state m s) hne
  · exact absurd (directionCommand_state d s) hne

/-! ### What the commands leave to LOOP and to the step: the tick and the command queue (10_state.md R44, R48) -/

/-- The tick and the queue of presented commands are the same in both states. -/
def TickAndQueueKept (s t : State) : Prop := t.tick = s.tick ∧ t.pending = s.pending

theorem startCommand_keeps_tick (s : State) : TickAndQueueKept s (startCommand s) := by
  rw [startCommand_eq]
  split <;> exact ⟨rfl, rfl⟩

theorem stopCommand_keeps_tick (s : State) : TickAndQueueKept s (stopCommand s) := by
  rw [stopCommand_eq, leaveToStop_eq]
  split <;> exact ⟨rfl, rfl⟩

theorem faultCommand_keeps_tick (c : FaultCode) (s : State) : TickAndQueueKept s (faultCommand c s) := by
  rw [faultCommand_eq, faultEntry_eq]
  split <;> exact ⟨rfl, rfl⟩

theorem clearCommand_keeps_tick (m : Meas) (s : State) : TickAndQueueKept s (clearCommand m s) := by
  unfold clearCommand
  split <;> exact ⟨rfl, rfl⟩

theorem modeCommand_keeps_tick (m : ControlMode) (s : State) : TickAndQueueKept s (modeCommand m s) := by
  unfold modeCommand
  split <;> exact ⟨rfl, rfl⟩

theorem directionCommand_keeps_tick (d : Direction) (s : State) : TickAndQueueKept s (directionCommand d s) := by
  unfold directionCommand
  split <;> exact ⟨rfl, rfl⟩

/-- A command keeps the tick and the queue, but for INIT, which clears the tick, and LOOP, which advances it; these two
keep the queue. -/
theorem exec_tick_cases {i : Instr} {s t : State} (he : exec i s = .next t) :
    (i ≠ .loop ∧ TickAndQueueKept s t) ∨ (s.initDone = false ∧ t.pending = s.pending) ∨
      (i = .loop ∧ t.tick = now s ∧ t.pending = s.pending) := by
  obtain ⟨-, ⟨-, hi, rfl⟩ | ⟨-, hcmd⟩⟩ := exec_next_cases he
  · exact .inr (.inl ⟨hi, rfl⟩)
  rcases hcmd with ⟨rfl, rfl⟩ | ⟨rfl, rfl⟩ | ⟨v, rfl, rfl⟩ | ⟨p, rfl, rfl⟩ | ⟨c, rfl, rfl⟩ | ⟨rfl, rfl⟩ |
    ⟨rfl, -, rfl⟩ | ⟨hloop, -, rfl⟩ | ⟨m, rfl, rfl⟩ | ⟨d, rfl, rfl⟩
  · exact .inl ⟨nofun, startCommand_keeps_tick s⟩
  · exact .inl ⟨nofun, stopCommand_keeps_tick s⟩
  · exact .inl ⟨nofun, rfl, rfl⟩
  · exact .inl ⟨nofun, rfl, rfl⟩
  · exact .inl ⟨nofun, faultCommand_keeps_tick c s⟩
  · exact .inl ⟨nofun, rfl, rfl⟩
  · exact .inl ⟨nofun, clearCommand_keeps_tick _ s⟩
  · obtain ⟨htick, -, -, -, -, -, -, -, -, hpending, -⟩ := tickPipeline_frame s
    exact .inr (.inr ⟨hloop, htick, hpending⟩)
  · exact .inl ⟨nofun, modeCommand_keeps_tick m s⟩
  · exact .inl ⟨nofun, directionCommand_keeps_tick d s⟩

/-- Settles O55: LOOP advances the tick to `now`, one more modulo 2^TICK_W. -/
theorem tickCountsLoops : Obligations.TickCountsLoops := by
  intro i s t hi he
  rcases exec_tick_cases he with ⟨hloop, htick, -⟩ | ⟨h0, -⟩ | ⟨rfl, htick, -⟩
  · exact ⟨fun h => absurd h hloop, fun _ => htick⟩
  · simp [hi] at h0
  · refine ⟨fun _ => ⟨fun hw => ?_, fun w hw => ?_⟩, fun h => absurd rfl h⟩
    · rw [htick, now_of_unbounded hw]
    · simp only [htick, now, hw]

end Sys2Proof.Proofs.Transitions
end

section
/-! Proofs for 00_scope.md R20: the observation of a run has one entry for each command executed, and the state at its
end. -/

namespace Sys2Proof.Proofs.Observations

open Sys2Proof.Machine Sys2Proof.Safety Sys2Proof.Proofs.ResetAndHazards Sys2Proof.Proofs.Transitions

/-- A step takes the command it executes from the queue, and no other. -/
theorem step_pending {s t : State} (h : step s = .next t) : t.pending = s.pending.tail := by
  obtain ⟨-, ⟨hp, rfl⟩ | ⟨p, rest, i, hp, -, he⟩⟩ := step_next_cases h
  · rw [hp]; rfl
  · rw [hp]
    rcases exec_tick_cases he with ⟨-, -, h⟩ | ⟨-, h⟩ | ⟨-, -, h⟩ <;> exact h

/-- What an observer sees of the command that takes `s` to `t` (R20). -/
def entryOf (s t : State) : Observation :=
  { response := nextResponse s, state := stateRecord t, ports := outputPorts t }

/-- A run that has an observation makes its first step; the observation is that of the remaining steps, behind the entry
of the first command where one was presented. -/
theorem observe_succ {k : Nat} {s : State} {o : RunObservation} (h : observe (k + 1) s = some o) :
    ∃ t o', step s = .next t ∧ observe k t = some o' ∧ o.final = o'.final ∧
      (s.pending = [] → o.commands = o'.commands) ∧
      (s.pending ≠ [] → o.commands = entryOf s t :: o'.commands) := by
  unfold observe at h
  split at h
  · rename_i t hstep
    obtain ⟨o', ho, rfl⟩ := Option.map_eq_some_iff.mp h
    refine ⟨t, o', hstep, ho, ?_⟩
    cases s.pending with
    | nil => exact ⟨rfl, fun _ => rfl, fun h => absurd rfl h⟩
    | cons p rest => exact ⟨rfl, nofun, fun _ => rfl⟩
  · cases h
  · cases h

/-- The parts of O59 that an induction over the steps gives. -/
structure Observes (k : Nat) (s : State) (o : RunObservation) : Prop where
  count : o.commands.length = min k s.pending.length
  last : ∀ e, o.commands.getLast? = some e → e.state = o.final
  empty : o.commands = [] → o.final = stateRecord s
  ports : ∀ e ∈ o.commands, e.ports = outputPorts e.state ∧ e.state.cfg = s.cfg

theorem observes_of_observe {k : Nat} {s : State} {o : RunObservation} (h : observe k s = some o) :
    Observes k s o := by
  induction k generalizing s o with
  | zero =>
    cases h
    exact ⟨by simp, by simp, fun _ => rfl, by simp⟩
  | succ k ih =>
    obtain ⟨t, o', hstep, ho, hfinal, hidle, hcommand⟩ := observe_succ h
    have hrest := ih ho
    have hcfg := configurationIsConstant s t hstep
    have hcount := hrest.count
    rw [step_pending hstep] at hcount
    by_cases hp : s.pending = []
    case pos =>
      obtain rfl : t = s := by
        obtain ⟨-, ⟨-, e⟩ | ⟨p, rest, -, hp', -⟩⟩ := step_next_cases hstep
        · exact e
        · simp [hp] at hp'
      refine ⟨?_, ?_, ?_, ?_⟩ <;> rw [hidle hp]
      · simpa [hp] using hcount
      · rw [hfinal]; exact hrest.last
      · rw [hfinal]; exact hrest.empty
      · exact hrest.ports
    case neg =>
      refine ⟨?_, ?_, ?_, ?_⟩ <;> rw [hcommand hp]
      · have := List.length_pos_iff.mpr hp
        simp only [List.length_cons, hcount, List.length_tail]
        omega
      · intro e he
        rw [hfinal]
        rw [List.getLast?_cons, Option.some.injEq] at he
        cases hl : o'.commands.getLast? with
        | none =>
          rw [hl] at he
          rw [← he, hrest.empty (List.getLast?_eq_none_iff.mp hl)]
          rfl
        | some a =>
          rw [hl] at he
          exact hrest.last e (he ▸ hl)
      · nofun
      · intro e he
        rcases List.mem_cons.mp he with rfl | he
        · exact ⟨rfl, hcfg⟩
        · obtain ⟨hports, hc⟩ := hrest.ports e he
          exact ⟨hports, hc.trans hcfg⟩

/-- Settles O59, by induction over the steps; the head of the list of entries is the first command's. -/
theorem observationHoldsEachCommandAndTheEnd : Obligations.ObservationHoldsEachCommandAndTheEnd := by
  intro k s o h
  obtain ⟨hcount, hlast, hempty, hports⟩ := observes_of_observe h
  refine ⟨hcount, hlast, hempty, hports, fun t hk hp hstep => ?_⟩
  obtain ⟨j, rfl⟩ : ∃ j, k = j + 1 := ⟨k - 1, by omega⟩
  obtain ⟨t', o', hstep', ho, hfinal, -, hcommand⟩ := observe_succ h
  obtain rfl : t' = t := Host.Outcome.next.inj (hstep'.symm.trans hstep)
  rw [hcommand hp]
  exact ⟨rfl, o', ho, rfl, hfinal⟩

end Sys2Proof.Proofs.Observations
end

section
/-! Proofs for 00_scope.md R12 and R16 and 30_encoding.md R94: the quantizers, the operations of type Num, the binary32
datum, and rounding to nearest even. -/

namespace Sys2Proof.Proofs.Numbers

open Sys2Proof.Machine Sys2Proof.Safety Sys2Proof.Proofs.StateRecord Sys2Proof.Proofs.SpeedController
  Sys2Proof.Proofs.CurrentLimiter

/-! ### The operations (00_scope.md R16) and the binary32 datum (30_encoding.md R94) -/

theorem holdsNum_div (a : Arith) (site : OpSite) (x y : Quantity) : holdsNum a.model (a.div site x y) = true := by
  unfold Arith.div
  split
  · exact holdsNum_free a site
  · exact holdsNum_result a site _

/-- Settles O20: a result is rounded, or a free value, and both are values of type Num. -/
theorem operationsAnswerNums : Obligations.OperationsAnswerNums := fun a site x y =>
  ⟨holdsNum_result a site _, holdsNum_result a site _, holdsNum_result a site _, holdsNum_div a site x y⟩

/-- Settles O21: under Exact rounding answers its argument. -/
theorem exactOperationsAreExact : Obligations.ExactOperationsAreExact := fun _ _ _ _ =>
  ⟨rfl, rfl, rfl, fun hy => div_of_roundIn hy rfl⟩

/-- Settles O8: both binary formats reach at least as far as binary32. -/
theorem binaryDatumIsANumInEveryModel : Obligations.BinaryDatumIsANumInEveryModel := fun m _ h =>
  holdsNum_value32 m h

/-- Settles O7, datum by datum. -/
theorem binaryDatumValues : Obligations.BinaryDatumValues := by
  unfold Obligations.BinaryDatumValues
  decide +kernel

/-! ### QUANTIZE (00_scope.md R12) -/

/-- A quantizer answers nothing above the integer next to the floor. -/
theorem cutQuantize_le_floor_add_one (cs : List Cut) (x : Quantity) : cutQuantize cs x ≤ x.floor + 1 := by
  have hlt : (cutQuantize cs x : Quantity) < ((x.floor + 2 : Int) : Quantity) := by
    have : x - 1 < x.floor := Rat.lt_floor
    push_cast
    linarith [(cutQuantize_bounds cs x).2]
  have : cutQuantize cs x < x.floor + 2 := by exact_mod_cast hlt
  omega

/-- Between an integer and the next, what lies above the cut stays above it. -/
theorem cutQuantize_mono_of_floor_eq (cs : List Cut) {x y : Quantity} (hxy : x ≤ y) (hf : x.floor = y.floor) :
    cutQuantize cs x ≤ cutQuantize cs y := by
  by_cases hx : (x.floor : Quantity) = x
  · have : cutQuantize cs x = x.floor := by rw [← hx, cutQuantize_intCast, Rat.floor_intCast]
    rw [this, hf]
    exact (cutQuantize_bounds cs y).1
  · have hy : (y.floor : Quantity) ≠ y := by
      have := lt_of_le_of_ne (Rat.floor_le x) hx
      rw [← hf]
      exact (this.trans_le hxy).ne
    simp only [cutQuantize, hx, hy, if_false]
    rw [← hf]
    cases cs[x.floor.toNat]? with
    | none => exact le_refl _
    | some c =>
      have hcut : (c.point < x ∨ (c.closed = true ∧ x = c.point)) →
          (c.point < y ∨ (c.closed = true ∧ y = c.point)) := by
        rintro (h | ⟨hc, rfl⟩)
        · exact .inl (h.trans_le hxy)
        · exact hxy.lt_or_eq.imp_right fun h => ⟨hc, h.symm⟩
      dsimp only
      split_ifs with h1 h2
      · exact le_refl _
      · exact absurd (hcut h1) h2
      · omega
      · exact le_refl _

theorem cutQuantize_mono (cs : List Cut) {x y : Quantity} (hxy : x ≤ y) : cutQuantize cs x ≤ cutQuantize cs y := by
  rcases (Rat.floor_monotone hxy).eq_or_lt with hf | hf
  · exact cutQuantize_mono_of_floor_eq cs hxy hf
  · have := cutQuantize_le_floor_add_one cs x
    have := (cutQuantize_bounds cs y).1
    omega

theorem quantize_mono (a : Arith) (site : OpSite) (q : Quantizer) {x y : Quantity} (h0 : 0 ≤ x) (hxy : x ≤ y)
    (h1 : y ≤ 1000) : quantize a site q x ≤ quantize a site q y := by
  cases q with
  | floor => exact Rat.floor_monotone hxy
  | cuts cs =>
    rw [quantize, quantize, if_pos ⟨h0, hxy.trans h1⟩, if_pos ⟨h0.trans hxy, h1⟩]
    exact cutQuantize_mono cs hxy

/-- Settles O18: within a gap the cut decides, and across a gap the floors do. -/
theorem quantizerIsMonotoneAndFixesIntegers : Obligations.QuantizerIsMonotoneAndFixesIntegers := fun a site q =>
  ⟨fun _ _ h0 hxy h1 => quantize_mono a site q h0 hxy h1, fun _ hn => quantize_natCast a site q hn,
    fun _ h0 h1 => quantize_range a site q h0 h1, fun x => ⟨Rat.floor_le x, fun _ hn => Rat.le_floor_iff.mpr hn⟩⟩

/-! ### The datum the assembler writes (30_encoding.md R94, R103) -/

/-- The binary32 datum of a sign, a biased exponent and a fraction (R94). -/
def datum (negative : Bool) (biased fraction : Nat) : Word32 :=
  BitVec.ofNat 32 ((if negative then 2 ^ 31 else 0) + biased * 2 ^ 23 + fraction)

theorem datum_fields (negative : Bool) {b f : Nat} (hb : b < 2 ^ 8) (hf : f < 2 ^ 23) :
    (datum negative b f).getLsbD 31 = negative ∧ ((datum negative b f).extractLsb' 23 8).toNat = b ∧
      ((datum negative b f).extractLsb' 0 23).toNat = f := by
  have hsign : (datum negative b f).toNat = (if negative then 2 ^ 31 else 0) + b * 2 ^ 23 + f := by
    rw [datum, BitVec.toNat_ofNat, Nat.mod_eq_of_lt]
    split <;> omega
  rw [BitVec.getLsbD, BitVec.extractLsb'_toNat, BitVec.extractLsb'_toNat, hsign, Nat.testBit_eq_decide_div_mod_eq,
    Nat.shiftRight_eq_div_pow, Nat.shiftRight_eq_div_pow]
  cases negative <;> simp only [if_true, Bool.false_eq_true, if_false, decide_eq_true_eq, decide_eq_false_iff_not] <;>
    omega

/-- The value of a datum with a normal exponent, and of a subnormal one (R94). -/
theorem value32_datum (negative : Bool) {b f k : Nat} {j : Int} (hb : b < 2 ^ 8 - 1) (hf : f < 2 ^ 23)
    (h : (b = 0 ∧ k = f ∧ j = -149) ∨ (1 ≤ b ∧ k = 2 ^ 23 + f ∧ j = (b : Int) - 150)) :
    finite32 (datum negative b f) = true ∧
      value32 (datum negative b f) = if negative then -((k : Quantity) * pow2 j) else (k : Quantity) * pow2 j := by
  obtain ⟨hsign, hexp, hfrac⟩ := datum_fields negative (by omega : b < 2 ^ 8) hf
  constructor
  · rw [finite32, bne_iff_ne]
    intro e
    rw [e] at hexp
    simp at hexp
    omega
  · have hk : (if b = 0 then f else 2 ^ 23 + f) = k := by split <;> omega
    have hj : ((max b 1 : Nat) : Int) - 150 = j := by omega
    simp only [value32, hsign, hexp, hfrac, hk, hj]

/-- A positive number as an integer over the spacing of binary32: it has at most 24 bits, and fewer only at the least
exponent. -/
theorem significand_range {x : Quantity} (hx : 0 < x) {e : Int} (he : e = max (floorLog2 x) (-126)) {k : Nat}
    (hk : x = k * pow2 (e - 23)) : k < 2 ^ 24 ∧ (k < 2 ^ 23 → e = -126) := by
  obtain ⟨hlow, hhigh⟩ := floorLog2_spec hx
  have hpos := pow2_pos (e - 23)
  constructor
  · have hlt : (k : Quantity) * pow2 (e - 23) < ((2 ^ 24 : Nat) : Quantity) * pow2 (e - 23) := by
      rw [← hk, ← pow2_natCast, ← pow2_add]
      exact hhigh.trans_le (pow2_le_iff.mpr (by omega))
    exact_mod_cast lt_of_mul_lt_mul_right hlt hpos.le
  · intro hk23
    have hlt : x < pow2 e := by
      have : pow2 e = ((2 ^ 23 : Nat) : Quantity) * pow2 (e - 23) := by
        rw [← pow2_natCast, ← pow2_add]; congr 1; omega
      rw [this, hk]
      exact mul_lt_mul_of_pos_right (by exact_mod_cast hk23) hpos
    have := pow2_lt_iff.mp (hlow.trans_lt hlt)
    omega

/-- Where `word32Of` answers for a positive number, the number is a natural times the spacing of binary32, and the datum
has its bits. -/
theorem word32Of_eq_some {negative : Bool} {x : Quantity} {w : Word32} (hx : 0 < x)
    (h : word32Of negative x = some w) :
    ∃ (k : Nat) (e : Int), e = max (floorLog2 x) (-126) ∧ e ≤ 127 ∧ x = k * pow2 (e - 23) ∧
      w = datum negative (if k < 2 ^ 23 then 0 else (e + 127).toNat) (k % 2 ^ 23) := by
  obtain ⟨e, he⟩ : ∃ e, e = max (floorLog2 x) (-126) := ⟨_, rfl⟩
  obtain ⟨m, hm⟩ : ∃ m, m = x / pow2 (e - 23) := ⟨_, rfl⟩
  simp only [word32Of, hx.ne', if_false, ← he, ← hm] at h
  split at h
  case isFalse => cases h
  rename_i hrep
  have hnum : m = (m.num.toNat : Quantity) := by
    have hnonneg : 0 ≤ m.num := Rat.num_nonneg.mpr (hm ▸ (div_pos hx (pow2_pos _)).le)
    have : ((m.num.toNat : Int) : Quantity) = (m.num : Quantity) := by rw [Int.toNat_of_nonneg hnonneg]
    rw [← Int.cast_natCast, this]
    exact (Rat.coe_int_num_of_den_eq_one hrep.1).symm
  refine ⟨m.num.toNat, e, he, hrep.2, ?_, ?_⟩
  · rw [← hnum, hm, div_mul_cancel₀ _ (pow2_pos _).ne']
  · have hsmall : m.num < 2 ^ 23 ↔ m.num.toNat < 2 ^ 23 := by omega
    simp only [hsmall] at h
    exact (Option.some.inj h).symm

/-- Settles O10: the fields of the datum give the number back, in the normal and in the subnormal range. -/
theorem assemblerWritesExactlyTheNumber : Obligations.AssemblerWritesExactlyTheNumber := by
  intro negative x w hx h
  rcases hx.eq_or_lt with rfl | hpos
  · have hw : w = datum negative 0 0 := by
      simp only [word32Of, if_true] at h
      exact (Option.some.inj h).symm
    rw [hw]
    simpa using value32_datum negative (b := 0) (f := 0) (k := 0) (j := -149) (by omega) (by omega) (by omega)
  · obtain ⟨k, e, he, h127, rfl, rfl⟩ := word32Of_eq_some hpos h
    obtain ⟨h24, hsub⟩ := significand_range hpos he rfl
    apply value32_datum
    · split <;> omega
    · exact Nat.mod_lt _ (by positivity)
    · by_cases hk : k < 2 ^ 23
      · rw [if_pos hk]
        have := hsub hk
        omega
      · rw [if_neg hk]
        omega

end Sys2Proof.Proofs.Numbers
end

section
/-! Proofs for 00_scope.md R16: rounding into a binary format answers a nearest value of the format, the even one of two,
and none from the halfway point above the greatest value. -/

namespace Sys2Proof.Proofs.Rounding

open Sys2Proof.Machine Sys2Proof.Safety

/-! ### The nearest integer at a halfway point -/

theorem abs_roundHalfEven (x : Quantity) : |roundHalfEven x| = roundHalfEven |x| := by
  have hnonneg : 0 ≤ roundHalfEven |x| := le_roundHalfEven (by simp)
  rcases abs_choice x with h | h
  · rw [h] at hnonneg ⊢; exact abs_of_nonneg hnonneg
  · rw [h, roundHalfEven_neg] at hnonneg ⊢; exact abs_of_nonpos (by omega)

/-- An even integer takes the halfway point below it. -/
theorem le_roundHalfEven_iff_of_even {n : Int} (hn : n % 2 = 0) (x : Quantity) :
    n ≤ roundHalfEven x ↔ (n : Quantity) - 1 / 2 ≤ x := by
  constructor
  · intro h
    by_contra hx
    rw [not_le] at hx
    have hr : (n : Quantity) ≤ roundHalfEven x := by exact_mod_cast h
    have hlow : (n : Quantity) - 1 < x := by
      by_contra hle
      have : roundHalfEven x ≤ n - 1 := roundHalfEven_le (by push_cast; exact not_lt.mp hle)
      omega
    have hnear := roundHalfEven_nearest x (n - 1)
    push_cast at hnear
    rw [abs_of_nonpos (by linarith), abs_of_pos (by linarith)] at hnear
    linarith
  · intro h
    by_contra hr
    have hr' : (roundHalfEven x : Quantity) ≤ n - 1 := by
      have : roundHalfEven x ≤ n - 1 := by omega
      exact_mod_cast this
    have hxn : x ≤ n := by
      by_contra hx
      exact hr (le_roundHalfEven (not_le.mp hx).le)
    have hnear := roundHalfEven_nearest x n
    rw [abs_of_nonpos (by linarith : x - n ≤ 0), abs_of_nonneg (by linarith)] at hnear
    have hr1 : (roundHalfEven x : Quantity) = n - 1 := by linarith
    have htie : |x - roundHalfEven x| = |x - n| := by
      rw [hr1, abs_of_nonpos (by linarith : x - n ≤ 0), abs_of_nonneg] <;> linarith
    have heven := roundHalfEven_even_of_tie htie (by omega)
    have : roundHalfEven x = n - 1 := by exact_mod_cast hr1
    omega

/-! ### Rounding into a format, by its significand -/

section Format

variable (f : FloatFormat)

/-- The exponent of the least bit of the values of the format around `x`. -/
def leastExponent (x : Quantity) : Int := max (floorLog2 |x|) f.emin - ((f.precision : Int) - 1)

/-- The exponent of the least bit of the greatest values of the format. -/
def topExponent : Int := f.emax - ((f.precision : Int) - 1)

/-- The integer that rounding writes over the least bit. -/
def significand (x : Quantity) : Int := roundHalfEven (x / f.spacing x)

variable {f}

theorem spacing_eq (x : Quantity) : f.spacing x = pow2 (leastExponent f x) := by
  rw [FloatFormat.spacing, magnitude_eq_abs, leastExponent]

theorem round_eq_some_iff {x y : Quantity} (hx : x ≠ 0) :
    f.round x = some y ↔ y = significand f x * f.spacing x ∧ |y| ≤ f.maxFinite := by
  rw [FloatFormat.round, if_neg hx, significand]
  simp only [magnitude_eq_abs]
  split <;> rename_i h
  · rw [Option.some.injEq, eq_comm]
    exact ⟨fun e => ⟨e, e ▸ h⟩, fun e => e.1⟩
  · refine iff_of_false nofun fun e => ?_
    exact h (e.1 ▸ e.2)

theorem round_eq_none_iff {x : Quantity} (hx : x ≠ 0) :
    f.round x = none ↔ f.maxFinite < |significand f x * f.spacing x| := by
  rw [FloatFormat.round, if_neg hx, significand]
  simp only [magnitude_eq_abs]
  split <;> rename_i h
  · exact iff_of_false nofun h.not_gt
  · exact iff_of_true rfl (not_le.mp h)

theorem maxFinite_eq : f.maxFinite = ((2 ^ f.precision - 1 : Int) : Quantity) * pow2 (topExponent f) := by
  have : ((2 ^ f.precision - 1 : Nat) : Int) = 2 ^ f.precision - 1 := by
    rw [Nat.cast_sub Nat.one_le_two_pow]; push_cast; rfl
  rw [FloatFormat.maxFinite, topExponent, ← this, Int.cast_natCast]

theorem pow2_natCast_add (n : Nat) (j : Int) : pow2 (n + j) = ((2 ^ n : Int) : Quantity) * pow2 j := by
  rw [pow2_add, pow2_natCast]; push_cast; rfl

theorem two_pow_precision (hp : 1 ≤ f.precision) : (2 : Int) ^ f.precision = 2 * 2 ^ (f.precision - 1) := by
  rw [← pow_succ', Nat.sub_add_cancel hp]

theorem abs_intCast_mul_pow2 (m j : Int) : |(m : Quantity) * pow2 j| = ((|m| : Int) : Quantity) * pow2 j := by
  rw [abs_mul, abs_of_pos (pow2_pos j), Int.cast_abs]

/-- The format reaches every integer of its precision over a bit that is not above the top one. -/
theorem abs_le_maxFinite {m j : Int} (hm : |m| < 2 ^ f.precision) (hj : j ≤ topExponent f) :
    |(m : Quantity) * pow2 j| ≤ f.maxFinite := by
  rw [abs_intCast_mul_pow2, maxFinite_eq]
  have h0 : (0 : Quantity) ≤ ((|m| : Int) : Quantity) := by exact_mod_cast abs_nonneg m
  have h1 : ((|m| : Int) : Quantity) ≤ ((2 ^ f.precision - 1 : Int) : Quantity) := by
    exact_mod_cast Int.le_sub_one_of_lt hm
  exact mul_le_mul h1 (pow2_le_iff.mpr hj) (pow2_pos j).le (h0.trans h1)

/-- An integer that uses the whole precision lies beyond the format over a bit above the top one. -/
theorem le_topExponent (hp : 1 ≤ f.precision) {m j : Int} (hm : 2 ^ (f.precision - 1) ≤ |m|)
    (h : |(m : Quantity) * pow2 j| ≤ f.maxFinite) : j ≤ topExponent f := by
  by_contra hj
  rw [abs_intCast_mul_pow2, maxFinite_eq] at h
  have hstep : 2 * pow2 (topExponent f) ≤ pow2 j := by
    have : pow2 (topExponent f + 1) = 2 * pow2 (topExponent f) := by
      rw [add_comm]; exact_mod_cast pow2_natCast_add 1 (topExponent f)
    rw [← this]
    exact pow2_le_iff.mpr (by omega)
  have hm' : ((2 ^ (f.precision - 1) : Int) : Quantity) ≤ ((|m| : Int) : Quantity) := by exact_mod_cast hm
  have hpos := pow2_pos (topExponent f)
  have hbits : (0 : Quantity) < ((2 ^ (f.precision - 1) : Int) : Quantity) := by positivity
  have : ((2 ^ (f.precision - 1) : Int) : Quantity) * (2 * pow2 (topExponent f)) ≤
      ((2 ^ f.precision - 1 : Int) : Quantity) * pow2 (topExponent f) :=
    (mul_le_mul hm' hstep (by positivity) (hbits.le.trans hm')).trans h
  rw [two_pow_precision hp] at this
  push_cast at this
  linarith

/-! ### The range of the significand -/

theorem abs_significand (x : Quantity) : |significand f x| = roundHalfEven (|x| / f.spacing x) := by
  rw [significand, abs_roundHalfEven, abs_div, abs_of_pos (f.spacing_pos x)]

theorem abs_lt_of_ne_zero {x : Quantity} (hx : x ≠ 0) : |x| < pow2 (f.precision + leastExponent f x) := by
  obtain ⟨-, hhigh⟩ := floorLog2_spec (abs_pos.mpr hx)
  refine hhigh.trans_le (pow2_le_iff.mpr ?_)
  rw [leastExponent]
  omega

theorem abs_significand_le {x : Quantity} (hx : x ≠ 0) : |significand f x| ≤ 2 ^ f.precision := by
  rw [abs_significand]
  apply roundHalfEven_le
  rw [div_le_iff₀ (f.spacing_pos x), spacing_eq, ← pow2_natCast_add]
  exact (abs_lt_of_ne_zero hx).le

/-- In the normal range the power of two below `x` is the least integer of the whole precision over the least bit. -/
theorem pow2_floorLog2_eq (hp : 1 ≤ f.precision) {x : Quantity} (h : f.emin ≤ floorLog2 |x|) :
    pow2 (floorLog2 |x|) = ((2 ^ (f.precision - 1) : Int) : Quantity) * pow2 (leastExponent f x) := by
  rw [← pow2_natCast_add, leastExponent]
  congr 1
  omega

theorem le_abs_significand (hp : 1 ≤ f.precision) {x : Quantity} (hx : x ≠ 0) (h : f.emin ≤ floorLog2 |x|) :
    2 ^ (f.precision - 1) ≤ |significand f x| := by
  rw [abs_significand]
  apply le_roundHalfEven
  rw [le_div_iff₀ (f.spacing_pos x), spacing_eq, ← pow2_floorLog2_eq hp h]
  exact (floorLog2_spec (abs_pos.mpr hx)).1

/-! ### What rounding answers is a value of the format -/

/-- `y` as an integer over a bit of the format, with the whole precision or over the least bit of all. -/
structure NormalForm (f : FloatFormat) (y : Quantity) (m j : Int) : Prop where
  bits : |m| < 2 ^ f.precision
  low : f.emin - ((f.precision : Int) - 1) ≤ j
  high : j ≤ topExponent f
  value : y = (m : Quantity) * pow2 j
  normal : 2 ^ (f.precision - 1) ≤ |m| ∨ j = f.emin - ((f.precision : Int) - 1)

/-- A significand that rounds up to a power of two is halved, over the next bit; it stays even. -/
theorem exists_half {m : Int} (hp : 2 ≤ f.precision) (hm : |m| = 2 ^ f.precision) :
    ∃ h, m = h * 2 ∧ |h| = 2 ^ (f.precision - 1) ∧ h % 2 = 0 := by
  have htwo := two_pow_precision (f := f) (by omega)
  have hfour : (2 : Int) ^ (f.precision - 1) = 2 * 2 ^ (f.precision - 2) := by
    rw [← pow_succ']; congr 1; omega
  rcases abs_choice m with h | h
  · exact ⟨2 ^ (f.precision - 1), by omega, abs_of_pos (by positivity), by omega⟩
  · exact ⟨-2 ^ (f.precision - 1), by omega, by rw [abs_neg]; exact abs_of_pos (by positivity), by omega⟩

theorem exists_normalForm (hp : 2 ≤ f.precision) (he : f.emin ≤ f.emax) {x y : Quantity} (hx : x ≠ 0)
    (h : f.round x = some y) :
    ∃ m j, NormalForm f y m j ∧ (significand f x % 2 = 0 → m % 2 = 0) := by
  obtain ⟨rfl, hmax⟩ := (round_eq_some_iff hx).mp h
  rw [spacing_eq] at hmax ⊢
  have hlow : f.emin - ((f.precision : Int) - 1) ≤ leastExponent f x := by rw [leastExponent]; omega
  rcases (abs_significand_le (f := f) hx).eq_or_lt with hfull | hbits
  · obtain ⟨k, hk, habs, heven⟩ := exists_half hp hfull
    have hvalue : (significand f x : Quantity) * pow2 (leastExponent f x) =
        (k : Quantity) * pow2 (leastExponent f x + 1) := by
      have hstep := pow2_natCast_add 1 (leastExponent f x)
      rw [add_comm] at hstep
      rw [hk]
      push_cast at hstep ⊢
      rw [hstep]
      ring
    rw [hvalue] at hmax ⊢
    refine ⟨k, leastExponent f x + 1, ⟨?_, by omega, le_topExponent (by omega) habs.ge hmax, rfl, .inl habs.ge⟩,
      fun _ => heven⟩
    rw [habs, two_pow_precision (by omega)]
    have : (0 : Int) < 2 ^ (f.precision - 1) := by positivity
    omega
  · by_cases hnormal : f.emin ≤ floorLog2 |x|
    · have hall := le_abs_significand (by omega) hx hnormal
      exact ⟨_, _, ⟨hbits, hlow, le_topExponent (by omega) hall hmax, rfl, .inl hall⟩, id⟩
    · have hleast : leastExponent f x = f.emin - ((f.precision : Int) - 1) := by rw [leastExponent]; omega
      refine ⟨_, _, ⟨hbits, hlow, ?_, rfl, .inr hleast⟩, id⟩
      rw [hleast, topExponent]
      omega

theorem inFormat_of_normalForm {y : Quantity} {m j : Int} (h : NormalForm f y m j) :
    InFormat f.precision f.emin f.emax y :=
  ⟨m, j, h.bits, h.low, h.high, by rw [← pow2_eq_zpow]; exact h.value⟩

theorem evenInFormat_of_normalForm {y : Quantity} {m j : Int} (h : NormalForm f y m j) (hm : m % 2 = 0) :
    EvenInFormat f.precision f.emin f.emax y :=
  ⟨m, j, h.bits, h.low, h.high, by rw [← pow2_eq_zpow]; exact h.value, hm, h.normal⟩

theorem inFormat_of_round (hp : 2 ≤ f.precision) (he : f.emin ≤ f.emax) {x y : Quantity} (h : f.round x = some y) :
    InFormat f.precision f.emin f.emax y := by
  by_cases hx : x = 0
  · rw [hx, f.round_zero] at h
    cases h
    exact ⟨0, f.emin - ((f.precision : Int) - 1), by simp, le_refl _, by omega, by simp⟩
  · obtain ⟨m, j, hform, -⟩ := exists_normalForm hp he hx h
    exact inFormat_of_normalForm hform

/-- A value of the format is rounded to itself. -/
theorem round_of_inFormat (hp : 2 ≤ f.precision) {z : Quantity} (h : InFormat f.precision f.emin f.emax z) :
    f.round z = some z := by
  obtain ⟨m, j, hm, hlow, hhigh, rfl⟩ := h
  rw [← pow2_eq_zpow]
  exact f.round_of_multiple hm.le (by omega) hlow (abs_le_maxFinite hm hhigh)

/-! ### No value of the format is nearer -/

theorem abs_sub_multiple (x : Quantity) (n : Int) :
    |x - (n : Quantity) * f.spacing x| = |x / f.spacing x - n| * f.spacing x := by
  have hpos := f.spacing_pos x
  rw [← abs_of_pos hpos, ← abs_mul, abs_of_pos hpos, sub_mul, div_mul_cancel₀ _ hpos.ne']

/-- Of `b` and `-b` the one between `z` and `x` is nearer to `x`. -/
theorem exists_nearer {x z b : Quantity} (hz : |z| < b) (hb : b ≤ |x|) :
    |x - b| < |x - z| ∨ |x - -b| < |x - z| := by
  obtain ⟨hz1, hz2⟩ := abs_lt.mp hz
  rcases abs_choice x with h | h <;> rw [h] at hb
  · left
    rw [abs_of_nonneg (sub_nonneg.mpr hb)]
    exact (by linarith : x - b < x - z).trans_le (le_abs_self _)
  · right
    rw [abs_of_nonpos (by linarith : x - -b ≤ 0)]
    exact (by linarith : -(x - -b) < -(x - z)).trans_le (neg_le_abs _)

/-- Every value of the format is a multiple of the spacing around `x`, or such a multiple is nearer to `x`: the finer
values lie below the power of two below `x`. -/
theorem exists_multiple_as_near (hp : 1 ≤ f.precision) {x z : Quantity} (hx : x ≠ 0)
    (hz : InFormat f.precision f.emin f.emax z) :
    ∃ n : Int, z = n * f.spacing x ∨ |x - (n : Quantity) * f.spacing x| < |x - z| := by
  obtain ⟨m, j, hm, hlow, -, rfl⟩ := hz
  rw [← pow2_eq_zpow, spacing_eq]
  by_cases hj : leastExponent f x ≤ j
  · refine ⟨m * ((2 ^ (j - leastExponent f x).toNat : Nat) : Int), .inl ?_⟩
    rw [Int.cast_mul, mul_assoc, ← pow2_eq_mul hj]
  · have hnormal : f.emin ≤ floorLog2 |x| := by rw [leastExponent] at hj; omega
    have hpow := pow2_floorLog2_eq hp hnormal
    have hsmall : |(m : Quantity) * pow2 j| < pow2 (floorLog2 |x|) := by
      have hm' : ((|m| : Int) : Quantity) < ((2 ^ f.precision : Int) : Quantity) := by exact_mod_cast hm
      rw [abs_intCast_mul_pow2]
      refine (mul_lt_mul_of_pos_right hm' (pow2_pos j)).trans_le ?_
      rw [← pow2_natCast_add]
      refine pow2_le_iff.mpr ?_
      rw [leastExponent] at hj
      omega
    rcases exists_nearer hsmall (floorLog2_spec (abs_pos.mpr hx)).1 with h | h
    · exact ⟨2 ^ (f.precision - 1), .inr (by rwa [← hpow])⟩
    · exact ⟨-2 ^ (f.precision - 1), .inr (by rwa [Int.cast_neg, neg_mul, ← hpow])⟩

theorem significand_nearest (x : Quantity) (n : Int) :
    |x - (significand f x : Quantity) * f.spacing x| ≤ |x - (n : Quantity) * f.spacing x| := by
  rw [abs_sub_multiple, abs_sub_multiple]
  exact mul_le_mul_of_nonneg_right (roundHalfEven_nearest _ n) (f.spacing_pos x).le

theorem significand_even_of_tie {x : Quantity} {n : Int}
    (h : |x - (significand f x : Quantity) * f.spacing x| = |x - (n : Quantity) * f.spacing x|)
    (hn : n ≠ significand f x) : significand f x % 2 = 0 := by
  rw [abs_sub_multiple, abs_sub_multiple] at h
  exact roundHalfEven_even_of_tie (mul_right_cancel₀ (f.spacing_pos x).ne' h) hn

theorem round_nearest (hp : 2 ≤ f.precision) {x y z : Quantity} (h : f.round x = some y)
    (hz : InFormat f.precision f.emin f.emax z) : |x - y| ≤ |x - z| := by
  by_cases hx : x = 0
  · rw [hx, f.round_zero] at h
    cases h
    rw [hx, sub_self, abs_zero]
    exact abs_nonneg _
  · obtain ⟨rfl, -⟩ := (round_eq_some_iff hx).mp h
    obtain ⟨n, rfl | hn⟩ := exists_multiple_as_near (by omega) hx hz
    · exact significand_nearest x n
    · exact (significand_nearest x n).trans hn.le

theorem round_even_of_tie (hp : 2 ≤ f.precision) (he : f.emin ≤ f.emax) {x y z : Quantity} (h : f.round x = some y)
    (hz : InFormat f.precision f.emin f.emax z) (hne : z ≠ y) (htie : |x - y| = |x - z|) :
    EvenInFormat f.precision f.emin f.emax y := by
  by_cases hx : x = 0
  · rw [hx, f.round_zero] at h
    cases h
    rw [hx, sub_zero, abs_zero, zero_sub, abs_neg] at htie
    exact absurd (abs_eq_zero.mp htie.symm) hne
  · obtain ⟨m, j, hform, heven⟩ := exists_normalForm hp he hx h
    refine evenInFormat_of_normalForm hform (heven ?_)
    obtain ⟨rfl, -⟩ := (round_eq_some_iff hx).mp h
    obtain ⟨n, rfl | hn⟩ := exists_multiple_as_near (by omega) hx hz
    · exact significand_even_of_tie htie fun e => hne (by rw [e])
    · exact absurd (significand_nearest x n) (htie ▸ hn).not_ge

/-! ### The overflow threshold -/

/-- The halfway point above the greatest value of the format. -/
def threshold (f : FloatFormat) : Quantity := (((2 ^ f.precision : Int) : Quantity) - 1 / 2) * pow2 (topExponent f)

theorem threshold_eq (hp : 1 ≤ f.precision) :
    (2 - 1 / (2 : Quantity) ^ f.precision) * (2 : Quantity) ^ f.emax = threshold f := by
  have hemax : (2 : Quantity) ^ f.emax = ((2 ^ (f.precision - 1) : Int) : Quantity) * pow2 (topExponent f) := by
    rw [← pow2_natCast_add, ← pow2_eq_zpow, topExponent]
    congr 1
    omega
  have hpow : (2 : Quantity) ^ f.precision = 2 * 2 ^ (f.precision - 1) := by exact_mod_cast two_pow_precision hp
  rw [hemax, threshold, ← mul_assoc]
  congr 1
  push_cast
  rw [hpow]
  field_simp

/-- Over the top bit: beyond the greatest value exactly from the halfway point on, whose tie goes to the even integer. -/
theorem overflow_iff_of_top (hp : 1 ≤ f.precision) {x : Quantity} (h : leastExponent f x = topExponent f) :
    f.maxFinite < |(significand f x : Quantity) * f.spacing x| ↔ threshold f ≤ |x| := by
  have hpos := pow2_pos (topExponent f)
  have heven : (2 : Int) ^ f.precision % 2 = 0 := by rw [two_pow_precision hp]; omega
  rw [spacing_eq, abs_intCast_mul_pow2, maxFinite_eq, h, mul_lt_mul_iff_left₀ hpos, Int.cast_lt, Int.sub_one_lt_iff,
    abs_significand, le_roundHalfEven_iff_of_even heven, spacing_eq, h, le_div_iff₀ hpos, threshold]

/-- The greatest value and the threshold lie between the power of two with the top bit and its double. -/
theorem threshold_bounds (hp : 1 ≤ f.precision) :
    pow2 f.emax ≤ f.maxFinite ∧ pow2 f.emax ≤ threshold f ∧ threshold f ≤ pow2 (f.emax + 1) := by
  have htop := pow2_pos (topExponent f)
  have htwo : ((2 ^ f.precision : Int) : Quantity) = 2 * ((2 ^ (f.precision - 1) : Int) : Quantity) := by
    exact_mod_cast two_pow_precision hp
  have hone : (1 : Quantity) ≤ ((2 ^ (f.precision - 1) : Int) : Quantity) := by
    exact_mod_cast one_le_pow₀ (by norm_num : (1 : Int) ≤ 2)
  have hemax : pow2 f.emax = ((2 ^ (f.precision - 1) : Int) : Quantity) * pow2 (topExponent f) := by
    rw [← pow2_natCast_add, topExponent]; congr 1; omega
  have hdouble : pow2 (f.emax + 1) = ((2 ^ f.precision : Int) : Quantity) * pow2 (topExponent f) := by
    rw [← pow2_natCast_add, topExponent]; congr 1; omega
  rw [hdouble, hemax, maxFinite_eq, threshold, Int.cast_sub, Int.cast_one]
  refine ⟨?_, ?_, ?_⟩ <;> refine mul_le_mul_of_nonneg_right ?_ htop.le <;> linarith

theorem overflow_iff (hp : 1 ≤ f.precision) (he : f.emin ≤ f.emax) {x : Quantity} (hx : x ≠ 0) :
    f.maxFinite < |(significand f x : Quantity) * f.spacing x| ↔ threshold f ≤ |x| := by
  obtain ⟨hmax, hlow, hhigh⟩ := threshold_bounds (f := f) hp
  rcases lt_trichotomy (leastExponent f x) (topExponent f) with h | h | h
  · have hle : pow2 (f.precision + leastExponent f x) ≤ pow2 f.emax :=
      pow2_le_iff.mpr (by rw [topExponent] at h; omega)
    have hsig : |(significand f x : Quantity) * f.spacing x| ≤ pow2 (f.precision + leastExponent f x) := by
      rw [spacing_eq, abs_intCast_mul_pow2, pow2_natCast_add]
      exact mul_le_mul_of_nonneg_right (by exact_mod_cast abs_significand_le hx) (pow2_pos _).le
    exact iff_of_false (hsig.trans (hle.trans hmax)).not_gt
      ((abs_lt_of_ne_zero hx).trans_le (hle.trans hlow)).not_ge
  · exact overflow_iff_of_top hp h
  · have hfl : f.emax + 1 ≤ floorLog2 |x| := by rw [leastExponent, topExponent] at h; omega
    have hsig := le_abs_significand hp hx (he.trans (by omega))
    refine iff_of_true (not_le.mp fun hle => ?_)
      (hhigh.trans ((pow2_le_iff.mpr hfl).trans (floorLog2_spec (abs_pos.mpr hx)).1))
    rw [spacing_eq] at hle
    exact h.not_ge (le_topExponent hp hsig hle)

theorem round_eq_none_iff_threshold (hp : 1 ≤ f.precision) (he : f.emin ≤ f.emax) (x : Quantity) :
    f.round x = none ↔ threshold f ≤ |x| := by
  by_cases hx : x = 0
  · have hpos : 0 < threshold f := (pow2_pos _).trans_le (threshold_bounds hp).2.1
    rw [hx, f.round_zero, abs_zero]
    exact iff_of_false nofun hpos.not_ge
  · rw [round_eq_none_iff hx, overflow_iff hp he hx]

/-! ### The two formats -/

/-- Rounding into a format, said without its algorithm. -/
theorem round_spec (hp : 2 ≤ f.precision) (he : f.emin ≤ f.emax) {m : NumModel} (hm : ∀ x, roundIn m x = f.round x) :
    (∀ z : Quantity, holdsNum m z = true ↔ InFormat f.precision f.emin f.emax z) ∧
    (∀ x y : Quantity, roundIn m x = some y → InFormat f.precision f.emin f.emax y ∧
      (∀ z : Quantity, InFormat f.precision f.emin f.emax z → |x - y| ≤ |x - z|) ∧
      (∀ z : Quantity, InFormat f.precision f.emin f.emax z → z ≠ y → |x - y| = |x - z| →
        EvenInFormat f.precision f.emin f.emax y)) ∧
    (∀ x : Quantity, roundIn m x = none ↔
      (2 - 1 / (2 : Quantity) ^ f.precision) * (2 : Quantity) ^ f.emax ≤ |x|) := by
  simp only [holdsNum_iff, hm]
  refine ⟨fun z => ⟨inFormat_of_round hp he, round_of_inFormat hp⟩, fun x y h => ?_, fun x => ?_⟩
  · exact ⟨inFormat_of_round hp he h, fun z hz => round_nearest hp h hz,
      fun z hz hne htie => round_even_of_tie hp he h hz hne htie⟩
  · rw [threshold_eq (by omega)]
    exact round_eq_none_iff_threshold (by omega) he x

end Format

/-- Settles O22, for each of the two formats. -/
theorem roundingIsToNearest : Obligations.RoundingIsToNearest := by
  intro m p emin emax hmem
  simp only [binaryFormats, List.mem_cons, Prod.mk.injEq, List.not_mem_nil, or_false] at hmem
  rcases hmem with ⟨rfl, rfl, rfl, rfl⟩ | ⟨rfl, rfl, rfl, rfl⟩
  · exact round_spec (f := .single) (by decide) (by decide) fun _ => rfl
  · exact round_spec (f := .double) (by decide) (by decide) fun _ => rfl

end Sys2Proof.Proofs.Rounding
end

section
/-! Proofs for 30_encoding.md R103 and R104: the words a line of the assembler presents, and the repeated LOOP. -/

namespace Sys2Proof.Proofs.Assembling

open Sys2Proof.Machine Sys2Proof.Proofs.Encoding Sys2Proof.Proofs.Numbers

/-! ### Operands are read as well-formed operands -/

theorem readMagnitude_nonneg {cs : List Char} {x : Quantity} (h : readMagnitude cs = some x) : 0 ≤ x := by
  unfold readMagnitude at h
  dsimp only at h
  split at h
  · obtain ⟨n, -, rfl⟩ := Option.map_eq_some_iff.mp h
    exact n.cast_nonneg
  · split at h
    · cases h
      positivity
    · cases h

theorem readWord32_finite {cs : List Char} {w : Word32} (h : readWord32 cs = some w) : finite32 w = true := by
  unfold readWord32 at h
  split at h
  all_goals
    obtain ⟨x, hx, hw⟩ := Option.bind_eq_some_iff.mp h
    exact (assemblerWritesExactlyTheNumber _ x w (readMagnitude_nonneg hx) hw).1

/-! ### The words of a line -/

/-- Every presented word is the encoding of a well-formed command. -/
def PresentsCommands (ps : List Presented) : Prop := ∀ p ∈ ps, ∃ i : Instr, i.wellFormed = true ∧ p.cmd = encode i

theorem presentsCommands_present {i : Instr} (hi : i.wellFormed = true) (p : Samples) :
    PresentsCommands [present i p] := by
  intro q hq
  rw [List.mem_singleton.mp hq]
  exact ⟨i, hi, rfl⟩

theorem presentsCommands_plain {i : Instr} (hi : i.wellFormed = true) {ps : List Presented}
    (h : presentPlain i = some ps) : PresentsCommands ps := by
  cases h
  exact presentsCommands_present hi _

theorem presentsCommands_loopTimes (n : Nat) (p : Samples) : PresentsCommands (loopTimes n p) := by
  intro q hq
  rw [(List.mem_replicate.mp hq).2]
  exact ⟨.loop, rfl, rfl⟩

theorem presentsCommands_repeat {w : String} {rest : List String} {ps : List Presented}
    (h : assembleRepeat w rest = some ps) : PresentsCommands ps := by
  unfold assembleRepeat at h
  split at h
  · split at h
    · cases h
      exact presentsCommands_loopTimes _ _
    · cases h
  · cases h

/-- An operand that reads as a value whose command is well formed. -/
theorem presentsCommands_operand {α : Type} {r : Option α} {f : α → Instr} {ps : List Presented}
    (hf : ∀ a, r = some a → (f a).wellFormed = true) (h : r.bind (fun a => presentPlain (f a)) = some ps) :
    PresentsCommands ps := by
  obtain ⟨a, ha, h⟩ := Option.bind_eq_some_iff.mp h
  exact presentsCommands_plain (hf a ha) h

theorem presentsCommands_percent {r : Option Nat} {ps : List Presented}
    (h : r.bind (fun n => if n ≤ 100 then presentPlain (.setTorque (BitVec.ofNat 7 n)) else none) = some ps) :
    PresentsCommands ps := by
  obtain ⟨n, -, h⟩ := Option.bind_eq_some_iff.mp h
  split at h
  · rename_i hn
    have hle : (BitVec.ofNat 7 n).toNat ≤ 100 := by rw [BitVec.toNat_ofNat]; omega
    exact presentsCommands_plain (i := .setTorque (BitVec.ofNat 7 n)) (decide_eq_true hle) h
  · cases h

theorem presentsCommands_words {w : String} {rest : List String} {ps : List Presented}
    (h : assembleWords w rest = some ps) : PresentsCommands ps := by
  unfold assembleWords at h
  split at h
  case h_1 =>
    split_ifs at h
    · exact presentsCommands_plain (i := .init) rfl h
    · exact presentsCommands_plain (i := .start) rfl h
    · exact presentsCommands_plain (i := .stop) rfl h
    · exact presentsCommands_plain (i := .getFault) rfl h
  case h_2 =>
    split_ifs at h
    · exact presentsCommands_operand (f := .setSpeed) (fun _ => readWord32_finite) h
    · exact presentsCommands_percent h
    · exact presentsCommands_operand (f := .faultHandler) (fun _ _ => rfl) h
    · exact presentsCommands_operand (f := .setMode) (fun _ _ => rfl) h
    · exact presentsCommands_operand (f := .setDirection) (fun _ _ => rfl) h
  case h_3 =>
    split_ifs at h
    · obtain ⟨p, -, rfl⟩ := Option.map_eq_some_iff.mp h
      exact presentsCommands_loopTimes 1 p
    · obtain ⟨p, -, rfl⟩ := Option.map_eq_some_iff.mp h
      exact presentsCommands_present (i := .clearFault) rfl p
    · exact presentsCommands_repeat h

theorem presentsCommands_line {line : String} {ps : List Presented} (h : assembleLine line = some ps) :
    PresentsCommands ps := by
  unfold assembleLine at h
  split at h
  · cases h
    exact fun _ hp => absurd hp (List.not_mem_nil)
  · exact presentsCommands_words h

/-! ### The repeated LOOP (30_encoding.md R104) -/

theorem readDigits_of_digits {cs : List Char} (h : ∀ c ∈ cs, c.isDigit = true) (acc : Nat) :
    readDigits acc cs = some (cs.foldl (fun value c => 10 * value + (c.toNat - '0'.toNat)) acc) := by
  induction cs generalizing acc with
  | nil => rfl
  | cons c cs ih =>
    rw [readDigits, if_pos (h c List.mem_cons_self), ih (fun d hd => h d (List.mem_cons_of_mem c hd))]
    rfl

theorem readNat_of_digits {cs : List Char} (hne : cs ≠ []) (h : ∀ c ∈ cs, c.isDigit = true) :
    readNat cs = some (cs.foldl (fun value c => 10 * value + (c.toNat - '0'.toNat)) 0) := by
  cases cs with
  | nil => exact absurd rfl hne
  | cons c cs => exact readDigits_of_digits h 0

theorem valueAfter_append (key : String) (cs : List Char) :
    valueAfter key (String.ofList (key.toList ++ cs)) = some cs := by
  simp [valueAfter]

/-- A line whose operands are a sample list and whose mnemonic is neither LOOP nor CLEAR_FAULT. -/
theorem assembleWords_of_samples {w : String} {rest : List String} {p : Samples} (hp : readSamples rest = some p)
    (hloop : w ≠ "LOOP") (hclear : w ≠ "CLEAR_FAULT") : assembleWords w rest = assembleRepeat w rest := by
  unfold assembleWords
  split
  · cases hp
  · cases hp
  · rw [if_neg hloop, if_neg hclear]

/-- The mnemonic `LOOP*n` is none of the plain ones. -/
theorem loopStar_ne (digits : List Char) :
    String.ofList ("LOOP*".toList ++ digits) ≠ "LOOP" ∧ String.ofList ("LOOP*".toList ++ digits) ≠ "CLEAR_FAULT" := by
  constructor <;> intro h <;> simpa using congrArg String.toList h

/-- Settles O9: every branch of the assembler presents encodings of well-formed commands, which decode; the digits of
`LOOP*n` read as n. -/
theorem assemblerPresentsCommandWords : Obligations.AssemblerPresentsCommandWords := by
  constructor
  · intro line ps h p hp
    obtain ⟨i, hi, hcmd⟩ := presentsCommands_line h p hp
    exact ⟨i, hcmd ▸ decodeOfEncodeIsTheCommand i hi, hcmd⟩
  · intro line digits n samples p hne hdigits hn hline hp
    obtain ⟨hloop, hclear⟩ := loopStar_ne digits
    have key : assembleLine line = if 1 ≤ n then some (loopTimes n p) else none := by
      simp only [assembleLine, hline]
      rw [assembleWords_of_samples hp hloop hclear, assembleRepeat, valueAfter_append, Option.bind_some,
        readNat_of_digits hne hdigits, ← hn, hp]
    rw [key]
    exact ⟨fun h => if_pos h, fun h => if_neg (by omega)⟩

end Sys2Proof.Proofs.Assembling
end
